-- ==== Sys2Proof/Word.lean ====
section
/-! DEFINITION. The bit-vector types of the JBTE: bytes, 32-bit bus words (BUSW = 32, R9) and
IEEE 754 binary64 encodings (FMT, R9). -/

namespace Sys2Proof

/-- One byte of a buffer. -/
abbrev Byte := BitVec 8

/-- One 32-bit word: a host access, a command word, a register (R9, R61). -/
abbrev Word := BitVec 32

/-- The 64-bit encoding of one IEEE 754 binary64 value (R10 `bits64`, R124). -/
abbrev F64 := BitVec 64

end Sys2Proof
end

