-- ==== Sys2Proof/Config.lean ====
section
/-! DEFINITION. What is fixed for the JBTE (R9, R52), the window's layout (R66), and the values the spec
leaves open: constants without a body, so that no proof can see what they are. -/

namespace Sys2Proof.Config

/-! ## Implementation parameters (R9) -/

/-- WINDOW: the size in bytes of the register window. -/
def window : Nat := 65536
/-- NBLK: the number of entries of a block. -/
def nblk : Nat := 64
/-- NSYM: the size of the Huffman alphabet. -/
def nsym : Nat := 256
/-- NTAB: the number of frequency and LUT banks. -/
def ntab : Nat := 3
/-- MAX_CODE_LEN: the longest code the LUT holds. -/
def maxCodeLen : Nat := 64
/-- MAXBITS: the largest bit count of one WRBITS or RDBITS. -/
def maxBits : Nat := 32
/-- RAW_CAP: the capacity in bytes of RAW. -/
def rawCap : Nat := 4096
/-- OUT_CAP: the capacity in bytes of OUT. -/
def outCap : Nat := 8192
/-- RIN_CAP: the capacity in bytes of RIN. -/
def rinCap : Nat := 8192

/-! ## Buffer offsets in the window (R66) -/

/-- DIN[0..63] (R38). -/
def dinBase : Nat := 0x0200
/-- QIN[0..63] (R39). -/
def qinBase : Nat := 0x0400
/-- DOUT[0..63] (R40). -/
def doutBase : Nat := 0x0600
/-- FREQ[0] (R41); bank `t` lies `0x400 * t` higher. -/
def freqBase : Nat := 0x1000
/-- LUT[0] (R42); bank `t` lies `0x1000 * t` higher. -/
def lutBase : Nat := 0x4000
/-- RAW (R43). -/
def rawBase : Nat := 0x8000
/-- OUT (R44). -/
def outBase : Nat := 0xA000
/-- RIN (R45). -/
def rinBase : Nat := 0xC000

/-! ## Identification (R20, R21) -/

/-- The ID register: ASCII "JBTE". -/
def idWord : Word := 0x4A425445#32
/-- The VERSION register: 1.0. -/
def versionWord : Word := 0x00010000#32

/-! ## Open parameters and free values (R9, R19, 93_implementation_defined.md) -/

/-- BASE, the byte address of the window on the host bus: an open parameter of the platform (R9, U21; log
entry 1). -/
opaque base : Nat

/-- An unspecified byte of a buffer (U1a, U2, U4, U5): the draw's number and the byte's window offset (log
entries 2 and 3). -/
opaque freeByte : Nat → Nat → Byte

/-- Entry `k` of `fdct_ref` on an input block that R126 does not cover (R129, U6; log entry 4). -/
opaque fdctRefFree : List F64 → Nat → F64

/-- Entry `k` of `fdct_fast` on an input block that R126 does not cover (R129, U6; log entry 4). -/
opaque fdctFastFree : List F64 → Nat → F64

/-- The encoding of a NaN result of binary64 addition or multiplication on the two operands: its payload and
sign are left open (R138; log entry 5). -/
opaque nanResult : F64 → F64 → F64

end Sys2Proof.Config
end

