-- ==== Sys2Proof/Syntax.lean ====
section
/-! DEFINITION. The commands of the JBTE as syntax (R2, R93): one constructor per row of
spec/opcode_table.json, with the fields the row uses (R90, R92). -/

namespace Sys2Proof

/-- MODE, bit 20 of a command word (R90): the DCT datapath. -/
inductive DctMode where
  /-- MODE = 0: the direct reference form. -/
  | ref
  /-- MODE = 1: the AAN-style butterfly. -/
  | fast
  deriving DecidableEq, Repr

/-- SRC, bit 21 of a command word (R90): the reader's source buffer. -/
inductive Src where
  /-- SRC = 0: RIN. -/
  | rin
  /-- SRC = 1: OUT. -/
  | out
  deriving DecidableEq, Repr

/-- A command (R93). `bank` is the two-bit BANK field, of which 3 is reserved (R96); `cnt` is the six-bit CNT
field, every value of which is well formed (R97). -/
inductive Instr where
  /-- NOP (R235). -/
  | nop
  /-- FDCT.REF and FDCT.FAST (R140). -/
  | fdct (mode : DctMode)
  /-- IDCT.REF and IDCT.FAST (R141). -/
  | idct (mode : DctMode)
  /-- HCLEAR t (R150). -/
  | hclear (bank : BitVec 2)
  /-- HBUILD t (R152). -/
  | hbuild (bank : BitVec 2)
  /-- HTABLE (R160). -/
  | htable
  /-- CATMAG (R170). -/
  | catmag
  /-- WRBITS n (R190). -/
  | wrbits (cnt : BitVec 6)
  /-- WFLUSH (R196). -/
  | wflush
  /-- WFINAL (R200). -/
  | wfinal
  /-- WRESET (R205). -/
  | wreset
  /-- RRESET.RIN and RRESET.OUT (R210). -/
  | rreset (src : Src)
  /-- RDBITS n (R211). -/
  | rdbits (cnt : BitVec 6)
  deriving DecidableEq, Repr

end Sys2Proof
end

