-- ==== Sys2Proof/WellFormed.lean ====
section
/-! DEFINITION. Which terms of `Instr` are commands of the JBTE: BANK names one of the NTAB = 3 banks (R96).
Every CNT, MODE and SRC is well formed (R97, R99). -/

namespace Sys2Proof

/-- BANK names one of the NTAB banks; BANK = 3 names none (R96). -/
def bankOk (bank : BitVec 2) : Bool := decide (bank.toNat < Config.ntab)

/-- The well-formedness check of a command. -/
def Instr.wellFormed : Instr → Bool
  | .nop => true
  | .fdct _ => true
  | .idct _ => true
  | .hclear bank => bankOk bank
  | .hbuild bank => bankOk bank
  | .htable => true
  | .catmag => true
  | .wrbits _ => true
  | .wflush => true
  | .wfinal => true
  | .wreset => true
  | .rreset _ => true
  | .rdbits _ => true

end Sys2Proof
end

