-- ==== Sys2Proof/Decode.lean ====
section
/-! DEFINITION. Decoding of command words (R90 to R98), total on every 32-bit word and rejecting by name, and
the encoder written from the same table (R93, R99). -/

namespace Sys2Proof

/-! ## Opcodes (R93) -/

namespace Op

def nop : Byte := 0x00#8
def fdct : Byte := 0x01#8
def idct : Byte := 0x02#8
def hclear : Byte := 0x10#8
def hbuild : Byte := 0x11#8
def htable : Byte := 0x12#8
def catmag : Byte := 0x13#8
def wrbits : Byte := 0x20#8
def wflush : Byte := 0x21#8
def wfinal : Byte := 0x22#8
def wreset : Byte := 0x23#8
def rreset : Byte := 0x30#8
def rdbits : Byte := 0x31#8

end Op

/-- The OP field of a command (R90, R93). -/
def Instr.op : Instr → Byte
  | .nop => Op.nop
  | .fdct _ => Op.fdct
  | .idct _ => Op.idct
  | .hclear _ => Op.hclear
  | .hbuild _ => Op.hbuild
  | .htable => Op.htable
  | .catmag => Op.catmag
  | .wrbits _ => Op.wrbits
  | .wflush => Op.wflush
  | .wfinal => Op.wfinal
  | .wreset => Op.wreset
  | .rreset _ => Op.rreset
  | .rdbits _ => Op.rdbits

/-! ## Fields of a command word (R90, R92) -/

/-- OP = w[7:0]. -/
def opField (w : Word) : Byte := w.extractLsb' 0 8
/-- CNT = w[13:8]. -/
def cntField (w : Word) : BitVec 6 := w.extractLsb' 8 6
/-- BANK = w[17:16]. -/
def bankField (w : Word) : BitVec 2 := w.extractLsb' 16 2
/-- MODE = w[20]: 0 is REF, 1 is FAST. -/
def modeField (w : Word) : DctMode := if w.extractLsb' 20 1 = 1#1 then .fast else .ref
/-- SRC = w[21]: 0 is RIN, 1 is OUT. -/
def srcField (w : Word) : Src := if w.extractLsb' 21 1 = 1#1 then .out else .rin

/-! ## The opcode table (R93) -/

/-- Which row of the opcode table. -/
inductive RowId where
  | nop | fdct | idct | hclear | hbuild | htable | catmag
  | wrbits | wflush | wfinal | wreset | rreset | rdbits
  deriving DecidableEq, Repr

/-- A row of the opcode table: a word `w` selects it when `w &&& mask = pattern` (R93). -/
structure Row where
  id : RowId
  pattern : Word
  mask : Word
  deriving DecidableEq, Repr

/-- The word selects the row (R93). -/
def Row.selects (r : Row) (w : Word) : Bool := w &&& r.mask == r.pattern

/-- The opcode table, row for row (R93). -/
def opcodeTable : List Row := [
  ⟨.nop,    0x00000000#32, 0xFFFFFFFF#32⟩,
  ⟨.fdct,   0x00000001#32, 0xFFEFFFFF#32⟩,
  ⟨.idct,   0x00000002#32, 0xFFEFFFFF#32⟩,
  ⟨.hclear, 0x00000010#32, 0xFFFCFFFF#32⟩,
  ⟨.hbuild, 0x00000011#32, 0xFFFCFFFF#32⟩,
  ⟨.htable, 0x00000012#32, 0xFFFFFFFF#32⟩,
  ⟨.catmag, 0x00000013#32, 0xFFFFFFFF#32⟩,
  ⟨.wrbits, 0x00000020#32, 0xFFFFC0FF#32⟩,
  ⟨.wflush, 0x00000021#32, 0xFFFFFFFF#32⟩,
  ⟨.wfinal, 0x00000022#32, 0xFFFFFFFF#32⟩,
  ⟨.wreset, 0x00000023#32, 0xFFFFFFFF#32⟩,
  ⟨.rreset, 0x00000030#32, 0xFFDFFFFF#32⟩,
  ⟨.rdbits, 0x00000031#32, 0xFFFFC0FF#32⟩]

/-- The command a word of the row stands for: the row's fields, pulled out of the word (R92). -/
def RowId.instr (r : RowId) (w : Word) : Instr :=
  match r with
  | .nop => .nop
  | .fdct => .fdct (modeField w)
  | .idct => .idct (modeField w)
  | .hclear => .hclear (bankField w)
  | .hbuild => .hbuild (bankField w)
  | .htable => .htable
  | .catmag => .catmag
  | .wrbits => .wrbits (cntField w)
  | .wflush => .wflush
  | .wfinal => .wfinal
  | .wreset => .wreset
  | .rreset => .rreset (srcField w)
  | .rdbits => .rdbits (cntField w)

/-! ## Decoding (R93 to R97) -/

/-- Why a word is no command. Executing the word raises IllegalCommand in each case (R241). -/
inductive DecodeReject where
  /-- OP is unassigned (R95). -/
  | unassignedOp
  /-- OP is assigned and a bit outside OP and the command's fields is 1 (R94). -/
  | unusedBitSet
  /-- BANK = 3 (R96). -/
  | reservedBank
  deriving DecidableEq, Repr

/-- OP is the OP of some row (R95). -/
def opAssigned (w : Word) : Bool := opcodeTable.any fun r => opField r.pattern == opField w

/-- Decoding of a command word, total on every word. -/
def decode (w : Word) : Except DecodeReject Instr :=
  match opcodeTable.find? (·.selects w) with
  | some r =>
    let i := r.id.instr w
    if i.wellFormed then .ok i else .error .reservedBank
  | none => if opAssigned w then .error .unusedBitSet else .error .unassignedOp

/-! ## Encoding (R90, R93, R99) -/

/-- MODE as a word, at bit 20. -/
def modeBits : DctMode → Word
  | .ref => 0#32
  | .fast => 1#32 <<< 20

/-- SRC as a word, at bit 21. -/
def srcBits : Src → Word
  | .rin => 0#32
  | .out => 1#32 <<< 21

/-- BANK as a word, at bits 17:16. -/
def bankBits (bank : BitVec 2) : Word := bank.setWidth 32 <<< 16

/-- CNT as a word, at bits 13:8. -/
def cntBits (cnt : BitVec 6) : Word := cnt.setWidth 32 <<< 8

/-- The operand fields of a command, each at its place (R90). -/
def Instr.fieldBits : Instr → Word
  | .nop => 0#32
  | .fdct mode => modeBits mode
  | .idct mode => modeBits mode
  | .hclear bank => bankBits bank
  | .hbuild bank => bankBits bank
  | .htable => 0#32
  | .catmag => 0#32
  | .wrbits cnt => cntBits cnt
  | .wflush => 0#32
  | .wfinal => 0#32
  | .wreset => 0#32
  | .rreset src => srcBits src
  | .rdbits cnt => cntBits cnt

/-- The command word of a command (R99). -/
def encode (i : Instr) : Word := i.op.setWidth 32 ||| i.fieldBits

/-! ## The host's reading of the table -/

/-- The command the decoder reads from an instruction of `nbits` bits whose bits are `w`, as
spec/opcode_table.json numbers them. A command is one 32-bit word (R91); the bits above `nbits` are 0. -/
def decodeTableWord (nbits w : Nat) : Option Instr :=
  let word := w % 2 ^ nbits
  if word < 2 ^ 32 then (decode (BitVec.ofNat 32 word)).toOption else none

end Sys2Proof
end

