-- ==== Sys2Proof/Machine/State.lean ====
section
/-! DEFINITION. The state of the JBTE as plain data (10_state.md), the model's faults and refusals, and the
state after hard reset (R51, R280). -/

namespace Sys2Proof.Machine

/-! ## Errors a command raises (R241) -/

/-- The errors of the JBTE. They are recorded in STATUS and are not faults of the model. Codes 8 to 15 are
never recorded (R241, U13), so they have no constructor. -/
inductive ErrCode where
  /-- Code 1. -/
  | illegalCommand
  /-- Code 2. -/
  | invalidBitCount
  /-- Code 3. -/
  | endOfStream
  /-- Code 4. -/
  | emptyAlphabet
  /-- Code 5. -/
  | noTree
  /-- Code 6. -/
  | bufferFull
  /-- Code 7. -/
  | codeTooLong
  deriving DecidableEq, Repr

/-- What an error records: its code and the OP field of the command word that raised it (R242). -/
structure ErrorRecord where
  code : ErrCode
  op : Byte
  deriving DecidableEq, Repr

/-! ## The tree store (R47) -/

/-- The Huffman tree of the source's data model (R18, R47). A leaf's id is its symbol; an internal node has an
id from 256 on and a 40-bit frequency. -/
inductive HuffTree where
  /-- Leaf `sym` with its LFREQ. -/
  | leaf (sym : Byte) (freq : BitVec 32)
  /-- The synthetic root of a single-symbol alphabet: RIGHT is NONE (R156). -/
  | single (id : Nat) (freq : BitVec 40) (left : HuffTree)
  /-- An internal node with two children. -/
  | node (id : Nat) (freq : BitVec 40) (left right : HuffTree)
  deriving DecidableEq, Repr

/-- The tree HBUILD left: TREE_BANK and the tree below ROOT. NLEAF is the number of its leaves (R35, R47). -/
structure BuiltTree where
  bank : BitVec 2
  root : HuffTree
  deriving DecidableEq, Repr

/-! ## Buffers (R38 to R45) -/

/-- The contents of the window's buffers: (window offset, byte) pairs in canonical form, offsets strictly
rising, no entry equal to what an unlisted offset reads as (`Memory.blank`). -/
abbrev Memory := List Host.Cell

/-! ## The host's side (R16) -/

/-- The width of a host access; only 32 bits is legal (R61). -/
inductive Width where
  | w8 | w16 | w32 | w64
  deriving DecidableEq, Repr

/-- What the host side does to the JBTE: bus accesses at an offset in the window (R12, R61), and the hard
reset of the platform (R280). The data of a write of another width than 32 bits are never looked at. -/
inductive HostEvent where
  | read (width : Width) (offset : BitVec 16)
  | write (width : Width) (offset : BitVec 16) (data : Word)
  | hardReset
  deriving DecidableEq, Repr

/-- The two agents (R16). -/
inductive Agent where
  | host | engine
  deriving DecidableEq, Repr

/-! ## Faults and refusals -/

/-- Why a run of the model stops. Neither is an error of the JBTE: STATUS does not change. -/
inductive Fault where
  /-- `UnwrittenRead` (R50): FDCT, IDCT or RDBITS reads a word or byte never written since hard reset, or an OUT
  byte at or above OUTLEN. Raised by the meanings of those three commands. Safe: the hardware goes on with an
  unspecified value (log entry 9). -/
  | unwrittenRead (command : Instr)
  /-- `BusError` (R61, R253): a host access that is not a 32-bit access at a multiple of 4. Raised by the bus.
  Safe: the hardware answers with an error and goes on unchanged (log entry 8). -/
  | busError (offset : BitVec 16)
  deriving DecidableEq, Repr

/-- Why the model gives an instruction no meaning. -/
inductive Refusal where
  /-- The instruction has no meaning in the model. No arm of `exec` answers it. Safe. -/
  | notModelled (mnemonic : String)
  deriving DecidableEq, Repr

end Sys2Proof.Machine

namespace Sys2Proof.Machine

/-- The whole state of the JBTE and of the host side that drives it. -/
structure State where
  /-- CTRL.IE_DONE (R22). -/
  ieDone : Bool
  /-- CTRL.IE_ERR (R22). -/
  ieErr : Bool
  /-- STATUS.DONE (R23). -/
  done : Bool
  /-- STATUS.ERR with ERRCODE and ERROP (R23): ERR is 1 exactly when there is a record. -/
  error : Option ErrorRecord
  /-- STATUS.DROPPED (R23). -/
  dropped : Bool
  /-- The CMD read-back value (R24). -/
  cmd : Word
  /-- OPA (R25). -/
  opa : Word
  /-- RES0 (R26). -/
  res0 : Word
  /-- RES1 (R27). -/
  res1 : Word
  /-- ACC, the pending bits of the writer, right-aligned (R28, R46). -/
  acc : BitVec 7
  /-- NB, the number of pending bits (R28, R46). -/
  nb : BitVec 3
  /-- RAWLEN, the number of complete bytes in RAW (R29). -/
  rawLen : Nat
  /-- OUTLEN, the number of bytes in OUT (R30). -/
  outLen : Nat
  /-- RINLEN, the number of valid bytes in RIN (R31). -/
  rinLen : Nat
  /-- RSRC, the reader's source (R32, R48). -/
  rsrc : Src
  /-- RLEN, the length of the reader's source stream (R34, R48). -/
  rlen : Nat
  /-- RP, the reader's byte index (R32, R48). -/
  rp : Nat
  /-- RB, the bits consumed of byte RP (R32, R48). -/
  rb : BitVec 3
  /-- The tree store (R47): TREE_VALID is 1 exactly when there is a tree. -/
  tree : Option BuiltTree
  /-- PENDING, the command word accepted and not yet performed; BUSY is 1 exactly when there is one (R49). -/
  pending : Option Word
  /-- DIN, QIN, DOUT, FREQ, LUT, RAW, OUT and RIN (R38 to R45), with their written-ness (R50). -/
  mem : Memory
  /-- The model's own: what the host side does next, first event first (log entry 6). -/
  host : List HostEvent
  /-- The model's own: which agent moves next where both may (R254; log entry 7). -/
  turns : List Agent
  /-- The model's own: the data the host's reads returned, newest first (log entry 6). -/
  readLog : List Word
  /-- The model's own: the number of the next draw of free values (log entry 2). -/
  draws : Nat
  deriving DecidableEq, Repr

/-- The state after hard reset (R51, R280): every register 0, FREQ 0 and LUT invalid, no tree, the other
buffers unwritten, nothing pending. The host side has nothing to do (log entries 2, 6 and 7). -/
def State.reset : State where
  ieDone := false
  ieErr := false
  done := false
  error := none
  dropped := false
  cmd := 0#32
  opa := 0#32
  res0 := 0#32
  res1 := 0#32
  acc := 0#7
  nb := 0#3
  rawLen := 0
  outLen := 0
  rinLen := 0
  rsrc := .rin
  rlen := 0
  rp := 0
  rb := 0#3
  tree := none
  pending := none
  mem := []
  host := []
  turns := []
  readLog := []
  draws := 0

end Sys2Proof.Machine
end

