-- ==== Sys2Proof/Machine/Memory.lean ====
section
/-! DEFINITION. The buffers of the window as one memory: what an unlisted byte reads as, and reading and
writing bytes, words and 64-bit entries (R62, R63, R70). -/

namespace Sys2Proof.Machine

/-- What an offset that memory does not list reads as. FREQ and LUT are 0 after reset; the bytes of every other
buffer have no value until they are written (R50, R51; log entry 10). -/
def Memory.blank (a : Nat) : Option Byte :=
  if (Config.freqBase ≤ a ∧ a < Config.freqBase + 0xC00) ∨ (Config.lutBase ≤ a ∧ a < Config.lutBase + 0x3000) then
    some 0#8
  else none

/-- One byte, if it has been written or reset gives it a value. -/
def Memory.read (m : Memory) (a : Nat) : Option Byte := (m.lookup a).or (Memory.blank a)

/-- The entries that list the bytes `bs` from offset `a` on, in canonical form. -/
def Memory.cells (a : Nat) : List Byte → Memory
  | [] => []
  | b :: bs => if Memory.blank a = some b then Memory.cells (a + 1) bs else (a, b) :: Memory.cells (a + 1) bs

/-- Write the bytes `bs` from offset `base` on: the one way memory is written. -/
def Memory.splice (m : Memory) (base : Nat) (bs : List Byte) : Memory :=
  m.filter (fun c => c.1 < base) ++ Memory.cells base bs ++ m.filter (fun c => base + bs.length ≤ c.1)

/-- Set every byte of a FREQ or LUT range back to its reset value. -/
def Memory.clear (m : Memory) (base size : Nat) : Memory :=
  m.filter fun c => c.1 < base ∨ base + size ≤ c.1

/-- The canonical form: offsets strictly rising, and no entry equal to what an unlisted offset reads as. -/
def Memory.wf (m : Memory) : Bool :=
  decide (m.Pairwise fun c d => c.1 < d.1) && m.all fun c => Memory.blank c.1 != some c.2

/-! ## Bytes, words and entries -/

/-- Four bytes as a word, the first at bits 7:0 (R62). -/
def wordOfBytes (b0 b1 b2 b3 : Byte) : Word := b3 ++ b2 ++ b1 ++ b0

/-- The bytes of a word, bits 7:0 first (R62). -/
def bytesOfWord (w : Word) : List Byte :=
  [w.extractLsb' 0 8, w.extractLsb' 8 8, w.extractLsb' 16 8, w.extractLsb' 24 8]

/-- The bytes of a 64-bit entry: the low word at the lower offset (R63). -/
def bytesOfF64 (x : F64) : List Byte :=
  bytesOfWord (x.extractLsb' 0 32) ++ bytesOfWord (x.extractLsb' 32 32)

/-- The 32-bit word at an offset, if all of it has a value (R62). -/
def Memory.readWord (m : Memory) (a : Nat) : Option Word :=
  match m.read a, m.read (a + 1), m.read (a + 2), m.read (a + 3) with
  | some b0, some b1, some b2, some b3 => some (wordOfBytes b0 b1 b2 b3)
  | _, _, _, _ => none

/-- The 64-bit entry at an offset, if both halves have a value (R63, R296). -/
def Memory.readF64 (m : Memory) (a : Nat) : Option F64 :=
  match m.readWord a, m.readWord (a + 4) with
  | some lo, some hi => some (hi ++ lo)
  | _, _ => none

/-- Write a 32-bit word (R62). -/
def Memory.writeWord (m : Memory) (a : Nat) (w : Word) : Memory := m.splice a (bytesOfWord w)

/-- `n` words from offset `a` on, if all of them have a value. -/
def Memory.readWords (m : Memory) (a : Nat) : Nat → Option (List Word)
  | 0 => some []
  | n + 1 =>
    match m.readWord a, m.readWords (a + 4) n with
    | some w, some ws => some (w :: ws)
    | _, _ => none

/-- `n` 64-bit entries from offset `a` on, if all of them have a value. -/
def Memory.readF64s (m : Memory) (a : Nat) : Nat → Option (List F64)
  | 0 => some []
  | n + 1 =>
    match m.readF64 a, m.readF64s (a + 8) n with
    | some x, some xs => some (x :: xs)
    | _, _ => none

end Sys2Proof.Machine
end

