-- ==== Sys2Proof/Machine/Flags.lean ====
section
/-! DEFINITION. The flags of the JBTE (R37) and the words the host reads from its registers (R20 to R35). -/

namespace Sys2Proof.Machine

/-- The number ERRCODE holds (R241). -/
def ErrCode.number : ErrCode → BitVec 4
  | .illegalCommand => 1#4
  | .invalidBitCount => 2#4
  | .endOfStream => 3#4
  | .emptyAlphabet => 4#4
  | .noTree => 5#4
  | .bufferFull => 6#4
  | .codeTooLong => 7#4

/-- A flag as one bit. -/
def bit (b : Bool) : BitVec 1 := BitVec.ofBool b

/-- STATUS.BUSY (R23, R49). -/
def State.busy (s : State) : Bool := s.pending.isSome

/-- STATUS.ERR (R23). -/
def State.errFlag (s : State) : Bool := s.error.isSome

/-- STATUS.ERRCODE: 0 while ERR = 0 (R23). -/
def State.errCode (s : State) : BitVec 4 :=
  match s.error with
  | none => 0#4
  | some r => r.code.number

/-- STATUS.ERROP: 0 while ERR = 0 (R23). -/
def State.errOp (s : State) : Byte :=
  match s.error with
  | none => 0#8
  | some r => r.op

/-- The level of the interrupt output (R250). -/
def State.irq (s : State) : Bool := (s.done && s.ieDone) || (s.errFlag && s.ieErr)

/-- CTRL as read: SRST and the reserved bits read 0 (R22). -/
def State.ctrlWord (s : State) : Word := 0#29 ++ bit s.ieErr ++ bit s.ieDone ++ 0#1

/-- STATUS as read (R23). -/
def State.statusWord (s : State) : Word :=
  bit s.irq ++ 0#7 ++ s.errOp ++ 0#4 ++ s.errCode ++ 0#4 ++ bit s.dropped ++ bit s.errFlag ++ bit s.done ++ bit s.busy

/-- WSTAT as read: NB in bits 3:0, ACC in bits 14:8, where bits at or above position NB read 0 (R28). -/
def State.wstatWord (s : State) : Word :=
  0#17 ++ BitVec.ofNat 7 (s.acc.toNat % 2 ^ s.nb.toNat) ++ 0#4 ++ 0#1 ++ s.nb

/-- SRC as one bit (R32, R90). -/
def srcBit : Src → BitVec 1
  | .rin => 0#1
  | .out => 1#1

/-- RPOS as read: RB in bits 2:0, RP in bits 16:3, RSRC in bit 31 (R32). -/
def State.rposWord (s : State) : Word := srcBit s.rsrc ++ 0#14 ++ BitVec.ofNat 14 s.rp ++ s.rb

/-- The number of leaves of a tree (R47 NLEAF). -/
def HuffTree.leafCount : HuffTree → Nat
  | .leaf _ _ => 1
  | .single _ _ l => l.leafCount
  | .node _ _ l r => l.leafCount + r.leafCount

/-- TREEINFO as read: TREE_VALID in bit 0, TREE_BANK in bits 2:1, NLEAF in bits 16:8 (R35). -/
def State.treeinfoWord (s : State) : Word :=
  match s.tree with
  | none => 0#32
  | some t => 0#15 ++ BitVec.ofNat 9 t.root.leafCount ++ 0#5 ++ t.bank ++ 1#1

end Sys2Proof.Machine
end

