-- ==== Sys2Proof/Machine/Operands.lean ====
section
/-! DEFINITION. Where commands find their operands (R92): the bits of OPA, the bit count, the banks, and the
entries of the buffers. -/

namespace Sys2Proof.Machine

/-! ## OPA and CNT -/

/-- The bits `OPA[n-1] … OPA[0]`, most significant first (R92, R190). -/
def opaBits (opa : Word) : Nat → List Bool
  | 0 => []
  | n + 1 => opa.getLsbD n :: opaBits opa n

/-- A bit count that WRBITS and RDBITS accept (R191). -/
def countOk (cnt : BitVec 6) : Bool := 1 ≤ cnt.toNat && cnt.toNat ≤ Config.maxBits

/-- OPA as a two's-complement integer (R25, R170). -/
def State.opaInt (s : State) : Int := s.opa.toInt

/-! ## Blocks -/

/-- DIN[0..63], if every word of it has been written (R38, R50). -/
def Memory.din (m : Memory) : Option (List F64) := m.readF64s Config.dinBase Config.nblk

/-- QIN[0..63], if every word of it has been written (R39, R50). -/
def Memory.qin (m : Memory) : Option (List Word) := m.readWords Config.qinBase Config.nblk

/-- Write DOUT[0..63] (R40). -/
def Memory.writeDout (m : Memory) (block : List F64) : Memory :=
  m.splice Config.doutBase (block.flatMap bytesOfF64)

/-! ## Frequency banks -/

/-- The offset of FREQ[t] (R41). -/
def freqBank (bank : BitVec 2) : Nat := Config.freqBase + 0x400 * bank.toNat

/-- FREQ[t][sym] (R41). -/
def Memory.freq (m : Memory) (bank : BitVec 2) (sym : Nat) : Word :=
  (m.readWord (freqBank bank + 4 * sym)).getD 0#32

/-! ## Code-table banks -/

/-- An entry of a LUT bank (R42). -/
structure LutEntry where
  code : BitVec 64
  len : BitVec 7
  valid : Bool
  deriving DecidableEq, Repr

/-- An entry without a code: VALID = 0, CODE = 0, LEN = 0 (R42). -/
def LutEntry.empty : LutEntry := ⟨0#64, 0#7, false⟩

/-- The LENV word of an entry (R42). -/
def LutEntry.lenv (e : LutEntry) : Word := bit e.valid ++ 0#24 ++ e.len

/-- The 16 bytes of an entry (R42). -/
def LutEntry.bytes (e : LutEntry) : List Byte :=
  bytesOfWord (e.code.extractLsb' 0 32) ++ bytesOfWord (e.code.extractLsb' 32 32) ++ bytesOfWord e.lenv
    ++ bytesOfWord 0#32

/-- The offset of LUT[t] (R42). -/
def lutBank (bank : BitVec 2) : Nat := Config.lutBase + 0x1000 * bank.toNat

/-- LUT[t][sym], as the host reads it (R42). -/
def Memory.lutEntry (m : Memory) (bank : BitVec 2) (sym : Nat) : LutEntry :=
  let a := lutBank bank + 16 * sym
  let lo := (m.readWord a).getD 0#32
  let hi := (m.readWord (a + 4)).getD 0#32
  let lenv := (m.readWord (a + 8)).getD 0#32
  ⟨hi ++ lo, lenv.extractLsb' 0 7, lenv.getLsbD 31⟩

/-- Write all 256 entries of LUT[t] at once (R160). -/
def Memory.writeLut (m : Memory) (bank : BitVec 2) (table : List LutEntry) : Memory :=
  m.splice (lutBank bank) (table.flatMap LutEntry.bytes)

/-! ## The reader's source -/

/-- SRCBUF[p]: a byte of RIN, or of OUT below OUTLEN; no value where R50 makes reading it `UnwrittenRead`. -/
def State.srcByte (s : State) (p : Nat) : Option Byte :=
  match s.rsrc with
  | .rin => if p < Config.rinCap then s.mem.read (Config.rinBase + p) else none
  | .out => if p < s.outLen ∧ p < Config.outCap then s.mem.read (Config.outBase + p) else none

end Sys2Proof.Machine
end

