-- ==== Sys2Proof/Machine/Ops.lean ====
section
/-! DEFINITION. The shared operations of the engine: completing a command, raising an error and clearing it
(the JBTE's exception entry and return, R243, R247), accepting a command word (R230), and the two resets
(R280, R282). -/

namespace Sys2Proof.Machine

/-- The answer of a meaning or a step. -/
abbrev Result := Host.Outcome State Fault Refusal

/-! ## Completion and errors -/

/-- A command completes: DONE is set, BUSY falls and PENDING is empty (R231, R232). -/
def complete (s : State) : State := { s with done := true, pending := none }

/-- A command raises an error: ERR, ERRCODE and ERROP are recorded, the command completes, and nothing else
changes (R231, R243). `op` is the OP field of its command word (R242). -/
def raise (e : ErrCode) (op : Byte) (s : State) : State := complete { s with error := some ⟨e, op⟩ }

/-- A host write to STATUS: each W1C bit with a 1 in the written value is cleared; clearing ERR clears ERRCODE
and ERROP (R23, R247). This is the return from an error (R248). -/
def writeStatus (v : Word) (s : State) : State :=
  { s with
    done := s.done && !v.getLsbD 1
    error := if v.getLsbD 2 then none else s.error
    dropped := s.dropped && !v.getLsbD 3 }

/-- Acceptance of a command word: dropped while ERR = 1 (R245), else pending (R230). -/
def acceptCommand (w : Word) (s : State) : State :=
  if s.errFlag then { s with cmd := w, dropped := true, done := true }
  else { s with cmd := w, pending := some w }

/-! ## Resets -/

/-- The state of the JBTE after hard reset (R51, R280). The host side, the read log and the draw counter are the
model's own and stay. -/
def hardReset (s : State) : State :=
  { State.reset with host := s.host, turns := s.turns, readLog := s.readLog, draws := s.draws }

/-- The bytes of a DOUT block of which every entry is a free value (R283; log entry 3). -/
def freeBlock (draw : Nat) : List Byte :=
  (List.range (8 * Config.nblk)).map fun j => Config.freeByte draw (Config.doutBase + j)

/-- The command that a soft reset abandons is an FDCT or an IDCT (R283). -/
def dctPending (pending : Option Word) : Bool :=
  match pending with
  | none => false
  | some w =>
    match decode w with
    | .ok (.fdct _) => true
    | .ok (.idct _) => true
    | _ => false

/-- The buffers after a soft reset: FREQ and LUT cleared, the others unchanged, but for the DOUT entries of an
FDCT or IDCT cut short, which are free (R51, R282, R283). -/
def softResetMem (s : State) : Memory :=
  let m := (s.mem.clear Config.freqBase 0xC00).clear Config.lutBase 0x3000
  if dctPending s.pending then m.splice Config.doutBase (freeBlock s.draws) else m

/-- Soft reset by a CTRL write of `v` (R22, R282). The draw counter advances, so that a draw is never used
twice. -/
def softReset (v : Word) (s : State) : State :=
  { State.reset with
    ieDone := v.getLsbD 1
    ieErr := v.getLsbD 2
    mem := softResetMem s
    host := s.host
    turns := s.turns
    readLog := s.readLog
    draws := s.draws + 1 }

/-- A host write to CTRL (R22). -/
def writeCtrl (v : Word) (s : State) : State :=
  if v.getLsbD 0 then softReset v s else { s with ieDone := v.getLsbD 1, ieErr := v.getLsbD 2 }

end Sys2Proof.Machine
end

