-- ==== Sys2Proof/Machine/Bus.lean ====
section
/-! DEFINITION. The host's accesses to the register window (20_memory.md): the address map, which accesses are
held while BUSY, and reading and writing one word. -/

namespace Sys2Proof.Machine

/-! ## The address map (R66) -/

/-- What stands at an offset of the window. -/
inductive Target where
  | id | version | ctrl | status | cmd | opa | res0 | res1 | wstat | rawlen | outlen | rinlen
  | rpos | rlen | treeinfo | din | qin | dout | freq | lut | raw | out | rin | reserved
  deriving DecidableEq, Repr

/-- A region of the window. -/
structure Region where
  base : Nat
  size : Nat
  target : Target
  deriving DecidableEq, Repr

/-- The address map; an offset in no region is reserved (R66). -/
def memoryMap : List Region := [
  ⟨0x0000, 4, .id⟩, ⟨0x0004, 4, .version⟩, ⟨0x0008, 4, .ctrl⟩, ⟨0x000C, 4, .status⟩,
  ⟨0x0010, 4, .cmd⟩, ⟨0x0014, 4, .opa⟩, ⟨0x0018, 4, .res0⟩, ⟨0x001C, 4, .res1⟩,
  ⟨0x0020, 4, .wstat⟩, ⟨0x0024, 4, .rawlen⟩, ⟨0x0028, 4, .outlen⟩, ⟨0x002C, 4, .rinlen⟩,
  ⟨0x0030, 4, .rpos⟩, ⟨0x0034, 4, .rlen⟩, ⟨0x0038, 4, .treeinfo⟩,
  ⟨Config.dinBase, 512, .din⟩, ⟨Config.qinBase, 256, .qin⟩, ⟨Config.doutBase, 512, .dout⟩,
  ⟨Config.freqBase, 3072, .freq⟩, ⟨Config.lutBase, 12288, .lut⟩, ⟨Config.rawBase, 4096, .raw⟩,
  ⟨Config.outBase, 8192, .out⟩, ⟨Config.rinBase, 8192, .rin⟩]

/-- What stands at an offset (R66, R67). -/
def targetOf (off : Nat) : Target :=
  match memoryMap.find? fun r => r.base ≤ off && off < r.base + r.size with
  | some r => r.target
  | none => .reserved

/-- The offset in the window of a byte address on the host bus, where the window holds it (R60). -/
def windowOffset (addr : Nat) : Option (BitVec 16) :=
  if Config.base ≤ addr ∧ addr < Config.base + Config.window then some (BitVec.ofNat 16 (addr - Config.base))
  else none

/-- An access at this target, a write or a read, waits while BUSY = 1: every one but reads of ID and VERSION and
accesses to CTRL and STATUS (R65, R231). Accesses to reserved offsets wait too (DEDUCED: R231, D41 and U15 against
R67; log entry 12). -/
def Target.held (write : Bool) : Target → Bool
  | .id => write
  | .version => write
  | .ctrl => false
  | .status => false
  | _ => true

/-- The access has a legal form: 32 bits at a multiple of 4 (R61). -/
def legalAccess (width : Width) (off : BitVec 16) : Bool := width = .w32 && off.toNat % 4 = 0

/-- The event waits while BUSY = 1: every access to a held target does, whatever its width and alignment (R65; log
entry 11). -/
def HostEvent.held : HostEvent → Bool
  | .read _ off => (targetOf off.toNat).held false
  | .write _ off _ => (targetOf off.toNat).held true
  | .hardReset => false

/-! ## Reads -/

/-- The byte of a buffer that a host read finds; unspecified where it was never written, in RAW at or above
RAWLEN, and in OUT at or above OUTLEN (R43, R44, U1a, U2; log entry 2). -/
def State.visibleByte (s : State) (a : Nat) : Byte :=
  let free := Config.freeByte s.draws a
  match targetOf a with
  | .raw => if a - Config.rawBase < s.rawLen then (s.mem.read a).getD free else free
  | .out => if a - Config.outBase < s.outLen then (s.mem.read a).getD free else free
  | _ => (s.mem.read a).getD free

/-- A word of a buffer as a host read finds it (R62). -/
def State.bufferWord (s : State) (a : Nat) : Word :=
  wordOfBytes (s.visibleByte a) (s.visibleByte (a + 1)) (s.visibleByte (a + 2)) (s.visibleByte (a + 3))

/-- The bits of a LUT word that are not reserved (R42, R67). -/
def lutMask (a : Nat) : Word :=
  if a % 16 < 8 then 0xFFFFFFFF#32
  else if a % 16 < 12 then 0x8000007F#32
  else 0#32

/-- The word a legal host read at an offset returns (R20 to R45, R66 to R68). -/
def State.busRead (s : State) (off : Nat) : Word :=
  match targetOf off with
  | .id => Config.idWord
  | .version => Config.versionWord
  | .ctrl => s.ctrlWord
  | .status => s.statusWord
  | .cmd => s.cmd
  | .opa => s.opa
  | .res0 => s.res0
  | .res1 => s.res1
  | .wstat => s.wstatWord
  | .rawlen => BitVec.ofNat 32 s.rawLen
  | .outlen => BitVec.ofNat 32 s.outLen
  | .rinlen => BitVec.ofNat 32 s.rinLen
  | .rpos => s.rposWord
  | .rlen => BitVec.ofNat 32 s.rlen
  | .treeinfo => s.treeinfoWord
  | .lut => s.bufferWord off &&& lutMask off
  | .din => s.bufferWord off
  | .qin => s.bufferWord off
  | .dout => s.bufferWord off
  | .freq => s.bufferWord off
  | .raw => s.bufferWord off
  | .out => s.bufferWord off
  | .rin => s.bufferWord off
  | .reserved => 0#32

/-! ## Writes -/

/-- The effect of a legal host write at an offset; read-only and reserved targets ignore it (R66 to R68). -/
def State.busWrite (s : State) (off : Nat) (v : Word) : State :=
  match targetOf off with
  | .ctrl => writeCtrl v s
  | .status => writeStatus v s
  | .cmd => acceptCommand v s
  | .opa => { s with opa := v }
  | .rinlen => { s with rinLen := min v.toNat Config.rinCap }
  | .din => { s with mem := s.mem.writeWord off v }
  | .qin => { s with mem := s.mem.writeWord off v }
  | .freq => { s with mem := s.mem.writeWord off v }
  | .rin => { s with mem := s.mem.writeWord off v }
  | .id => s
  | .version => s
  | .res0 => s
  | .res1 => s
  | .wstat => s
  | .rawlen => s
  | .outlen => s
  | .rpos => s
  | .rlen => s
  | .treeinfo => s
  | .dout => s
  | .lut => s
  | .raw => s
  | .out => s
  | .reserved => s

/-! ## Events -/

/-- One move of the host side (R60, R61, R280). A read leaves its data in the read log and uses up one draw. -/
def hostEvent (e : HostEvent) (s : State) : Result :=
  match e with
  | .read width off =>
    if legalAccess width off then
      .next { s with readLog := s.busRead off.toNat :: s.readLog, draws := s.draws + 1 }
    else .fault (.busError off)
  | .write width off v => if legalAccess width off then .next (s.busWrite off.toNat v) else .fault (.busError off)
  | .hardReset => .next (hardReset s)

end Sys2Proof.Machine
end

