-- ==== Sys2Proof/Machine/Bitstream.lean ====
section
/-! DEFINITION. The bitstream writer with byte stuffing and the de-stuffing reader (42_bitstream.md): the
meanings of WRBITS, WFLUSH, WFINAL, WRESET, RRESET and RDBITS. -/

namespace Sys2Proof.Machine

/-! ## The writer (R190 to R206) -/

/-- Append a complete byte to RAW; the partial byte is empty after it (R190, R196). -/
def appendRaw (b : Byte) (s : State) : State :=
  { s with
    mem := s.mem.splice (Config.rawBase + s.rawLen) [b]
    rawLen := s.rawLen + 1
    acc := 0#7
    nb := 0#3 }

/-- Append one bit to the stream: one round of the loop of R190. -/
def pushBit (s : State) (b : Bool) : State :=
  let acc' : Byte := s.acc ++ bit b
  if s.nb = 7#3 then appendRaw acc' s
  else { s with acc := acc'.setWidth 7, nb := s.nb + 1#3 }

/-- Append bits to the stream, first bit first. -/
def pushBits (s : State) (bits : List Bool) : State := bits.foldl pushBit s

/-- The pending bits padded with zero bits on the right to a byte (R196, R197). -/
def paddedByte (s : State) : Byte := s.acc.setWidth 8 <<< (8 - s.nb.toNat)

/-- The flush of R196 finds a partial byte and RAW full. -/
def flushBlocked (s : State) : Bool := s.nb != 0#3 && Config.rawCap < s.rawLen + 1

/-- The flush of R196, where it is not blocked. -/
def flush (s : State) : State := if s.nb = 0#3 then s else appendRaw (paddedByte s) s

/-- Byte stuffing: one 0x00 after every 0xFF (R202). -/
def stuff : List Byte → List Byte
  | [] => []
  | b :: bs => if b = 0xFF#8 then b :: 0x00#8 :: stuff bs else b :: stuff bs

/-- RAW[k]. A byte below RAWLEN that was never written, which no run reaches, is a free value (log entry 14). -/
def State.rawByte (s : State) (k : Nat) : Byte :=
  (s.mem.read (Config.rawBase + k)).getD (Config.freeByte s.draws (Config.rawBase + k))

/-- RAW[0..RAWLEN-1] (R202). -/
def State.rawBytes (s : State) : List Byte := (List.range s.rawLen).map s.rawByte

/-- Stuff RAW into OUT and set OUTLEN (R200, R202). -/
def stuffOut (s : State) : State :=
  let out := stuff s.rawBytes
  { s with mem := s.mem.splice Config.outBase out, outLen := out.length }

/-- WRBITS n (R190, R191, R192). -/
def execWrbits (cnt : BitVec 6) (s : State) : Result :=
  if !countOk cnt then .next (raise .invalidBitCount Op.wrbits s)
  else if Config.rawCap < s.rawLen + (s.nb.toNat + cnt.toNat) / 8 then .next (raise .bufferFull Op.wrbits s)
  else .next (complete (pushBits s (opaBits s.opa cnt.toNat)))

/-- WFLUSH (R196). -/
def execWflush (s : State) : Result :=
  if flushBlocked s then .next (raise .bufferFull Op.wflush s)
  else .next (complete (flush s))

/-- WFINAL (R200). -/
def execWfinal (s : State) : Result :=
  if flushBlocked s then .next (raise .bufferFull Op.wfinal s)
  else .next (complete (stuffOut (flush s)))

/-- WRESET (R205). -/
def execWreset (s : State) : Result :=
  .next (complete { s with acc := 0#7, nb := 0#3, rawLen := 0, outLen := 0 })

/-! ## The reader (R210 to R217) -/

/-- Why the loop of R211 stops early. -/
inductive ReadStop where
  /-- The stream has too few bits left (R213). -/
  | endOfStream
  /-- The byte has no value: the model fault `UnwrittenRead` (R50). -/
  | unwritten
  deriving DecidableEq, Repr

/-- Where the reader stands after it has finished the byte `b` at `p`: past the stuffed 0x00 after a 0xFF, else
at the next byte (R211, R212). The following byte is looked at only where `b` is 0xFF and it lies within RLEN. -/
def nextPos (s : State) (b : Byte) (p : Nat) : Except ReadStop Nat :=
  if b = 0xFF#8 ∧ p + 1 < s.rlen then
    match s.srcByte (p + 1) with
    | none => .error .unwritten
    | some b' => if b' = 0x00#8 then .ok (p + 2) else .ok (p + 1)
  else .ok (p + 1)

/-- The loop of R211 with its working copies: `n` more bits from byte `p`, of which `b` bits are consumed, onto
`val`. Answers the position after them and the bits read. -/
def readLoop (s : State) : Nat → Nat → BitVec 3 → Word → Except ReadStop (Nat × BitVec 3 × Word)
  | 0, p, b, val => .ok (p, b, val)
  | n + 1, p, b, val =>
    if s.rlen ≤ p then .error .endOfStream
    else
      match s.srcByte p with
      | none => .error .unwritten
      | some byte =>
        let val' : Word := val <<< 1 ||| (bit (byte.getLsbD (7 - b.toNat))).setWidth 32
        if b = 7#3 then
          match nextPos s byte p with
          | .error e => .error e
          | .ok p' => readLoop s n p' 0#3 val'
        else readLoop s n p (b + 1#3) val'

/-- RRESET src (R210). -/
def execRreset (src : Src) (s : State) : Result :=
  let len := match src with
    | .rin => s.rinLen
    | .out => s.outLen
  .next (complete { s with rsrc := src, rlen := len, rp := 0, rb := 0#3 })

/-- RDBITS n (R191, R211). -/
def execRdbits (cnt : BitVec 6) (s : State) : Result :=
  if !countOk cnt then .next (raise .invalidBitCount Op.rdbits s)
  else
    match readLoop s cnt.toNat s.rp s.rb 0#32 with
    | .error .endOfStream => .next (raise .endOfStream Op.rdbits s)
    | .error .unwritten => .fault (.unwrittenRead (.rdbits cnt))
    | .ok (p, b, val) => .next (complete { s with rp := p, rb := b, res0 := val })

end Sys2Proof.Machine
end

