-- ==== Sys2Proof/Machine/Float64.lean ====
section
/-! DEFINITION. IEEE 754 binary64 arithmetic on encodings, rounded to nearest with ties to even (R11, R138):
the operations `+.`, `-.` and `*.` of the DCT datapaths, by exact integer arithmetic and one rounding. -/

namespace Sys2Proof.Binary64

/-- The sign bit. -/
def sign (x : F64) : Bool := x.getLsbD 63

/-- The biased exponent field. -/
def expField (x : F64) : Nat := x.toNat / 2 ^ 52 % 2048

/-- The fraction field. -/
def fraction (x : F64) : Nat := x.toNat % 2 ^ 52

/-- A number: neither an infinity nor a NaN. -/
def isFinite (x : F64) : Bool := expField x != 2047

/-- A NaN. -/
def isNaN (x : F64) : Bool := expField x == 2047 && fraction x != 0

/-- An infinity. -/
def isInf (x : F64) : Bool := expField x == 2047 && fraction x == 0

/-- +0.0 or −0.0. -/
def isZero (x : F64) : Bool := expField x == 0 && fraction x == 0

/-- The significand of a finite `x`: its magnitude is `mant x * 2 ^ scale x * 2 ^ (-1074)`. -/
def mant (x : F64) : Nat := if expField x = 0 then fraction x else fraction x + 2 ^ 52

/-- The scale of a finite `x`, counted from the least subnormal. -/
def scale (x : F64) : Nat := expField x - 1

/-- The significand with its sign. -/
def signedMant (x : F64) : Int := if sign x then -(mant x : Int) else (mant x : Int)

/-- The encoding with a given sign and the low 63 bits `magnitude`. -/
def pack (negative : Bool) (magnitude : Nat) : F64 :=
  BitVec.ofNat 64 ((if negative then 2 ^ 63 else 0) + magnitude)

/-- The low 63 bits of an infinity. -/
def infBits : Nat := 2047 * 2 ^ 52

/-- `m / 2 ^ k` rounded to the nearest integer, a tie to the even one (R138). -/
def roundShift (m k : Nat) : Nat :=
  let q := m / 2 ^ k
  let r := m % 2 ^ k
  if 2 * r < 2 ^ k then q
  else if 2 * r = 2 ^ k then q + q % 2
  else q + 1

/-- The scale of the binary64 numbers around `m * 2 ^ k * 2 ^ (-2148)`, for `m > 0`: 52 below the leading bit,
and never below the least subnormal. -/
def roundScale (m k : Nat) : Nat := Nat.log2 m + k - 52 - 1074

/-- The low 63 bits of the binary64 number nearest to `m * 2 ^ k * 2 ^ (-2148)`; an infinity's on overflow. -/
def roundMag (m k : Nat) : Nat :=
  let sc := roundScale m k
  let sig := if sc + 1074 ≤ k then m * 2 ^ (k - (sc + 1074)) else roundShift m (sc + 1074 - k)
  if m = 0 then 0
  else min (sc * 2 ^ 52 + sig) infBits

/-- −x: the sign bit flipped. -/
def neg (x : F64) : F64 := x ^^^ (1#64 <<< 63)

/-- `a *. b` (R11). -/
def mul (a b : F64) : F64 :=
  let s := sign a != sign b
  if isNaN a || isNaN b then Config.nanResult a b
  else if isInf a then (if isZero b then Config.nanResult a b else pack s infBits)
  else if isInf b then (if isZero a then Config.nanResult a b else pack s infBits)
  else pack s (roundMag (mant a * mant b) (scale a + scale b))

/-- The exact sum of two finite values, in units of `2 ^ min (scale a) (scale b)` least subnormals. -/
def exactSum (a b : F64) : Int :=
  let k := min (scale a) (scale b)
  signedMant a * 2 ^ (scale a - k) + signedMant b * 2 ^ (scale b - k)

/-- `a +. b` (R11). An exact zero sum of a negative zero and a negative zero is −0.0; every other one is +0.0. -/
def add (a b : F64) : F64 :=
  if isNaN a || isNaN b then Config.nanResult a b
  else if isInf a then (if isInf b && sign a != sign b then Config.nanResult a b else a)
  else if isInf b then b
  else
    let t := exactSum a b
    if t = 0 then pack (sign a && sign b) 0
    else pack (decide (t < 0)) (roundMag t.natAbs (min (scale a) (scale b) + 1074))

/-- `a -. b` (R11). -/
def sub (a b : F64) : F64 := add a (neg b)

/-- +0.0. -/
def zero : F64 := 0#64

/-- A 32-bit two's-complement integer as a binary64 value: exact, since every one is representable (R124). -/
def ofInt32 (q : Word) : F64 := pack (decide (q.toInt < 0)) (roundMag q.toInt.natAbs 2148)

/-- The entry is finite and of magnitude at most `2 ^ 1000` (R126). -/
def covered (x : F64) : Bool := x.toNat % 2 ^ 63 ≤ (1000 + 1023) * 2 ^ 52

end Sys2Proof.Binary64
end

