-- ==== Sys2Proof/Machine/Dct.lean ====
section
/-! DEFINITION. The DCT engine (40_dct.md): the ROM (R131), the bit-exact datapaths (R132 to R137), the four
functions of R125, and the meanings of FDCT and IDCT. -/

namespace Sys2Proof.Machine

open Binary64 (add sub mul neg)

/-! ## ROM constants (R131) -/

/-- COSK[a], for a = 0..7. -/
def cosk : Nat → F64
  | 0 => 0x3FF0000000000000#64
  | 1 => 0x3FEF6297CFF75CB0#64
  | 2 => 0x3FED906BCF328D46#64
  | 3 => 0x3FEA9B66290EA1A3#64
  | 4 => 0x3FE6A09E667F3BCD#64
  | 5 => 0x3FE1C73B39AE68C8#64
  | 6 => 0x3FD87DE2A6AEA963#64
  | _ => 0x3FC8F8B83C69A60B#64

/-- H[k], for k = 0..7. -/
def romH : Nat → F64
  | 0 => 0x3FD6A09E667F3BCD#64
  | _ => 0x3FE0000000000000#64

def romA1 : F64 := 0x3FE6A09E667F3BCD#64
def romA2 : F64 := 0x3FE1517A7BDB3895#64
def romA3 : F64 := 0x3FD87DE2A6AEA963#64
def romA4 : F64 := 0x3FF4E7AE9144F0FC#64
def romB1 : F64 := 0x3FF6A09E667F3BCD#64
def romB2 : F64 := 0x3FFD906BCF328D46#64
def romB3 : F64 := 0x3FF1517A7BDB3895#64
def romB4 : F64 := 0x4004E7AE9144F0FC#64

/-- DSC[k], for k = 0..7. -/
def romDSC : Nat → F64
  | 0 => 0x3FD6A09E667F3BCD#64
  | 1 => 0x3FD0503ED17CBA53#64
  | 2 => 0x3FD1517A7BDB3895#64
  | 3 => 0x3FD33E37A1E0173E#64
  | 4 => 0x3FD6A09E667F3BCD#64
  | 5 => 0x3FDCCC9AEFB18D58#64
  | 6 => 0x3FE4E7AE9144F0FC#64
  | _ => 0x3FF480D9D073B428#64

/-- PSC[k], for k = 0..7. -/
def romPSC : Nat → F64
  | 0 => 0x3FD6A09E667F3BCD#64
  | 1 => 0x3FDF6297CFF75CB0#64
  | 2 => 0x3FDD906BCF328D46#64
  | 3 => 0x3FDA9B66290EA1A3#64
  | 4 => 0x3FD6A09E667F3BCD#64
  | 5 => 0x3FD1C73B39AE68C8#64
  | 6 => 0x3FC87DE2A6AEA963#64
  | _ => 0x3FB8F8B83C69A60B#64

/-- COS(x, u), for x, u in 0..7 (R132); a = 8 and a = 24 do not occur. -/
def cosLookup (x u : Nat) : F64 :=
  let a := (2 * x + 1) * u % 32
  if a ≤ 7 then cosk a
  else if a ≤ 16 then neg (cosk (16 - a))
  else if a ≤ 23 then neg (cosk (a - 16))
  else cosk (32 - a)

/-! ## Blocks (R13) -/

/-- Entry `k` of a block of 64 entries. -/
def entry (f : List F64) (k : Nat) : F64 := f.getD k Binary64.zero

/-- The block with entry `g r c` at row r, column c (R13). -/
def blockOf (g : Nat → Nat → F64) : List F64 := (List.range 64).map fun k => g (k / 8) (k % 8)

/-- `acc +. t 0 +. t 1 … +. t (n-1)`, summed from the left. -/
def sumFrom (t : Nat → F64) (acc : F64) : Nat → F64
  | 0 => acc
  | n + 1 => add (sumFrom t acc n) (t n)

/-- The double sum over an outer and an inner index in 0..7, from +0.0, the inner index running first
(R133, R134). -/
def doubleSum (t : Nat → Nat → F64) : F64 :=
  sumFrom (fun k => t (k / 8) (k % 8)) Binary64.zero 64

/-! ## The REF datapaths -/

/-- `fdct_ref` (R133). -/
def fdctRefBits (f : List F64) : List F64 :=
  blockOf fun u v =>
    mul (mul (doubleSum fun x y => mul (mul (entry f (8 * x + y)) (cosLookup x u)) (cosLookup y v)) (romH u)) (romH v)

/-- `idct_ref` on the converted integers (R134). -/
def idctRefBits (q : List F64) : List F64 :=
  blockOf fun x y =>
    doubleSum fun u v =>
      mul (mul (mul (mul (entry q (8 * u + v)) (romH u)) (romH v)) (cosLookup x u)) (cosLookup y v)

/-! ## The FAST datapaths -/

/-- Eight values: the input or output of a 1-D butterfly. -/
structure Vec8 where
  v0 : F64
  v1 : F64
  v2 : F64
  v3 : F64
  v4 : F64
  v5 : F64
  v6 : F64
  v7 : F64
  deriving DecidableEq, Repr

/-- The forward butterfly FWD8 (R135). -/
def fwd8 (d : Vec8) : Vec8 :=
  let t0 := add d.v0 d.v7
  let t7 := sub d.v0 d.v7
  let t1 := add d.v1 d.v6
  let t6 := sub d.v1 d.v6
  let t2 := add d.v2 d.v5
  let t5 := sub d.v2 d.v5
  let t3 := add d.v3 d.v4
  let t4 := sub d.v3 d.v4
  let e10 := add t0 t3
  let e13 := sub t0 t3
  let e11 := add t1 t2
  let e12 := sub t1 t2
  let z1 := mul (add e12 e13) romA1
  let p10 := add t4 t5
  let p11 := add t5 t6
  let p12 := add t6 t7
  let z5 := mul (sub p10 p12) romA3
  let z2 := add (mul romA2 p10) z5
  let z4 := add (mul romA4 p12) z5
  let z3 := mul p11 romA1
  let z11 := add t7 z3
  let z13 := sub t7 z3
  { v0 := add e10 e11
    v1 := add z11 z4
    v2 := add e13 z1
    v3 := sub z13 z2
    v4 := sub e10 e11
    v5 := add z13 z2
    v6 := sub e13 z1
    v7 := sub z11 z4 }

/-- The inverse butterfly INV8 (R136). -/
def inv8 (i : Vec8) : Vec8 :=
  let b10 := add i.v0 i.v4
  let b11 := sub i.v0 i.v4
  let b13 := add i.v2 i.v6
  let b12 := sub (mul (sub i.v2 i.v6) romB1) b13
  let c0 := add b10 b13
  let c3 := sub b10 b13
  let c1 := add b11 b12
  let c2 := sub b11 b12
  let z13 := add i.v5 i.v3
  let z10 := sub i.v5 i.v3
  let z11 := add i.v1 i.v7
  let z12 := sub i.v1 i.v7
  let c7 := add z11 z13
  let q11 := mul (sub z11 z13) romB1
  let z5 := mul (add z10 z12) romB2
  let q10 := sub (mul romB3 z12) z5
  let q12 := sub z5 (mul romB4 z10)
  let c6 := sub q12 c7
  let c5 := sub q11 c6
  let c4 := add q10 c5
  { v0 := add c0 c7
    v1 := add c1 c6
    v2 := add c2 c5
    v3 := sub c3 c4
    v4 := add c3 c4
    v5 := sub c2 c5
    v6 := sub c1 c6
    v7 := sub c0 c7 }

/-- The eight entries as a list, in output order. -/
def Vec8.toList (v : Vec8) : List F64 := [v.v0, v.v1, v.v2, v.v3, v.v4, v.v5, v.v6, v.v7]

/-- Eight entries of a block: `a, a+step, …, a+7·step`. -/
def vecAt (w : List F64) (a step : Nat) : Vec8 :=
  { v0 := entry w a
    v1 := entry w (a + step)
    v2 := entry w (a + 2 * step)
    v3 := entry w (a + 3 * step)
    v4 := entry w (a + 4 * step)
    v5 := entry w (a + 5 * step)
    v6 := entry w (a + 6 * step)
    v7 := entry w (a + 7 * step) }

/-- A row pass: a 1-D butterfly on entries 8r..8r+7 for each r (R137). -/
def rowPass (butterfly : Vec8 → Vec8) (w : List F64) : List F64 :=
  (List.range 8).flatMap fun r => (butterfly (vecAt w (8 * r) 1)).toList

/-- The block with rows and columns exchanged. -/
def transpose (w : List F64) : List F64 := blockOf fun r c => entry w (8 * c + r)

/-- A column pass: a 1-D butterfly on entries c, 8+c, …, 56+c for each c (R137). -/
def colPass (butterfly : Vec8 → Vec8) (w : List F64) : List F64 :=
  transpose ((List.range 8).flatMap fun c => (butterfly (vecAt w c 8)).toList)

/-- `fdct_fast` (R137). -/
def fdctFastBits (f : List F64) : List F64 :=
  let w := colPass fwd8 (rowPass fwd8 f)
  blockOf fun u v => mul (mul (entry w (8 * u + v)) (romDSC u)) (romDSC v)

/-- `idct_fast` on the converted integers (R137). -/
def idctFastBits (q : List F64) : List F64 :=
  colPass inv8 (rowPass inv8 (blockOf fun u v => mul (mul (entry q (8 * u + v)) (romPSC u)) (romPSC v)))

/-! ## The four functions of R125 -/

/-- A block of unconstrained values: what R129 gives an input that R126 does not cover (log entry 4). -/
def freeResult (free : List F64 → Nat → F64) (f : List F64) : List F64 := (List.range 64).map (free f)

/-- `fdct_m` (R125): the datapath on every input that R126 covers, and an unconstrained function of the input on
every other (R129, R130). -/
def fdct (mode : DctMode) (f : List F64) : List F64 :=
  match mode with
  | .ref => if f.all Binary64.covered then fdctRefBits f else freeResult Config.fdctRefFree f
  | .fast => if f.all Binary64.covered then fdctFastBits f else freeResult Config.fdctFastFree f

/-- `idct_m` (R125) on the 64 integers of QIN, each converted exactly (R124, R141); they are always covered
(R129). -/
def idct (mode : DctMode) (q : List Word) : List F64 :=
  match mode with
  | .ref => idctRefBits (q.map Binary64.ofInt32)
  | .fast => idctFastBits (q.map Binary64.ofInt32)

/-! ## Commands -/

/-- FDCT (R140). -/
def execFdct (mode : DctMode) (s : State) : Result :=
  match s.mem.din with
  | none => .fault (.unwrittenRead (.fdct mode))
  | some f => .next (complete { s with mem := s.mem.writeDout (fdct mode f) })

/-- IDCT (R141). -/
def execIdct (mode : DctMode) (s : State) : Result :=
  match s.mem.qin with
  | none => .fault (.unwrittenRead (.idct mode))
  | some q => .next (complete { s with mem := s.mem.writeDout (idct mode q) })

end Sys2Proof.Machine
end

