-- ==== Sys2Proof/Machine/Huffman.lean ====
section
/-! DEFINITION. The Huffman unit (41_huffman.md): the tree builder, the code-table walk and the category
helper, with the meanings of HCLEAR, HBUILD, HTABLE and CATMAG. -/

namespace Sys2Proof.Machine

/-! ## The alphabet (R151) -/

/-- S(t): the symbols with a count other than 0, in ascending order. -/
def Memory.alphabet (m : Memory) (bank : BitVec 2) : List Nat :=
  (List.range Config.nsym).filter fun sym => m.freq bank sym != 0#32

/-! ## Building the tree (R152 to R157) -/

/-- A pair of the queue Q with the subtree its id names: key, id and tree (R152). -/
structure QItem where
  key : BitVec 40
  id : Nat
  tree : HuffTree
  deriving DecidableEq, Repr

/-- The order of the queue: by frequency, then by id (R153). -/
def QItem.before (a b : QItem) : Bool := a.key < b.key || (a.key == b.key && a.id < b.id)

/-- Insert a pair into a queue that is kept in order. -/
def enqueue (x : QItem) : List QItem → List QItem
  | [] => [x]
  | y :: ys => if x.before y then x :: y :: ys else y :: enqueue x ys

/-- The pair of leaf `sym` (R152). -/
def leafItem (m : Memory) (bank : BitVec 2) (sym : Nat) : QItem :=
  let f := m.freq bank sym
  ⟨f.setWidth 40, sym, .leaf (BitVec.ofNat 8 sym) f⟩

/-- The queue of an alphabet (R152). -/
def leafQueue (m : Memory) (bank : BitVec 2) (alphabet : List Nat) : List QItem :=
  alphabet.foldr (fun sym q => enqueue (leafItem m bank sym) q) []

/-- The merge of the two least pairs: the first popped is the left child (R154, R155). -/
def merged (id : Nat) (a b : QItem) : QItem := ⟨a.key + b.key, id, .node id (a.key + b.key) a.tree b.tree⟩

/-- Merge the two least pairs until one is left; `id` is the next internal id, `x` the least pair (R154). The
first argument bounds the number of merges. -/
def mergeAll : Nat → Nat → QItem → List QItem → HuffTree
  | 0, _, x, _ => x.tree
  | _ + 1, _, x, [] => x.tree
  | n + 1, id, x, y :: rest =>
    match enqueue (merged id x y) rest with
    | [] => (merged id x y).tree
    | z :: zs => mergeAll n (id + 1) z zs

/-- The tree of a queue: no tree for an empty one, the synthetic root for a single pair (R156), else merging
(R154). -/
def treeOfQueue : List QItem → Option HuffTree
  | [] => none
  | [x] => some (.single 256 x.key x.tree)
  | x :: y :: rest => some (mergeAll (rest.length + 1) 256 x (y :: rest))

/-- The tree of bank t (R152): none for an empty alphabet. -/
def buildTree (m : Memory) (bank : BitVec 2) : Option HuffTree :=
  treeOfQueue (leafQueue m bank (m.alphabet bank))

/-! ## The code table (R160, R161) -/

/-- `visit(n, code, len)` of R160 on the table `table`. -/
def walk : HuffTree → BitVec 64 → Nat → List LutEntry → Except ErrCode (List LutEntry)
  | .leaf sym _, code, len, table =>
    if Config.maxCodeLen < len then .error .codeTooLong
    else .ok (table.set sym.toNat ⟨code, BitVec.ofNat 7 len, true⟩)
  | .single _ _ l, code, len, table => walk l (code <<< 1) (len + 1) table
  | .node _ _ l r, code, len, table =>
    match walk l (code <<< 1) (len + 1) table with
    | .error e => .error e
    | .ok table' => walk r (code <<< 1 ||| 1#64) (len + 1) table'

/-- The table HTABLE derives from a tree (R160). -/
def codeTable (root : HuffTree) : Except ErrCode (List LutEntry) :=
  walk root 0#64 0 (List.replicate Config.nsym LutEntry.empty)

/-! ## Category and magnitude (R171, R172) -/

/-- The category: the number of bits of |v|, 0 for 0 (R171). -/
def category (v : Int) : Nat := if v = 0 then 0 else Nat.log2 v.natAbs + 1

/-- The magnitude bits (R172). -/
def magnitude (v : Int) : Int :=
  if v = 0 then 0
  else if 0 < v then v
  else v + 2 ^ category v - 1

/-! ## Commands -/

/-- HCLEAR t (R150); BANK = 3 is illegal (R96). -/
def execHclear (bank : BitVec 2) (s : State) : Result :=
  if bankOk bank then
    .next (complete { s with mem := (s.mem.clear (freqBank bank) 0x400).clear (lutBank bank) 0x1000 })
  else .next (raise .illegalCommand Op.hclear s)

/-- HBUILD t (R152); BANK = 3 is illegal (R96). -/
def execHbuild (bank : BitVec 2) (s : State) : Result :=
  if bankOk bank then
    match buildTree s.mem bank with
    | none => .next (raise .emptyAlphabet Op.hbuild s)
    | some root => .next (complete { s with tree := some ⟨bank, root⟩ })
  else .next (raise .illegalCommand Op.hbuild s)

/-- HTABLE (R160). -/
def execHtable (s : State) : Result :=
  match s.tree with
  | none => .next (raise .noTree Op.htable s)
  | some t =>
    match codeTable t.root with
    | .error e => .next (raise e Op.htable s)
    | .ok table => .next (complete { s with mem := s.mem.writeLut t.bank table })

/-- CATMAG (R170). -/
def execCatmag (s : State) : Result :=
  .next (complete { s with
    res0 := BitVec.ofNat 32 (category s.opaInt)
    res1 := BitVec.ofInt 32 (magnitude s.opaInt) })

end Sys2Proof.Machine
end

