-- ==== Sys2Proof/Machine/System.lean ====
section
/-! DEFINITION. The control unit's one command, NOP (R235). -/

namespace Sys2Proof.Machine

/-- NOP: no effect but completion (R235). -/
def execNop (s : State) : Result := .next (complete s)

end Sys2Proof.Machine
end

