-- ==== Sys2Proof/Machine/Dispatch.lean ====
section
/-! DEFINITION. One arm per command: the meaning the engine performs (R231). -/

namespace Sys2Proof.Machine

def exec (i : Instr) (s : State) : Host.Outcome State Fault Refusal :=
  match i with
  | .nop => Sys2Proof.Machine.execNop s
  | .fdct mode => Sys2Proof.Machine.execFdct mode s
  | .idct mode => Sys2Proof.Machine.execIdct mode s
  | .hclear bank => Sys2Proof.Machine.execHclear bank s
  | .hbuild bank => Sys2Proof.Machine.execHbuild bank s
  | .htable => Sys2Proof.Machine.execHtable s
  | .catmag => Sys2Proof.Machine.execCatmag s
  | .wrbits cnt => Sys2Proof.Machine.execWrbits cnt s
  | .wflush => Sys2Proof.Machine.execWflush s
  | .wfinal => Sys2Proof.Machine.execWfinal s
  | .wreset => Sys2Proof.Machine.execWreset s
  | .rreset src => Sys2Proof.Machine.execRreset src s
  | .rdbits cnt => Sys2Proof.Machine.execRdbits cnt s

end Sys2Proof.Machine
end

