-- ==== Sys2Proof/Machine/Engine.lean ====
section
/-! DEFINITION. The engine step (R231), and which agent moves next (R65, R254). -/

namespace Sys2Proof.Machine

/-- The engine step on the pending word: a word that is no command raises IllegalCommand (R94 to R96), every
other performs its command (R231). -/
def perform (w : Word) (s : State) : Result :=
  match decode w with
  | .ok i => exec i s
  | .error _ => .next (raise .illegalCommand (opField w) s)

/-- One step of the JBTE and its host. While BUSY = 1 the engine moves, unless the host's next event is one
that does not wait (R65): then either may move first (R254), as `turns` says, and the engine where `turns` says
nothing. While BUSY = 0 the host moves; with nothing to do, nothing changes (R238, R265). -/
def advance (s : State) : Result :=
  match s.pending, s.host with
  | none, [] => .next s
  | none, e :: rest => hostEvent e { s with host := rest }
  | some w, [] => perform w s
  | some w, e :: rest =>
    if e.held then perform w s
    else
      match s.turns with
      | [] => perform w s
      | .engine :: turns => perform w { s with turns := turns }
      | .host :: turns => hostEvent e { s with host := rest, turns := turns }

/-- The state in which `word` is pending and the engine moves next. -/
def loadPending (s : State) (word : Word) : State := { s with pending := some word, turns := [] }

end Sys2Proof.Machine
end

