-- ==== Sys2Proof/Machine/Step.lean ====
section
/-! DEFINITION. The step function of the machine, and how the host's checks place a command word. -/

namespace Sys2Proof.Machine

/-- One step (R16, R231). -/
def step (s : State) : Host.Outcome State Fault Refusal := advance s

/-- `s` with the command word stored where the engine takes its next command from: it is pending, and no host
access can move before it (log entry 6). -/
def State.withFetchWord (s : State) (nbits w : Nat) : State := loadPending s (BitVec.ofNat 32 (w % 2 ^ nbits))

end Sys2Proof.Machine
end

