-- ==== Sys2Proof/Safety.lean ====
section
/-! DEFINITION. What claims about the JBTE are stated in: the invariant of a reachable state, the streams of the
writer and the reader as bit sequences, a tree as its code words, the value of a binary64 encoding, and the exact
transforms with the accuracy properties of 40_dct.md. Nothing here is part of the step. -/

namespace Sys2Proof.Machine

/-! ## Invariants of a reachable state -/

/-- The writer (R28, R29, R43, R46). -/
structure WriterInv (s : State) : Prop where
  acc_lt : s.acc.toNat < 2 ^ s.nb.toNat
  rawLen_le : s.rawLen ≤ Config.rawCap
  raw_written : ∀ k < s.rawLen, (s.mem.read (Config.rawBase + k)).isSome = true

/-- OUT (R30, R44). -/
structure OutInv (s : State) : Prop where
  outLen_le : s.outLen ≤ Config.outCap
  out_written : ∀ k < s.outLen, (s.mem.read (Config.outBase + k)).isSome = true

/-- The reader (R31, R34, R48, R214). -/
structure ReaderInv (s : State) : Prop where
  rinLen_le : s.rinLen ≤ Config.rinCap
  rlen_le : s.rlen ≤ Config.rinCap
  rp_le : s.rp ≤ s.rlen
  rb_zero : s.rp = s.rlen → s.rb = 0#3

/-- A command is pending only where no error is, and it is the word CMD reads back (R24, R49, R230, R245). -/
def EngineInv (s : State) : Prop := ∀ w, s.pending = some w → s.cmd = w ∧ s.error = none

/-- An entry of a LUT bank is as R42 says. -/
def LutEntry.ok (e : LutEntry) : Prop :=
  if e.valid then 1 ≤ e.len.toNat ∧ e.len.toNat ≤ Config.maxCodeLen ∧ e.code.toNat < 2 ^ e.len.toNat
  else e.code = 0#64 ∧ e.len = 0#7

/-- Every entry of every LUT bank is as R42 says. -/
def LutInv (s : State) : Prop :=
  ∀ bank : BitVec 2, bankOk bank = true → ∀ sym < Config.nsym, (s.mem.lutEntry bank sym).ok

/-- The engine's step is the next one: the host has nothing to do, or its next access waits (R65), or no turn is
set (R254, log entry 7). -/
def State.engineFirst (s : State) : Prop :=
  s.host = [] ∨ (∃ e rest, s.host = e :: rest ∧ e.held = true) ∨ s.turns = []

/-! ## The host's accesses -/

/-- A host read at the offset returns `v`. The read log and the draw counter, which take the read down, are the
model's own (log entries 2 and 6); nothing else changes (R68). -/
def State.readsAs (s : State) (off : BitVec 16) (v : Word) : Prop :=
  hostEvent (.read .w32 off) s = .next { s with readLog := v :: s.readLog, draws := s.draws + 1 }

/-- The event resets the JBTE: a hard reset, or a write to CTRL with SRST = 1 (R280, R282). -/
def HostEvent.resets : HostEvent → Prop
  | .read _ _ => False
  | .write width off v => width = .w32 ∧ off = 0x008#16 ∧ v.getLsbD 0 = true
  | .hardReset => True

/-! ## Trees -/

/-- The leaves of a tree, left to right, each with its count. -/
def HuffTree.leaves : HuffTree → List (Byte × BitVec 32)
  | .leaf sym f => [(sym, f)]
  | .single _ _ l => l.leaves
  | .node _ _ l r => l.leaves ++ r.leaves

/-- Every internal node has two children (R158). -/
def HuffTree.full : HuffTree → Prop
  | .leaf _ _ => True
  | .single _ _ _ => False
  | .node _ _ l r => l.full ∧ r.full

/-- The id of a node: a leaf's symbol, or an internal node's id (R153). -/
def HuffTree.nodeId : HuffTree → Nat
  | .leaf sym _ => sym.toNat
  | .single id _ _ => id
  | .node id _ _ _ => id

/-- The frequency of a node (R47). -/
def HuffTree.freq : HuffTree → Nat
  | .leaf _ f => f.toNat
  | .single _ f _ => f.toNat
  | .node _ f _ _ => f.toNat

/-- Every internal node's frequency is the sum of its children's, as numbers (R154, R157). -/
def HuffTree.sums : HuffTree → Prop
  | .leaf _ _ => True
  | .single _ f l => f.toNat = l.freq ∧ l.sums
  | .node _ f l r => f.toNat = l.freq + r.freq ∧ l.sums ∧ r.sums

/-- The code words of a tree: each leaf's symbol with the edge bits from the root to it, 0 to the left and 1 to
the right (R161). -/
def HuffTree.codeWords : HuffTree → List (Byte × List Bool)
  | .leaf sym _ => [(sym, [])]
  | .single _ _ l => l.codeWords.map fun p => (p.1, false :: p.2)
  | .node _ _ l r =>
    (l.codeWords.map fun p => (p.1, false :: p.2)) ++ (r.codeWords.map fun p => (p.1, true :: p.2))

/-- The order of nodes: by frequency, then by id (R153). -/
def HuffTree.before (a b : HuffTree) : Prop := a.freq < b.freq ∨ (a.freq = b.freq ∧ a.nodeId < b.nodeId)

/-- Of an internal node's two children the lesser is on the left (R153, R155). -/
def HuffTree.ordered : HuffTree → Prop
  | .leaf _ _ => True
  | .single _ _ l => l.ordered
  | .node _ _ l r => l.before r ∧ l.ordered ∧ r.ordered

/-- The nodes of a tree, each as the tree below it. -/
def HuffTree.nodes : HuffTree → List HuffTree
  | .leaf sym f => [.leaf sym f]
  | .single id f l => .single id f l :: l.nodes
  | .node id f l r => .node id f l r :: (l.nodes ++ r.nodes)

/-- The ids of the internal nodes of a tree. -/
def HuffTree.internalIds : HuffTree → List Nat
  | .leaf _ _ => []
  | .single id _ l => id :: l.internalIds
  | .node id _ l r => id :: (l.internalIds ++ r.internalIds)

/-- The trees that stand in the queue before the internal node `next` is made: the largest parts of the final tree
that hold no node of id `next` or above (R152, R154). -/
def HuffTree.forestBefore (next : Nat) : HuffTree → List HuffTree
  | .leaf sym f => [.leaf sym f]
  | .single id f l => if id < next then [.single id f l] else l.forestBefore next
  | .node id f l r => if id < next then [.node id f l r] else l.forestBefore next ++ r.forestBefore next

/-- Every internal node joins the two least nodes of the queue at its making (R153, R154). -/
def HuffTree.mergesLeast (root : HuffTree) : Prop :=
  ∀ id f l r, HuffTree.node id f l r ∈ root.nodes →
    l ∈ root.forestBefore id ∧ r ∈ root.forestBefore id ∧ l.before r ∧
      ∀ c ∈ root.forestBefore id, c ≠ l → c ≠ r → r.before c

/-- The shape of a tree HBUILD builds: the synthetic root over one leaf (R156), or a full tree with two leaves or
more, each with a symbol of its own and a count other than 0 (R154, R158). -/
def HuffTree.built : HuffTree → Prop
  | .leaf _ _ => False
  | .single id f l => id = 256 ∧ ∃ sym c, l = .leaf sym c ∧ f = c.setWidth 40 ∧ c ≠ 0#32
  | .node id f l r =>
    256 ≤ id ∧ l.full ∧ r.full ∧ (HuffTree.node id f l r).sums ∧
      ((HuffTree.node id f l r).leaves.map Prod.fst).Nodup ∧ ∀ p ∈ (HuffTree.node id f l r).leaves, p.2 ≠ 0#32

/-- The tree store (R47, R152). -/
def TreeInv (s : State) : Prop := ∀ t, s.tree = some t → bankOk t.bank = true ∧ t.root.built

/-! ## Bit sequences -/

/-- A bit sequence, first bit most significant, as a number (R14, R161). -/
def bitsValue (bits : List Bool) : Nat := bits.foldl (fun v b => 2 * v + b.toNat) 0

/-- The bits of a byte in stream order (R14). -/
def byteBits (b : Byte) : List Bool := (List.range 8).map fun k => b.getLsbD (7 - k)

/-- The pending bits of the writer, oldest first (R28). -/
def State.pendingBits (s : State) : List Bool :=
  (List.range s.nb.toNat).map fun k => s.acc.getLsbD (s.nb.toNat - 1 - k)

/-- The writer's stream: RAW and then the pending bits (R194). -/
def State.stream (s : State) : List Bool := s.rawBytes.flatMap byteBits ++ s.pendingBits

/-- The number of zero bits that fill a stream of `n` bits up to a byte (R196). -/
def padCount (n : Nat) : Nat := (8 - n % 8) % 8

/-- De-stuffing: the 0x00 after a 0xFF is left out (R212). -/
def destuff : List Byte → List Byte
  | [] => []
  | [b] => [b]
  | b :: c :: rest => if b = 0xFF#8 ∧ c = 0x00#8 then b :: destuff rest else b :: destuff (c :: rest)

/-- The data bits of a source from a byte of which `used` bits are consumed (R211, R213). -/
def dataBits (bytes : List Byte) (used : Nat) : List Bool := ((destuff bytes).flatMap byteBits).drop used

/-- `bytes` is a part of the source from RP on, within RLEN and every byte of it with a value: SRCBUF[RP],
SRCBUF[RP+1] and so on (R211). -/
def State.sourceStarts (s : State) (bytes : List Byte) : Prop :=
  s.rp + bytes.length ≤ s.rlen ∧ ∀ j < bytes.length, s.srcByte (s.rp + j) = bytes[j]?

/-- `bytes` is all of the source from RP to RLEN (R211). -/
def State.sourceEnds (s : State) (bytes : List Byte) : Prop := s.rp + bytes.length = s.rlen

/-! ## Sequences of commands -/

/-- The state after a command that completes. -/
def after (i : Instr) (s : State) : Option State :=
  match exec i s with
  | .next t => some t
  | .fault _ => none
  | .refused _ => none

/-- PUT for each item: OPA and then WRBITS (R100). -/
def putAll : List (BitVec 6 × Word) → State → Option State
  | [], s => some s
  | (n, v) :: items, s => (after (.wrbits n) { s with opa := v }).bind (putAll items)

/-- RDBITS for each count: the values RES0 takes, and the state after them. -/
def getAll : List (BitVec 6) → State → Option (List Word × State)
  | [], s => some ([], s)
  | n :: ns, s => (after (.rdbits n) s).bind fun t => (getAll ns t).map fun p => (t.res0 :: p.1, p.2)

/-! ## Binary64 values and the exact transforms -/

/-- The number a finite encoding stands for (R10). -/
def binary64Value (x : F64) : ℚ := (Binary64.signedMant x : ℚ) * 2 ^ Binary64.scale x / 2 ^ 1074

/-- C(k) of R120. -/
noncomputable def normC (k : Nat) : ℝ := if k = 0 then 1 / √2 else 1

/-- cos((2x+1)·u·π/16). -/
noncomputable def exactCos (x u : Nat) : ℝ := Real.cos ((2 * x + 1) * u * Real.pi / 16)

/-- FDCT_R (R120): entry 8u+v of the exact forward transform. -/
noncomputable def exactFdct (f : Nat → ℝ) (k : Nat) : ℝ :=
  0.25 * normC (k / 8) * normC (k % 8) *
    ∑ x ∈ Finset.range 8, ∑ y ∈ Finset.range 8, f (8 * x + y) * exactCos x (k / 8) * exactCos y (k % 8)

/-- IDCT_R (R121): entry 8x+y of the exact inverse transform. -/
noncomputable def exactIdct (f : Nat → ℝ) (k : Nat) : ℝ :=
  0.25 * ∑ u ∈ Finset.range 8, ∑ v ∈ Finset.range 8,
    normC u * normC v * f (8 * u + v) * exactCos (k / 8) u * exactCos (k % 8) v

/-- cos(kπ/16). -/
noncomputable def cosPi (k : Nat) : ℝ := Real.cos (k * Real.pi / 16)

/-- `c` is within half a unit in its last place of `x` (R131). -/
def nearest (c : F64) (x : ℝ) : Prop := |((binary64Value c : ℚ) : ℝ) - x| ≤ 2 ^ Binary64.scale c / 2 ^ 1075

/-- k(u) of R135: the gain of the forward butterfly. -/
noncomputable def gain (u : Nat) : ℝ := if u = 0 then 1 else 2 * cosPi u

/-! ## The 1-D flowgraphs, over any arithmetic -/

/-- `o` is FWD8 of `d`, with the constants A1 to A4 (R135). -/
def IsFwd8 {α : Type} (add sub mul : α → α → α) (a1 a2 a3 a4 : α) (d o : Nat → α) : Prop :=
  ∃ t0 t1 t2 t3 t4 t5 t6 t7 e10 e11 e12 e13 z1 z2 z3 z4 z5 p10 p11 p12 z11 z13 : α,
    t0 = add (d 0) (d 7) ∧ t7 = sub (d 0) (d 7) ∧ t1 = add (d 1) (d 6) ∧ t6 = sub (d 1) (d 6) ∧
    t2 = add (d 2) (d 5) ∧ t5 = sub (d 2) (d 5) ∧ t3 = add (d 3) (d 4) ∧ t4 = sub (d 3) (d 4) ∧
    e10 = add t0 t3 ∧ e13 = sub t0 t3 ∧ e11 = add t1 t2 ∧ e12 = sub t1 t2 ∧
    o 0 = add e10 e11 ∧ o 4 = sub e10 e11 ∧
    z1 = mul (add e12 e13) a1 ∧ o 2 = add e13 z1 ∧ o 6 = sub e13 z1 ∧
    p10 = add t4 t5 ∧ p11 = add t5 t6 ∧ p12 = add t6 t7 ∧
    z5 = mul (sub p10 p12) a3 ∧ z2 = add (mul a2 p10) z5 ∧ z4 = add (mul a4 p12) z5 ∧ z3 = mul p11 a1 ∧
    z11 = add t7 z3 ∧ z13 = sub t7 z3 ∧
    o 5 = add z13 z2 ∧ o 3 = sub z13 z2 ∧ o 1 = add z11 z4 ∧ o 7 = sub z11 z4

/-- `y` is INV8 of `i`, with the constants B1 to B4 (R136). -/
def IsInv8 {α : Type} (add sub mul : α → α → α) (b1 b2 b3 b4 : α) (i y : Nat → α) : Prop :=
  ∃ b10 b11 b12 b13 c0 c1 c2 c3 c4 c5 c6 c7 z5 z10 z11 z12 z13 q10 q11 q12 : α,
    b10 = add (i 0) (i 4) ∧ b11 = sub (i 0) (i 4) ∧ b13 = add (i 2) (i 6) ∧
    b12 = sub (mul (sub (i 2) (i 6)) b1) b13 ∧
    c0 = add b10 b13 ∧ c3 = sub b10 b13 ∧ c1 = add b11 b12 ∧ c2 = sub b11 b12 ∧
    z13 = add (i 5) (i 3) ∧ z10 = sub (i 5) (i 3) ∧ z11 = add (i 1) (i 7) ∧ z12 = sub (i 1) (i 7) ∧
    c7 = add z11 z13 ∧ q11 = mul (sub z11 z13) b1 ∧ z5 = mul (add z10 z12) b2 ∧
    q10 = sub (mul b3 z12) z5 ∧ q12 = sub z5 (mul b4 z10) ∧
    c6 = sub q12 c7 ∧ c5 = sub q11 c6 ∧ c4 = add q10 c5 ∧
    y 0 = add c0 c7 ∧ y 7 = sub c0 c7 ∧ y 1 = add c1 c6 ∧ y 6 = sub c1 c6 ∧
    y 2 = add c2 c5 ∧ y 5 = sub c2 c5 ∧ y 4 = add c3 c4 ∧ y 3 = sub c3 c4

/-- `w'` is `w` after a row pass and then a column pass, where `pass d o` says that `o` is the 1-D transform of `d`
(R137). -/
def IsRowsThenColumns {α : Type} (pass : (Nat → α) → (Nat → α) → Prop) (w w' : Nat → α) : Prop :=
  ∃ mid : Nat → α, (∀ r < 8, pass (fun k => w (8 * r + k)) fun k => mid (8 * r + k)) ∧
    ∀ c < 8, pass (fun k => mid (8 * k + c)) fun k => w' (8 * k + c)

/-- FWD8 in binary64 with the ROM's constants. -/
def IsFwd8Bits : (Nat → F64) → (Nat → F64) → Prop :=
  IsFwd8 Binary64.add Binary64.sub Binary64.mul romA1 romA2 romA3 romA4

/-- INV8 in binary64 with the ROM's constants. -/
def IsInv8Bits : (Nat → F64) → (Nat → F64) → Prop :=
  IsInv8 Binary64.add Binary64.sub Binary64.mul romB1 romB2 romB3 romB4

/-- FWD8 in exact arithmetic with the exact constants. -/
def IsFwd8Exact : (Nat → ℝ) → (Nat → ℝ) → Prop :=
  IsFwd8 (· + ·) (· - ·) (· * ·) (cosPi 4) (cosPi 2 - cosPi 6) (cosPi 6) (cosPi 2 + cosPi 6)

/-- INV8 in exact arithmetic with the exact constants. -/
def IsInv8Exact : (Nat → ℝ) → (Nat → ℝ) → Prop :=
  IsInv8 (· + ·) (· - ·) (· * ·) (√2) (2 * cosPi 2) (2 * (cosPi 2 - cosPi 6)) (2 * (cosPi 2 + cosPi 6))

/-! ## The exact transforms on blocks -/

/-- A block of encodings as real numbers. -/
noncomputable def realBlock (f : List F64) (k : Nat) : ℝ := (binary64Value (entry f k) : ℝ)

/-- Entry by entry, `z` is within `eps · max(1, max |bound j|)` of `w` (R126, R127). -/
def within (eps : ℝ) (bound z w : Nat → ℝ) : Prop :=
  ∀ k < 64, ∃ j < 64, |z k - w k| ≤ eps * max 1 |bound j|

/-- EPS_REF (R9). -/
noncomputable def epsRef : ℝ := 1 / 10 ^ 9

/-- EPS_FAST (R9). -/
noncomputable def epsFast : ℝ := 1 / 10 ^ 6

/-- Property P_REF (R126): the spec asserts it of the datapaths; no obligation rests on it. -/
def PRef : Prop :=
  (∀ f : List F64, f.length = 64 → f.all Binary64.covered = true →
    within epsRef (exactFdct (realBlock f)) (realBlock (fdct .ref f)) (exactFdct (realBlock f))) ∧
  (∀ q : List Word, q.length = 64 →
    within epsRef (exactIdct (realBlock (q.map Binary64.ofInt32))) (realBlock (idct .ref q))
      (exactIdct (realBlock (q.map Binary64.ofInt32))))

/-- Property P_FAST (R127): the spec asserts it of the datapaths; no obligation rests on it. -/
def PFast : Prop :=
  (∀ f : List F64, f.length = 64 → f.all Binary64.covered = true →
    within epsFast (realBlock (fdct .ref f)) (realBlock (fdct .fast f)) (realBlock (fdct .ref f))) ∧
  (∀ q : List Word, q.length = 64 →
    within epsFast (realBlock (idct .ref q)) (realBlock (idct .fast q)) (realBlock (idct .ref q)))

end Sys2Proof.Machine
end

