-- ==== Sys2Proof/Certificates/Slice0/Obligations.lean ====
section
/-! DEFINITION. The statements about the JBTE. Unless a docstring says otherwise, a statement holds in every state,
also one that no run reaches. `{ s with … }` names every field that changes, so it is the frame too; where memory
changes, the statement says which bytes of it do. -/

open Sys2Proof Sys2Proof.Machine

/-! ## Encoding (30_encoding.md) -/

/-- Decoding and encoding agree, both ways, on every word and every command: a word decodes to a command exactly
where the command is well formed and the word is its encoding (R90, R92, R93). -/
def Obligations.DecodeInvertsEncode : Prop :=
  ∀ (w : Word) (i : Instr), decode w = .ok i ↔ i.wellFormed = true ∧ encode i = w

/-- At most one row of the opcode table matches a word (R93). -/
def Obligations.OpcodeRowsDoNotOverlap : Prop :=
  ∀ (w : Word) (r₁ r₂ : Row), r₁ ∈ opcodeTable → r₂ ∈ opcodeTable →
    w &&& r₁.mask = r₁.pattern → w &&& r₂.mask = r₂.pattern → r₁ = r₂

/-- The words that R101 writes out decode to the commands it names. -/
def Obligations.ExampleWordsDecode : Prop :=
  decode 0x00000000#32 = .ok .nop ∧ decode 0x00100001#32 = .ok (.fdct .fast) ∧
  decode 0x00000002#32 = .ok (.idct .ref) ∧ decode 0x00020010#32 = .ok (.hclear 2#2) ∧
  decode 0x00010011#32 = .ok (.hbuild 1#2) ∧ decode 0x00000012#32 = .ok .htable ∧
  decode 0x00000013#32 = .ok .catmag ∧ decode 0x00000820#32 = .ok (.wrbits 8#6) ∧
  decode 0x00002020#32 = .ok (.wrbits 32#6) ∧ decode 0x00000021#32 = .ok .wflush ∧
  decode 0x00000022#32 = .ok .wfinal ∧ decode 0x00000023#32 = .ok .wreset ∧
  decode 0x00200030#32 = .ok (.rreset .out) ∧ decode 0x00000C31#32 = .ok (.rdbits 12#6)

/-- Which words are no command, and why: an unassigned OP, an assigned OP whose word matches no row, or BANK = 3
(R94, R95, R96). -/
def Obligations.IllegalWordsAreRejectedByName : Prop :=
  ∀ w : Word,
    let assigned := opField w ∈ [0x00#8, 0x01#8, 0x02#8, 0x10#8, 0x11#8, 0x12#8, 0x13#8, 0x20#8, 0x21#8, 0x22#8,
      0x23#8, 0x30#8, 0x31#8]
    (decode w = .error .unassignedOp ↔ ¬ assigned) ∧
    (decode w = .error .unusedBitSet ↔ assigned ∧ ∀ r ∈ opcodeTable, w &&& r.mask ≠ r.pattern) ∧
    (decode w = .error .reservedBank ↔ w = 0x00030010#32 ∨ w = 0x00030011#32)

/-! ## Steps (43_system.md, 60_exceptions.md) -/

/-- While a command is pending and the engine's step is the next one, `step` performs the decoded command on the
whole state; where the host's next access does not wait, the engine's step uses up one turn. The list of turns is the
model's own (log entry 7) (R231, R254). -/
def Obligations.StepRunsTheDecodedCommand : Prop :=
  ∀ (s : State) (w : Word) (i : Instr), s.pending = some w → decode w = .ok i →
    (s.engineFirst → step s = exec i s) ∧
    (∀ e rest turns, s.host = e :: rest → e.held = false → s.turns = .engine :: turns →
      step s = exec i { s with turns := turns })

/-- A pending word that is no command raises IllegalCommand, with its OP field in ERROP and no other effect; where
the host's next access does not wait, the engine's step uses up one turn. The list of turns is the model's own (log
entry 7) (R94, R95, R96, R231, R254). -/
def Obligations.IllegalWordRaisesIllegalCommand : Prop :=
  ∀ (s : State) (w : Word) (reason : DecodeReject), s.pending = some w → decode w = .error reason →
    (s.engineFirst →
      step s = .next { s with error := some ⟨.illegalCommand, opField w⟩, done := true, pending := none }) ∧
    (∀ e rest turns, s.host = e :: rest → e.held = false → s.turns = .engine :: turns →
      step s = .next { s with
        error := some ⟨.illegalCommand, opField w⟩, done := true, pending := none, turns := turns })

/-- The host's next event is taken while BUSY = 0, and while BUSY = 1 where it does not wait and the turn is the
host's; while BUSY = 1 an event that waits stays where it is. With nothing to do, nothing changes. The list of events
and the list of turns are the model's own (log entries 6 and 7) (R65, R238, R254, R265). -/
def Obligations.HostEventsAreTakenInOrder : Prop :=
  (∀ (s : State) e rest, s.pending = none → s.host = e :: rest → step s = hostEvent e { s with host := rest }) ∧
  (∀ (s : State) w e rest turns, s.pending = some w → s.host = e :: rest → e.held = false →
    s.turns = .host :: turns → step s = hostEvent e { s with host := rest, turns := turns }) ∧
  (∀ (s : State) w e rest, s.pending = some w → s.host = e :: rest → e.held = true → step s = perform w s) ∧
  (∀ s : State, s.pending = none → s.host = [] → step s = .next s)

/-- No command stays pending: within as many steps as the host has events left, and one more, BUSY is 0, unless the
model stops at a fault first. Where no event of the host resets the JBTE, the engine performs the pending command
itself within that bound. That the engine moves at the latest after the host's last event is the model's form of weak
fairness, and the lists of events and of turns are its own (log entries 6 and 7) (R231, R238, R301). -/
def Obligations.AcceptedCommandsComplete : Prop :=
  (∀ s : State, s.pending ≠ none →
    ∃ k ≤ s.host.length + 1,
      (∃ t, Sys2Proof.core.run k s = .next t ∧ t.pending = none) ∨ (∃ f, Sys2Proof.core.run k s = .fault f)) ∧
  (∀ (s : State) (w : Word), s.pending = some w → (∀ e ∈ s.host, ¬ e.resets) →
    ∃ k ≤ s.host.length, (∃ f, Sys2Proof.core.run k s = .fault f) ∨
      ∃ u turns, Sys2Proof.core.run k s = .next u ∧ u.pending = some w ∧ step u = perform w { u with turns := turns })

/-! ## Results, one command each -/

/-- NOP changes nothing but DONE and BUSY (R235, R231). -/
def Obligations.NopOnlyCompletes : Prop :=
  ∀ s : State, exec .nop s = .next { s with done := true, pending := none }

/-- FDCT with every DIN word written: DOUT becomes `fdct_m` of DIN, entry by entry, and no other byte and no other
field but DONE and BUSY changes (R140). -/
def Obligations.FdctWritesTheTransformOfDin : Prop :=
  ∀ (s : State) (mode : DctMode) (f : List F64), f.length = 64 →
    (∀ k < 64, s.mem.readF64 (0x200 + 8 * k) = f[k]?) →
    ∃ m, exec (.fdct mode) s = .next { s with mem := m, done := true, pending := none } ∧
      (∀ k < 64, m.readF64 (0x600 + 8 * k) = (fdct mode f)[k]? ∧ (fdct mode f)[k]? ≠ none) ∧
      (∀ a, a < 0x600 ∨ 0x800 ≤ a → m.read a = s.mem.read a)

/-- IDCT with every QIN word written: DOUT becomes `idct_m` of QIN, entry by entry, and no other byte and no other
field but DONE and BUSY changes (R141). -/
def Obligations.IdctWritesTheTransformOfQin : Prop :=
  ∀ (s : State) (mode : DctMode) (q : List Word), q.length = 64 →
    (∀ k < 64, s.mem.readWord (0x400 + 4 * k) = q[k]?) →
    ∃ m, exec (.idct mode) s = .next { s with mem := m, done := true, pending := none } ∧
      (∀ k < 64, m.readF64 (0x600 + 8 * k) = (idct mode q)[k]? ∧ (idct mode q)[k]? ≠ none) ∧
      (∀ a, a < 0x600 ∨ 0x800 ≤ a → m.read a = s.mem.read a)

/-- FDCT and IDCT with a word of their block never written stop at the model fault `UnwrittenRead`, naming the
command. So does RDBITS where it reaches a byte never written: one of which it needs a bit, or the one it looks at
after the last bit of a 0xFF; a byte of OUT at or above OUTLEN counts as unwritten. That the run stops there is the
model's treatment of an unspecified value (log entry 9) (R50, R211). -/
def Obligations.UnwrittenReadsAreFaults : Prop :=
  (∀ (s : State) mode k, k < 64 → s.mem.readF64 (0x200 + 8 * k) = none →
    exec (.fdct mode) s = .fault (.unwrittenRead (.fdct mode))) ∧
  (∀ (s : State) mode k, k < 64 → s.mem.readWord (0x400 + 4 * k) = none →
    exec (.idct mode) s = .fault (.unwrittenRead (.idct mode))) ∧
  (∀ (s : State) (n : BitVec 6) (bytes : List Byte), 1 ≤ n.toNat → n.toNat ≤ 32 → s.sourceStarts bytes →
    let next := s.rp + bytes.length
    let bits := dataBits bytes s.rb.toNat
    next < s.rlen → (s.rsrc = .rin → s.mem.read (0xC000 + next) = none) →
    (s.rsrc = .out → s.outLen ≤ next ∨ s.mem.read (0xA000 + next) = none) →
    bits.length < n.toNat ∨ (bits.length = n.toNat ∧ bytes.getLast? = some 0xFF#8) →
    exec (.rdbits n) s = .fault (.unwrittenRead (.rdbits n)))

/-- HCLEAR t zeroes every byte of FREQ[t] and LUT[t], so that every entry of LUT[t] is without a code; every other
byte, the tree store and every other field but DONE and BUSY stay (R150). -/
def Obligations.HclearClearsItsBank : Prop :=
  ∀ (s : State) (t : BitVec 2), t ≠ 3#2 →
    ∃ m, exec (.hclear t) s = .next { s with mem := m, done := true, pending := none } ∧
      (∀ a, (0x1000 + 0x400 * t.toNat ≤ a ∧ a < 0x1400 + 0x400 * t.toNat) ∨
          (0x4000 + 0x1000 * t.toNat ≤ a ∧ a < 0x5000 + 0x1000 * t.toNat) → m.read a = some 0#8) ∧
      (∀ sym < 256, m.lutEntry t sym = ⟨0#64, 0#7, false⟩) ∧
      (∀ a, ¬ (0x1000 + 0x400 * t.toNat ≤ a ∧ a < 0x1400 + 0x400 * t.toNat) →
          ¬ (0x4000 + 0x1000 * t.toNat ≤ a ∧ a < 0x5000 + 0x1000 * t.toNat) → m.read a = s.mem.read a)

/-- BANK = 3 raises IllegalCommand with no other effect, in HCLEAR and in HBUILD, as a word and as a command. The
second form is the model's term for such a word (log entry 17) (R96). -/
def Obligations.ReservedBankRaisesIllegalCommand : Prop :=
  ∀ s : State,
    perform 0x00030010#32 s = .next { s with error := some ⟨.illegalCommand, 0x10#8⟩, done := true, pending := none } ∧
    perform 0x00030011#32 s = .next { s with error := some ⟨.illegalCommand, 0x11#8⟩, done := true, pending := none } ∧
    exec (.hclear 3#2) s = .next { s with error := some ⟨.illegalCommand, 0x10#8⟩, done := true, pending := none } ∧
    exec (.hbuild 3#2) s = .next { s with error := some ⟨.illegalCommand, 0x11#8⟩, done := true, pending := none }

/-- HBUILD t on an alphabet that is not empty: the tree store becomes a tree of bank t whose leaves are the symbols
with a count, each with its count; for one symbol it is the synthetic root, for n ≥ 2 symbols a full tree with root
id 256 + n − 2 whose frequencies are the exact sums, the root's the sum of all counts. Nothing else changes but DONE
and BUSY. That the tree is held as a term is the model's choice (log entry 13) (R151, R152, R154, R156, R157, R158). -/
def Obligations.HbuildBuildsATreeOfTheAlphabet : Prop :=
  ∀ (s : State) (t : BitVec 2), t ≠ 3#2 → (∃ sym < 256, s.mem.freq t sym ≠ 0#32) →
    ∃ root, exec (.hbuild t) s = .next { s with tree := some ⟨t, root⟩, done := true, pending := none } ∧
      let alphabet := (List.range 256).filter fun sym => s.mem.freq t sym != 0#32
      root.leaves.Perm (alphabet.map fun sym => (BitVec.ofNat 8 sym, s.mem.freq t sym)) ∧ root.built ∧
      (2 ≤ alphabet.length → root.nodeId = 256 + alphabet.length - 2 ∧ root.full ∧
        root.freq = (alphabet.map fun sym => (s.mem.freq t sym).toNat).sum)

/-- Every merge of HBUILD takes the two least nodes of the queue, by frequency and then by id, and puts the lesser on
the left; the merges make the internal ids from 256 on, one each (R152, R153, R154, R155, R156). -/
def Obligations.HbuildMergesTheTwoLeastNodes : Prop :=
  ∀ (s : State) (t : BitVec 2), t ≠ 3#2 → (∃ sym < 256, s.mem.freq t sym ≠ 0#32) →
    ∃ u root, exec (.hbuild t) s = .next u ∧ u.tree = some ⟨t, root⟩ ∧ root.mergesLeast ∧ root.ordered ∧
      let n := ((List.range 256).filter fun sym => s.mem.freq t sym != 0#32).length
      root.internalIds.Perm ((List.range (max 1 (n - 1))).map (256 + ·))

/-- HBUILD t with every count 0 raises EmptyAlphabet; the tree store keeps its value (R152, R243). -/
def Obligations.HbuildOfNoSymbolsRaisesEmptyAlphabet : Prop :=
  ∀ (s : State) (t : BitVec 2), t ≠ 3#2 → (∀ sym < 256, s.mem.freq t sym = 0#32) →
    exec (.hbuild t) s = .next { s with error := some ⟨.emptyAlphabet, 0x11#8⟩, done := true, pending := none }

/-- HTABLE with a tree whose symbols are distinct and whose leaves lie no deeper than 64: every leaf's symbol gets
the path to it as its code, the root's edge first, and its depth as its length; every other entry of LUT[TREE_BANK]
is without a code; no other byte and no other field but DONE and BUSY changes (R160, R161). -/
def Obligations.HtableWritesTheCodeTable : Prop :=
  ∀ (s : State) (tree : BuiltTree), s.tree = some tree → (tree.root.leaves.map Prod.fst).Nodup →
    (∀ p ∈ tree.root.codeWords, p.2.length ≤ 64) →
    ∃ m, exec .htable s = .next { s with mem := m, done := true, pending := none } ∧
      (∀ p ∈ tree.root.codeWords, m.lutEntry tree.bank p.1.toNat =
        ⟨BitVec.ofNat 64 (bitsValue p.2), BitVec.ofNat 7 p.2.length, true⟩) ∧
      (∀ sym < 256, (∀ p ∈ tree.root.codeWords, p.1.toNat ≠ sym) → m.lutEntry tree.bank sym = ⟨0#64, 0#7, false⟩) ∧
      (∀ a, ¬ (0x4000 + 0x1000 * tree.bank.toNat ≤ a ∧ a < 0x5000 + 0x1000 * tree.bank.toNat) →
        m.read a = s.mem.read a)

/-- HTABLE without a tree raises NoTree, and with a leaf deeper than 64 CodeTooLong; neither changes anything but
STATUS and BUSY (R160, R162, R243). -/
def Obligations.HtableErrorsWriteNothing : Prop :=
  (∀ s : State, s.tree = none →
    exec .htable s = .next { s with error := some ⟨.noTree, 0x12#8⟩, done := true, pending := none }) ∧
  (∀ (s : State) (tree : BuiltTree), s.tree = some tree → (∃ p ∈ tree.root.codeWords, 64 < p.2.length) →
    exec .htable s = .next { s with error := some ⟨.codeTooLong, 0x12#8⟩, done := true, pending := none })

/-- CodeTooLong cannot occur: HTABLE right after an HBUILD that finds a symbol raises no error (R162). -/
def Obligations.HtableAfterHbuildRaisesNothing : Prop :=
  ∀ (s : State) (t : BitVec 2), t ≠ 3#2 → (∃ sym < 256, s.mem.freq t sym ≠ 0#32) →
    ∃ u m, exec (.hbuild t) s = .next u ∧ exec .htable u = .next { u with mem := m, done := true, pending := none }

/-- The table of a tree that HBUILD builds from two symbols or more: no code is a prefix of another, and the code
lengths meet Kraft's equality (R163). -/
def Obligations.CodesArePrefixFree : Prop :=
  ∀ (s : State) (t : BitVec 2) (root : HuffTree) (table : List LutEntry),
    buildTree s.mem t = some root → codeTable root = .ok table →
    (∀ (a b : Nat) (ea eb : LutEntry), a ≠ b → table[a]? = some ea → table[b]? = some eb →
      ea.valid = true → eb.valid = true → ea.len.toNat ≤ eb.len.toNat → eb.code.toNat / 2 ^ (eb.len.toNat - ea.len.toNat) ≠ ea.code.toNat) ∧
    (2 ≤ (s.mem.alphabet t).length →
      (table.map fun e => if e.valid then 2 ^ (64 - e.len.toNat) else 0).sum = 2 ^ 64)

/-- CATMAG: RES0 is the least c with |v| < 2^c, RES1 the magnitude bits, for v = OPA as a signed integer; no other
field but DONE and BUSY changes (R170, R171, R172). -/
def Obligations.CatmagGivesCategoryAndMagnitude : Prop :=
  ∀ s : State, ∃ cat mag : Nat,
    exec .catmag s = .next { s with
      res0 := BitVec.ofNat 32 cat, res1 := BitVec.ofNat 32 mag, done := true, pending := none } ∧
    cat ≤ 32 ∧ mag < 2 ^ 32 ∧ mag < 2 ^ cat ∧
    (s.opa.toInt.natAbs < 2 ^ cat ∧ ∀ c, s.opa.toInt.natAbs < 2 ^ c → cat ≤ c) ∧
    (s.opa.toInt = 0 → cat = 0 ∧ mag = 0) ∧
    (0 < s.opa.toInt → (mag : Int) = s.opa.toInt) ∧
    (s.opa.toInt < 0 → (mag : Int) = s.opa.toInt + 2 ^ cat - 1)

/-- The pair that CATMAG leaves determines OPA: the value is the magnitude where its top bit is 1, and the magnitude
less 2^cat − 1 otherwise (R173). -/
def Obligations.CatmagIsInvertible : Prop :=
  ∀ s t : State, exec .catmag s = .next t → s.opa ≠ 0#32 →
    (t.res1.getLsbD (t.res0.toNat - 1) = true → s.opa.toInt = (t.res1.toNat : Int)) ∧
    (t.res1.getLsbD (t.res0.toNat - 1) = false → s.opa.toInt = (t.res1.toNat : Int) - 2 ^ t.res0.toNat + 1)

/-- WRBITS n with a legal count and room in RAW: the stream grows by the low n bits of OPA, most significant first;
RAWLEN and NB count the bits; of memory only the completed bytes of RAW change, and no other field but DONE and BUSY
(R190, R192, R193, R194). -/
def Obligations.WrbitsAppendsToTheStream : Prop :=
  ∀ (s : State) (n : BitVec 6), 1 ≤ n.toNat → n.toNat ≤ 32 → s.rawLen + (s.nb.toNat + n.toNat) / 8 ≤ 4096 →
    ∃ acc nb rawLen m, let t : State :=
        { s with acc := acc, nb := nb, rawLen := rawLen, mem := m, done := true, pending := none }
      exec (.wrbits n) s = .next t ∧
      t.stream = s.stream ++ (List.range n.toNat).map (fun k => s.opa.getLsbD (n.toNat - 1 - k)) ∧
      rawLen = s.rawLen + (s.nb.toNat + n.toNat) / 8 ∧ nb.toNat = (s.nb.toNat + n.toNat) % 8 ∧
      (∀ k, s.rawLen ≤ k → k < rawLen → m.read (0x8000 + k) ≠ none) ∧
      (∀ a, ¬ (0x8000 + s.rawLen ≤ a ∧ a < 0x8000 + rawLen) → m.read a = s.mem.read a)

/-- A word of WRBITS or RDBITS with a count outside 1 to 32 is well formed, and executing it raises InvalidBitCount,
not IllegalCommand, whatever else the state holds; nothing but STATUS and BUSY changes (R97). -/
def Obligations.BadCountRaisesInvalidBitCount : Prop :=
  ∀ (s : State) (n : BitVec 6), n.toNat = 0 ∨ 33 ≤ n.toNat →
    decode (0x00000020#32 ||| n.setWidth 32 <<< 8) = .ok (.wrbits n) ∧
    decode (0x00000031#32 ||| n.setWidth 32 <<< 8) = .ok (.rdbits n) ∧
    exec (.wrbits n) s = .next { s with error := some ⟨.invalidBitCount, 0x20#8⟩, done := true, pending := none } ∧
    exec (.rdbits n) s = .next { s with error := some ⟨.invalidBitCount, 0x31#8⟩, done := true, pending := none }

/-- A command that would complete a byte beyond RAW_CAP raises BufferFull and changes nothing but STATUS and BUSY:
WRBITS, and WFLUSH and WFINAL with a partial byte (R192, R196, R200, R243). -/
def Obligations.FullWriterRaisesBufferFull : Prop :=
  (∀ (s : State) (n : BitVec 6), 1 ≤ n.toNat → n.toNat ≤ 32 → 4096 < s.rawLen + (s.nb.toNat + n.toNat) / 8 →
    exec (.wrbits n) s = .next { s with error := some ⟨.bufferFull, 0x20#8⟩, done := true, pending := none }) ∧
  (∀ s : State, s.nb ≠ 0#3 → 4096 < s.rawLen + 1 →
    exec .wflush s = .next { s with error := some ⟨.bufferFull, 0x21#8⟩, done := true, pending := none } ∧
    exec .wfinal s = .next { s with error := some ⟨.bufferFull, 0x22#8⟩, done := true, pending := none })

/-- WFLUSH: with no partial byte nothing but DONE and BUSY changes; with one and room in RAW, the stream grows by
zero bits to a whole byte, which is the only byte of memory that changes (R196, R197). -/
def Obligations.WflushPadsWithZeros : Prop :=
  (∀ s : State, s.nb = 0#3 → exec .wflush s = .next { s with done := true, pending := none }) ∧
  (∀ s : State, s.nb ≠ 0#3 → s.rawLen < 4096 →
    ∃ m, let t : State :=
        { s with acc := 0#7, nb := 0#3, rawLen := s.rawLen + 1, mem := m, done := true, pending := none }
      exec .wflush s = .next t ∧ t.stream = s.stream ++ List.replicate (8 - s.nb.toNat) false ∧
      m.read (0x8000 + s.rawLen) ≠ none ∧ (∀ a, a ≠ 0x8000 + s.rawLen → m.read a = s.mem.read a))

/-- WFINAL with room for the flush: the stream is padded as by WFLUSH, OUT holds the stuffed RAW and OUTLEN its
length, at most 8192; memory changes only in the flushed byte and in OUT[0..OUTLEN-1] (R200, R202, R203). -/
def Obligations.WfinalStuffsRawIntoOut : Prop :=
  ∀ s : State, s.rawLen ≤ 4096 → (s.nb ≠ 0#3 → s.rawLen < 4096) →
    ∃ rawLen outLen m, let t : State :=
        { s with
          acc := if s.nb = 0#3 then s.acc else 0#7
          nb := 0#3, rawLen := rawLen, outLen := outLen, mem := m, done := true, pending := none }
      exec .wfinal s = .next t ∧ t.stream = s.stream ++ List.replicate (padCount s.nb.toNat) false ∧
      rawLen = s.rawLen + (if s.nb = 0#3 then 0 else 1) ∧ outLen = (stuff t.rawBytes).length ∧ outLen ≤ 8192 ∧
      (∀ j < outLen, m.read (0xA000 + j) = (stuff t.rawBytes)[j]?) ∧
      (∀ a, ¬ (0x8000 + s.rawLen ≤ a ∧ a < 0x8000 + rawLen) → ¬ (0xA000 ≤ a ∧ a < 0xA000 + outLen) →
        m.read a = s.mem.read a)

/-- Stuffing adds one byte for every 0xFF, and de-stuffing undoes it (R202, R212, R215). -/
def Obligations.DestuffingUndoesStuffing : Prop :=
  ∀ bytes : List Byte, destuff (stuff bytes) = bytes ∧
    (stuff bytes).length = bytes.length + bytes.count 0xFF#8 ∧ (stuff bytes).length ≤ 2 * bytes.length

/-- WRESET empties the writer: ACC, NB, RAWLEN and OUTLEN are 0, and no byte of memory, nor any other field but DONE
and BUSY, changes (R205). -/
def Obligations.WresetEmptiesTheWriter : Prop :=
  ∀ s : State, exec .wreset s =
    .next { s with acc := 0#7, nb := 0#3, rawLen := 0, outLen := 0, done := true, pending := none }

/-- RRESET selects the source, takes its length and rewinds; nothing else changes but DONE and BUSY (R210). -/
def Obligations.RresetSelectsAndRewinds : Prop :=
  ∀ s : State,
    exec (.rreset .rin) s = .next { s with
      rsrc := .rin, rlen := s.rinLen, rp := 0, rb := 0#3, done := true, pending := none } ∧
    exec (.rreset .out) s = .next { s with
      rsrc := .out, rlen := s.outLen, rp := 0, rb := 0#3, done := true, pending := none }

/-- RDBITS n with a legal count, given any readable bytes of the source from RP on: with n data bits in them after
de-stuffing, RES0 is those bits, first bit most significant, and the reader stands after them. Where the last of those
bits ends the last of those bytes, that byte is the source's last or not 0xFF, else the next byte is looked at too.
Where the bytes are all that is left and hold fewer than n bits, RDBITS raises EndOfStream, and RP, RB and RES0 stay.
No other field but DONE, BUSY and, on the error, ERR changes, and no byte of memory (R211, R212, R213). -/
def Obligations.RdbitsReadsDestuffedBits : Prop :=
  ∀ (s : State) (n : BitVec 6) (bytes : List Byte), 1 ≤ n.toNat → n.toNat ≤ 32 → s.sourceStarts bytes →
    let bits := dataBits bytes s.rb.toNat
    (n.toNat < bits.length ∨ (n.toNat = bits.length ∧ (s.sourceEnds bytes ∨ bytes.getLast? ≠ some 0xFF#8)) →
      ∃ p b, exec (.rdbits n) s = .next { s with
          rp := p, rb := b, res0 := BitVec.ofNat 32 (bitsValue (bits.take n.toNat)), done := true, pending := none } ∧
        s.rp ≤ p ∧ p ≤ s.rlen ∧ (p = s.rlen → b = 0#3) ∧
        dataBits (bytes.drop (p - s.rp)) b.toNat = bits.drop n.toNat) ∧
    (bits.length < n.toNat → s.sourceEnds bytes →
      exec (.rdbits n) s = .next { s with error := some ⟨.endOfStream, 0x31#8⟩, done := true, pending := none })

/-- The byte-stuffing round trip: from any state, WRESET, then WRBITS of each value with its count, WFINAL and
RRESET.OUT; reading with the same counts gives every value back, cut to its count. After that only zero pad bits are
left, fewer than 8, and then EndOfStream (R215). -/
def Obligations.WrittenBitsReadBack : Prop :=
  ∀ (s : State) (items : List (BitVec 6 × Word)),
    (∀ x ∈ items, 1 ≤ x.1.toNat ∧ x.1.toNat ≤ 32) →
    (items.map fun x => x.1.toNat).sum ≤ 8 * 4096 →
    ∃ a b c d e, after .wreset s = some a ∧ putAll items a = some b ∧ after .wfinal b = some c ∧
      after (.rreset .out) c = some d ∧
      getAll (items.map Prod.fst) d = some (items.map fun x => BitVec.ofNat 32 (x.2.toNat % 2 ^ x.1.toNat), e) ∧
      ∀ n : BitVec 6, 1 ≤ n.toNat → n.toNat ≤ 32 →
        (n.toNat ≤ padCount (items.map fun x => x.1.toNat).sum →
          ∃ p q, exec (.rdbits n) e = .next { e with rp := p, rb := q, res0 := 0#32, done := true, pending := none }) ∧
        (padCount (items.map fun x => x.1.toNat).sum < n.toNat →
          exec (.rdbits n) e = .next { e with error := some ⟨.endOfStream, 0x31#8⟩, done := true, pending := none })

/-! ## Rules about all commands -/

/-- A command that raises an error changes nothing but ERR, ERRCODE, ERROP, DONE and BUSY, and ERROP is its own OP
(R243). -/
def Obligations.ErrorsChangeStatusOnly : Prop :=
  ∀ (i : Instr) (s t : State), exec i s = .next t → s.error = none → t.error ≠ none →
    ∃ code, t = { s with error := some ⟨code, i.op⟩, done := true, pending := none }

/-- Every command that completes sets DONE and clears BUSY, and no command writes CTRL, DROPPED, CMD, OPA, RINLEN or
what the model keeps for the host's side (log entries 2, 6 and 7) (R25, R31, R37, R232, R236). -/
def Obligations.EveryCommandSetsDone : Prop :=
  ∀ (i : Instr) (s t : State), exec i s = .next t →
    t.done = true ∧ t.pending = none ∧ t.ieDone = s.ieDone ∧ t.ieErr = s.ieErr ∧ t.dropped = s.dropped ∧
      t.cmd = s.cmd ∧ t.opa = s.opa ∧ t.rinLen = s.rinLen ∧ t.host = s.host ∧ t.turns = s.turns ∧
      t.readLog = s.readLog ∧ t.draws = s.draws

/-- Only CATMAG and RDBITS write RES0, and only CATMAG writes RES1 (R26, R27). -/
def Obligations.ResultRegistersHaveFewWriters : Prop :=
  ∀ (i : Instr) (s t : State), exec i s = .next t →
    (t.res0 ≠ s.res0 → i = .catmag ∨ ∃ n, i = .rdbits n) ∧ (t.res1 ≠ s.res1 → i = .catmag)

/-- A byte of memory changes only by the commands that write its buffer: LUT by HTABLE and HCLEAR, FREQ by HCLEAR,
DOUT by FDCT and IDCT, RAW by the three writing commands, OUT by WFINAL, and DIN, QIN and RIN by none; only HBUILD
writes the tree store. The premise on RAWLEN is part of the invariant of a reachable state (R37, R38, R39, R40, R43,
R44, R165, R236). -/
def Obligations.EachBufferHasItsWriters : Prop :=
  ∀ (i : Instr) (s t : State), exec i s = .next t → s.rawLen ≤ 4096 →
    (t.tree ≠ s.tree → ∃ bank, i = .hbuild bank) ∧
    ∀ a, t.mem.read a ≠ s.mem.read a →
      (∃ mode, (i = .fdct mode ∨ i = .idct mode) ∧ 0x600 ≤ a ∧ a < 0x800) ∨
      (∃ bank, i = .hclear bank ∧ ((0x1000 ≤ a ∧ a < 0x1C00) ∨ (0x4000 ≤ a ∧ a < 0x7000))) ∨
      (∃ tree, i = .htable ∧ s.tree = some tree ∧
        0x4000 + 0x1000 * tree.bank.toNat ≤ a ∧ a < 0x5000 + 0x1000 * tree.bank.toNat) ∨
      (((∃ n, i = .wrbits n) ∨ i = .wflush ∨ i = .wfinal) ∧ 0x8000 ≤ a ∧ a < 0x9000) ∨
      (i = .wfinal ∧ 0xA000 ≤ a ∧ a < 0xC000)

/-- Writer commands never change the reader's state, and reader commands never change the writer's state, the tree
or any buffer (R216). -/
def Obligations.WriterAndReaderAreIndependent : Prop :=
  (∀ (i : Instr) (s t : State), ((∃ n, i = .wrbits n) ∨ i = .wflush ∨ i = .wfinal ∨ i = .wreset) →
    exec i s = .next t → t.rsrc = s.rsrc ∧ t.rlen = s.rlen ∧ t.rp = s.rp ∧ t.rb = s.rb) ∧
  (∀ (i : Instr) (s t : State), ((∃ src, i = .rreset src) ∨ ∃ n, i = .rdbits n) →
    exec i s = .next t → t.acc = s.acc ∧ t.nb = s.nb ∧ t.rawLen = s.rawLen ∧ t.outLen = s.outLen ∧
      t.rinLen = s.rinLen ∧ t.tree = s.tree ∧ t.mem = s.mem)

/-- Repeating FDCT or IDCT with the same MODE on the same input gives a bit-identical DOUT, whatever else the two
states hold (R139). -/
def Obligations.DctDependsOnItsInputOnly : Prop :=
  ∀ (mode : DctMode) (s s' t t' : State),
    (exec (.fdct mode) s = .next t → exec (.fdct mode) s' = .next t' →
      (∀ a, 0x200 ≤ a → a < 0x400 → s.mem.read a = s'.mem.read a) →
      ∀ a, 0x600 ≤ a → a < 0x800 → t.mem.read a = t'.mem.read a) ∧
    (exec (.idct mode) s = .next t → exec (.idct mode) s' = .next t' →
      (∀ a, 0x400 ≤ a → a < 0x500 → s.mem.read a = s'.mem.read a) →
      ∀ a, 0x600 ≤ a → a < 0x800 → t.mem.read a = t'.mem.read a)

/-! ## The DCT's arithmetic (40_dct.md) -/

/-- P_ZERO: a block of zeros, of either sign, gives zeros, in both modes and both directions (R128). -/
def Obligations.DctOfZeroIsZero : Prop :=
  (∀ (mode : DctMode) (f : List F64), f.length = 64 → (∀ x ∈ f, x = 0#64 ∨ x = 0x8000000000000000#64) →
    ∀ y ∈ fdct mode f, y = 0#64 ∨ y = 0x8000000000000000#64) ∧
  (∀ mode : DctMode, ∀ y ∈ idct mode (List.replicate 64 0#32), y = 0#64 ∨ y = 0x8000000000000000#64)

/-- The REF datapaths: every entry is the double sum of R133 or R134, accumulated from +0.0 with the outer index
outside and the inner inside, in exactly that order of operations. The FAST datapaths: FWD8 on the rows and then on the
columns, and then DSC; PSC, and then INV8 on the rows and then on the columns. That the model computes with the
datapaths is its choice, which R130 permits (log entry 16) (R130, R133, R134, R135, R136, R137). -/
def Obligations.DatapathsAreTheirFlowgraphs : Prop :=
  (∀ (f : List F64) (u v : Nat), f.length = 64 → f.all Binary64.covered = true → u < 8 → v < 8 →
    let acc := (List.range 8).foldl (fun acc x => (List.range 8).foldl (fun acc y =>
      Binary64.add acc (Binary64.mul (Binary64.mul (f.getD (8 * x + y) 0#64) (cosLookup x u)) (cosLookup y v))) acc) 0#64
    (fdct .ref f)[8 * u + v]? = some (Binary64.mul (Binary64.mul acc (romH u)) (romH v))) ∧
  (∀ (q : List Word) (x y : Nat), q.length = 64 → x < 8 → y < 8 →
    (idct .ref q)[8 * x + y]? = some ((List.range 8).foldl (fun acc u => (List.range 8).foldl (fun acc v =>
      Binary64.add acc (Binary64.mul (Binary64.mul (Binary64.mul (Binary64.mul
        (Binary64.ofInt32 (q.getD (8 * u + v) 0#32)) (romH u)) (romH v)) (cosLookup x u)) (cosLookup y v))) acc) 0#64)) ∧
  (∀ f : List F64, f.length = 64 → f.all Binary64.covered = true →
    ∃ w, IsRowsThenColumns IsFwd8Bits (fun k => f.getD k 0#64) w ∧ ∀ u v, u < 8 → v < 8 →
      (fdct .fast f)[8 * u + v]? = some (Binary64.mul (Binary64.mul (w (8 * u + v)) (romDSC u)) (romDSC v))) ∧
  (∀ q : List Word, q.length = 64 →
    ∃ w, IsRowsThenColumns IsInv8Bits (fun k => Binary64.mul (Binary64.mul
        (Binary64.ofInt32 (q.getD k 0#32)) (romPSC (k / 8))) (romPSC (k % 8))) w ∧
      ∀ k < 64, (idct .fast q)[k]? = some (w k))

/-- FWD8 and INV8 in exact arithmetic with the exact constants are the 1-D transforms, the forward one with gain
k(u) = 2 cos(uπ/16) but for k(0) = 1, the inverse one with each input divided by cos(uπ/16); and the model's
butterflies are FWD8 and INV8 in binary64 (R135, R136). -/
def Obligations.ButterfliesAreScaledTransforms : Prop :=
  (∀ d o : Nat → ℝ, IsFwd8Exact d o →
    ∀ u < 8, o u = gain u * ∑ x ∈ Finset.range 8, d x * exactCos x u) ∧
  (∀ i y : Nat → ℝ, IsInv8Exact i y →
    ∀ x < 8, y x = ∑ u ∈ Finset.range 8, i u * exactCos x u / cosPi u) ∧
  (∀ d : Vec8, IsFwd8Bits (fun k => d.toList.getD k 0#64) fun k => (fwd8 d).toList.getD k 0#64) ∧
  (∀ i : Vec8, IsInv8Bits (fun k => i.toList.getD k 0#64) fun k => (inv8 i).toList.getD k 0#64)

/-- Every constant of the ROM, and so every cosine lookup, is within half a unit in its last place of its exact value
(R131, R132). -/
def Obligations.RomConstantsAreNearest : Prop :=
  (∀ x u : Nat, x < 8 → u < 8 → nearest (cosLookup x u) (exactCos x u)) ∧
  (∀ k < 8, nearest (cosk k) (cosPi k) ∧ nearest (romH k) (normC k / 2) ∧
    nearest (romDSC k) (if k = 0 then 1 / (2 * √2) else 1 / (4 * cosPi k)) ∧
    nearest (romPSC k) (if k = 0 then 1 / (2 * √2) else cosPi k / 2)) ∧
  nearest romA1 (cosPi 4) ∧ nearest romA2 (cosPi 2 - cosPi 6) ∧ nearest romA3 (cosPi 6) ∧
  nearest romA4 (cosPi 2 + cosPi 6) ∧ nearest romB1 √2 ∧ nearest romB2 (2 * cosPi 2) ∧
  nearest romB3 (2 * (cosPi 2 - cosPi 6)) ∧ nearest romB4 (2 * (cosPi 2 + cosPi 6))

/-- Binary64 addition is rounded to nearest with ties to even: no finite encoding is nearer to the exact sum than the
result, and one equally near leaves the result's last bit 0. Stated for finite operands with a
finite result; overflow, operands that are not finite and the sign of a zero sum are not covered (R11, R138). -/
def Obligations.AdditionRoundsToNearestEven : Prop :=
  ∀ a b c : F64, Binary64.isFinite a = true → Binary64.isFinite b = true →
    Binary64.isFinite (Binary64.add a b) = true → Binary64.isFinite c = true →
    let exact := binary64Value a + binary64Value b
    let r := binary64Value (Binary64.add a b)
    |r - exact| ≤ |binary64Value c - exact| ∧
      (|r - exact| = |binary64Value c - exact| → binary64Value c ≠ r → (Binary64.add a b).getLsbD 0 = false)

/-- Binary64 multiplication is rounded to nearest with ties to even. Stated for finite operands with a finite
result; overflow, operands that are not finite and the sign of a zero product are not covered (R11, R138). -/
def Obligations.MultiplicationRoundsToNearestEven : Prop :=
  ∀ a b c : F64, Binary64.isFinite a = true → Binary64.isFinite b = true →
    Binary64.isFinite (Binary64.mul a b) = true → Binary64.isFinite c = true →
    let exact := binary64Value a * binary64Value b
    let r := binary64Value (Binary64.mul a b)
    |r - exact| ≤ |binary64Value c - exact| ∧
      (|r - exact| = |binary64Value c - exact| → binary64Value c ≠ r → (Binary64.mul a b).getLsbD 0 = false)

/-- Every QIN value is converted to binary64 exactly (R124). -/
def Obligations.IntegerConversionIsExact : Prop :=
  ∀ q : Word, Binary64.isFinite (Binary64.ofInt32 q) = true ∧ Binary64.covered (Binary64.ofInt32 q) = true ∧
    binary64Value (Binary64.ofInt32 q) = (q.toInt : ℚ)

/-! ## The host's accesses (20_memory.md) -/

/-- A CMD write while ERR = 1 is dropped, whatever the word: CMD takes it, DROPPED and DONE are set, and nothing else
changes. No command is pending while ERR = 1 where the engine's invariant holds, so none executes (R245). -/
def Obligations.FailStopDropsCommands : Prop :=
  ∀ (s : State) (w : Word) (r : ErrorRecord), s.error = some r →
    hostEvent (.write .w32 0x010#16 w) s = .next { s with cmd := w, dropped := true, done := true } ∧
    (EngineInv s → s.pending = none)

/-- A read of STATUS returns BUSY, DONE, ERR, DROPPED, ERRCODE, ERROP and IRQ at their places, and every reserved bit
0; IRQ is (DONE and IE_DONE) or (ERR and IE_ERR), ERRCODE is the number of the error, and ERRCODE and ERROP are 0 while
ERR = 0. The read log and the draw counter are the model's own (log entries 2 and 6) (R23, R241, R250). -/
def Obligations.StatusWordShowsTheFlags : Prop :=
  ∀ s : State, ∃ v, s.readsAs 0x00C#16 v ∧
    v.getLsbD 0 = s.pending.isSome ∧ v.getLsbD 1 = s.done ∧ v.getLsbD 2 = s.error.isSome ∧ v.getLsbD 3 = s.dropped ∧
    v.extractLsb' 4 4 = 0#4 ∧
    (v.extractLsb' 8 4).toNat = (match s.error.map ErrorRecord.code with
      | none => 0
      | some .illegalCommand => 1
      | some .invalidBitCount => 2
      | some .endOfStream => 3
      | some .emptyAlphabet => 4
      | some .noTree => 5
      | some .bufferFull => 6
      | some .codeTooLong => 7) ∧
    v.extractLsb' 12 4 = 0#4 ∧ v.extractLsb' 16 8 = (match s.error with | none => 0#8 | some r => r.op) ∧
    v.extractLsb' 24 7 = 0#7 ∧ v.getLsbD 31 = ((s.done && s.ieDone) || (s.error.isSome && s.ieErr))

/-- A read of each other register returns the state at its place, and 0 in every reserved bit: CTRL, CMD, OPA, RES0,
RES1, WSTAT with the bits of ACC at or above NB 0, RAWLEN, OUTLEN, RINLEN, RPOS, RLEN and TREEINFO. The read log and the
draw counter are the model's own (log entries 2 and 6) (R22, R24, R25, R26, R27, R28, R29, R30, R31, R32, R34, R35). -/
def Obligations.RegisterReadsShowTheState : Prop :=
  ∀ s : State,
    (∃ v, s.readsAs 0x008#16 v ∧ v.toNat = 2 * s.ieDone.toNat + 4 * s.ieErr.toNat) ∧
    s.readsAs 0x010#16 s.cmd ∧ s.readsAs 0x014#16 s.opa ∧ s.readsAs 0x018#16 s.res0 ∧ s.readsAs 0x01C#16 s.res1 ∧
    (∃ v, s.readsAs 0x020#16 v ∧ v.toNat = s.nb.toNat + 256 * (s.acc.toNat % 2 ^ s.nb.toNat)) ∧
    s.readsAs 0x024#16 (BitVec.ofNat 32 s.rawLen) ∧ s.readsAs 0x028#16 (BitVec.ofNat 32 s.outLen) ∧
    s.readsAs 0x02C#16 (BitVec.ofNat 32 s.rinLen) ∧
    (∃ v, s.readsAs 0x030#16 v ∧
      v.toNat = s.rb.toNat + 8 * (s.rp % 2 ^ 14) + (match s.rsrc with | .rin => 0 | .out => 2 ^ 31)) ∧
    s.readsAs 0x034#16 (BitVec.ofNat 32 s.rlen) ∧
    (∃ v, s.readsAs 0x038#16 v ∧ v.toNat = (match s.tree with
      | none => 0
      | some t => 1 + 2 * t.bank.toNat + 256 * (t.root.leaves.length % 512)))

/-- A CTRL write with SRST: every register and field takes its reset value, the enables those of the written value;
FREQ and LUT are 0; every other byte stays, but for DOUT where an FDCT or IDCT was pending, which no rule constrains.
What the model keeps for the host's side (log entries 2, 6 and 7) stays but for the draw counter (R22, R51, R282,
R283). -/
def Obligations.SoftResetResetsTheRegisters : Prop :=
  ∀ (s : State) (v : Word), v.getLsbD 0 = true →
    ∃ m, hostEvent (.write .w32 0x008#16 v) s = .next { State.reset with
        ieDone := v.getLsbD 1, ieErr := v.getLsbD 2, mem := m, host := s.host, turns := s.turns,
        readLog := s.readLog, draws := s.draws + 1 } ∧
      (∀ a, (0x1000 ≤ a ∧ a < 0x1C00) ∨ (0x4000 ≤ a ∧ a < 0x7000) → m.read a = some 0#8) ∧
      (∀ a, ¬ (0x1000 ≤ a ∧ a < 0x1C00) → ¬ (0x4000 ≤ a ∧ a < 0x7000) → ¬ (0x600 ≤ a ∧ a < 0x800) →
        m.read a = s.mem.read a) ∧
      ((∀ w mode, s.pending = some w → decode w ≠ .ok (.fdct mode) ∧ decode w ≠ .ok (.idct mode)) →
        ∀ a, 0x600 ≤ a → a < 0x800 → m.read a = s.mem.read a)

/-- A hard reset puts the whole JBTE into the reset state, also while a command is pending: every register and field
is 0 or empty, FREQ and LUT are 0, and no other buffer has a written byte; what the model keeps for the host's side
(log entries 2, 6 and 7) stays (R50, R51, R280). -/
def Obligations.HardResetResetsEverything : Prop :=
  ∀ s : State, ∃ m, hostEvent .hardReset s = .next
      { ieDone := false, ieErr := false, done := false, error := none, dropped := false, cmd := 0#32, opa := 0#32,
        res0 := 0#32, res1 := 0#32, acc := 0#7, nb := 0#3, rawLen := 0, outLen := 0, rinLen := 0, rsrc := .rin,
        rlen := 0, rp := 0, rb := 0#3, tree := none, pending := none, mem := m,
        host := s.host, turns := s.turns, readLog := s.readLog, draws := s.draws } ∧
    (∀ a, (0x1000 ≤ a ∧ a < 0x1C00) ∨ (0x4000 ≤ a ∧ a < 0x7000) → m.read a = some 0#8) ∧
    (∀ a, ¬ (0x1000 ≤ a ∧ a < 0x1C00) → ¬ (0x4000 ≤ a ∧ a < 0x7000) → m.read a = none)

/-- A host access that is not 32 bits wide at a multiple of 4 is a bus error, a read and a write alike (R61). -/
def Obligations.MalformedAccessesAreBusErrors : Prop :=
  ∀ (s : State) (width : Width) (off : BitVec 16) (v : Word), width ≠ .w32 ∨ off.toNat % 4 ≠ 0 →
    hostEvent (.read width off) s = .fault (.busError off) ∧ hostEvent (.write width off v) s = .fault (.busError off)

/-- While BUSY = 1 every access waits but reads of ID and VERSION and accesses to CTRL and STATUS; the hard reset does
not wait. So a write to ID or VERSION waits, and an access to a reserved offset: the model follows R231, D41 and U15 there
and not the last sentence of R67 (log entry 12). An access that is a bus error waits as its target does (log entry 11)
(R65, R231). -/
def Obligations.HeldAccessesAreAllButTheControlRegisters : Prop :=
  (∀ (width : Width) (off : BitVec 16) (v : Word),
    ((HostEvent.read width off).held = false ↔ off.toNat < 0x010) ∧
    ((HostEvent.write width off v).held = false ↔ 0x008 ≤ off.toNat ∧ off.toNat < 0x010)) ∧
  HostEvent.hardReset.held = false

/-- A legal read changes nothing of the JBTE; ID, VERSION and the reserved offsets read as constants, a buffer reads
as the bytes it holds, RAW below RAWLEN and OUT below OUTLEN, and a LUT word with its reserved bits 0. A write to a
reserved offset, to ID or VERSION, to a read-only register or to DOUT, LUT, RAW or OUT is ignored. What a byte without
a value reads as is left open (log entry 2). The read log and the draw counter are the model's own (log entries 2 and
6) (R20, R21, R40, R42, R43, R44, R62, R66, R67, R68, R77). -/
def Obligations.LegalAccessesFollowTheMap : Prop :=
  (∀ (s : State) (off : BitVec 16), off.toNat % 4 = 0 → ∃ v, s.readsAs off v ∧
    ((0x03C ≤ off.toNat ∧ off.toNat < 0x200) ∨ (0x500 ≤ off.toNat ∧ off.toNat < 0x600) ∨
      (0x800 ≤ off.toNat ∧ off.toNat < 0x1000) ∨ (0x1C00 ≤ off.toNat ∧ off.toNat < 0x4000) ∨
      (0x7000 ≤ off.toNat ∧ off.toNat < 0x8000) ∨ (0x9000 ≤ off.toNat ∧ off.toNat < 0xA000) ∨
      0xE000 ≤ off.toNat → v = 0#32) ∧ (off.toNat = 0 → v = 0x4A425445#32) ∧ (off.toNat = 4 → v = 0x00010000#32) ∧
    (∀ j < 4, ∀ b, s.mem.read (off.toNat + j) = some b →
      (0x200 ≤ off.toNat ∧ off.toNat < 0x500) ∨ (0x600 ≤ off.toNat ∧ off.toNat < 0x800) ∨
        (0x1000 ≤ off.toNat ∧ off.toNat < 0x1C00) ∨ (0xC000 ≤ off.toNat ∧ off.toNat < 0xE000) ∨
        (0x8000 ≤ off.toNat ∧ off.toNat < 0x9000 ∧ off.toNat + j < 0x8000 + s.rawLen) ∨
        (0xA000 ≤ off.toNat ∧ off.toNat < 0xC000 ∧ off.toNat + j < 0xA000 + s.outLen) →
      v.extractLsb' (8 * j) 8 = b)) ∧
  (∀ (s : State) (bank : BitVec 2) (sym : Nat), bank ≠ 3#2 → sym < 256 →
    let a := 0x4000 + 0x1000 * bank.toNat + 16 * sym
    let e := s.mem.lutEntry bank sym
    s.readsAs (BitVec.ofNat 16 a) (e.code.extractLsb' 0 32) ∧
    s.readsAs (BitVec.ofNat 16 (a + 4)) (e.code.extractLsb' 32 32) ∧
    (∃ v, s.readsAs (BitVec.ofNat 16 (a + 8)) v ∧ v.toNat = e.len.toNat + (if e.valid then 2 ^ 31 else 0)) ∧
    s.readsAs (BitVec.ofNat 16 (a + 12)) 0#32) ∧
  (∀ (s : State) (off : BitVec 16) (v : Word), off.toNat % 4 = 0 →
    off.toNat < 0x008 ∨ (0x018 ≤ off.toNat ∧ off.toNat < 0x02C) ∨ (0x030 ≤ off.toNat ∧ off.toNat < 0x200) ∨
      (0x500 ≤ off.toNat ∧ off.toNat < 0x1000) ∨ (0x1C00 ≤ off.toNat ∧ off.toNat < 0xC000) ∨ 0xE000 ≤ off.toNat →
    hostEvent (.write .w32 off v) s = .next s)

/-- A word written to DIN, QIN, FREQ or RIN is what the next read there returns; the write changes those four bytes
and nothing else. The read log and the draw counter are the model's own (log entries 2 and 6) (R62, R63, R71). -/
def Obligations.BufferWordsReadBack : Prop :=
  ∀ (s : State) (off : BitVec 16) (v : Word), off.toNat % 4 = 0 →
    (0x200 ≤ off.toNat ∧ off.toNat < 0x500) ∨ (0x1000 ≤ off.toNat ∧ off.toNat < 0x1C00) ∨
      (0xC000 ≤ off.toNat ∧ off.toNat < 0xE000) →
    ∃ m, hostEvent (.write .w32 off v) s = .next { s with mem := m } ∧
      (∀ t : State, t.mem = m → t.readsAs off v) ∧
      (∀ j < 4, m.read (off.toNat + j) = some (v.extractLsb' (8 * j) 8)) ∧
      (∀ a, ¬ (off.toNat ≤ a ∧ a < off.toNat + 4) → m.read a = s.mem.read a)

/-- A CTRL write without SRST stores the two enables; a STATUS write clears each W1C bit with a 1 in the written
value, ERRCODE and ERROP with ERR; a CMD write while ERR = 0 makes the word pending; OPA takes the written value, and
RINLEN takes it up to RIN_CAP. Nothing else changes (R22, R23, R25, R31, R230, R247). -/
def Obligations.RegisterWritesTakeTheirValues : Prop :=
  ∀ (s : State) (v : Word),
    (v.getLsbD 0 = false →
      hostEvent (.write .w32 0x008#16 v) s = .next { s with ieDone := v.getLsbD 1, ieErr := v.getLsbD 2 }) ∧
    (∃ done error dropped,
      hostEvent (.write .w32 0x00C#16 v) s = .next { s with done := done, error := error, dropped := dropped } ∧
      done = (if v.getLsbD 1 = true then false else s.done) ∧
      error = (if v.getLsbD 2 = true then none else s.error) ∧
      dropped = (if v.getLsbD 3 = true then false else s.dropped)) ∧
    (s.error = none → hostEvent (.write .w32 0x010#16 v) s = .next { s with cmd := v, pending := some v }) ∧
    hostEvent (.write .w32 0x014#16 v) s = .next { s with opa := v } ∧
    hostEvent (.write .w32 0x02C#16 v) s = .next { s with rinLen := if v.toNat ≤ 8192 then v.toNat else 8192 }

/-! ## Invariants -/

/-- The reset state has every register and field of the JBTE at 0 or empty, FREQ and LUT 0 and no other byte written,
and it meets every invariant below (R50, R51). -/
def Obligations.ResetMeetsTheInvariants : Prop :=
  (let s := State.reset
   s.ieDone = false ∧ s.ieErr = false ∧ s.done = false ∧ s.error = none ∧ s.dropped = false ∧ s.cmd = 0#32 ∧
     s.opa = 0#32 ∧ s.res0 = 0#32 ∧ s.res1 = 0#32 ∧ s.acc = 0#7 ∧ s.nb = 0#3 ∧ s.rawLen = 0 ∧ s.outLen = 0 ∧
     s.rinLen = 0 ∧ s.rsrc = .rin ∧ s.rlen = 0 ∧ s.rp = 0 ∧ s.rb = 0#3 ∧ s.tree = none ∧ s.pending = none ∧
     (∀ a, (0x1000 ≤ a ∧ a < 0x1C00) ∨ (0x4000 ≤ a ∧ a < 0x7000) → s.mem.read a = some 0#8) ∧
     (∀ a, ¬ (0x1000 ≤ a ∧ a < 0x1C00) → ¬ (0x4000 ≤ a ∧ a < 0x7000) → s.mem.read a = none)) ∧
  State.reset.mem.wf = true ∧ WriterInv State.reset ∧ OutInv State.reset ∧ ReaderInv State.reset ∧
    EngineInv State.reset ∧ LutInv State.reset ∧ TreeInv State.reset

/-- Every step keeps the memory's canonical form, which is the model's own: offsets rising, and no entry equal to what
an unlisted offset reads as (log entry 10) (R50, R51). -/
def Obligations.StepKeepsMemoryCanonical : Prop :=
  ∀ s t : State, s.mem.wf = true → step s = .next t → t.mem.wf = true

/-- Every step keeps the writer's, OUT's, the reader's and the engine's invariant: the pending bits fit NB, the
lengths their buffers, RAW and OUT are written below their lengths, RP is legal, and a command is pending only while
ERR = 0 (R46, R48, R49, R203, R214, R230). -/
def Obligations.StepKeepsTheStreamInvariants : Prop :=
  ∀ s t : State, WriterInv s → OutInv s → ReaderInv s → EngineInv s → step s = .next t →
    WriterInv t ∧ OutInv t ∧ ReaderInv t ∧ EngineInv t

/-- Every step keeps the tables' and the tree store's invariant: every LUT entry is as R42 says, and a tree in the
store has the shape of R156 and R158 (R42, R47, R157, R158). -/
def Obligations.StepKeepsTablesAndTree : Prop :=
  ∀ s t : State, LutInv s → TreeInv s → step s = .next t → LutInv t ∧ TreeInv t
end

