-- ==== Sys2Proof/Laws/Memory.lean ====
section
/-! SUPPORT. The laws of the buffer memory: what a read finds after a write or a clear, and that every memory
operation keeps the canonical form. -/

namespace Sys2Proof.Machine

/-! ## Lookup -/

theorem lookup_cons_ne (a k : Nat) (b : Byte) (m : Memory) (h : a ≠ k) :
    List.lookup a ((k, b) :: m) = List.lookup a m := by
  rw [List.lookup_cons, show (a == k) = false from beq_eq_false_iff_ne.mpr h]

theorem lookup_filter_key (m : Memory) (p : Nat → Bool) (a : Nat) :
    (m.filter fun c => p c.1).lookup a = if p a then m.lookup a else none := by
  induction m with
  | nil => simp
  | cons c m ih =>
    obtain ⟨k, b⟩ := c
    by_cases h : p k
    · rw [List.filter_cons_of_pos (by simpa using h)]
      by_cases ha : a = k
      · subst ha; simp [h]
      · rw [lookup_cons_ne _ _ _ _ ha, lookup_cons_ne _ _ _ _ ha, ih]
    · rw [List.filter_cons_of_neg (by simpa using h), ih]
      by_cases ha : a = k
      · subst ha; simp [h]
      · rw [lookup_cons_ne _ _ _ _ ha]

theorem cells_cons (base : Nat) (b : Byte) (bs : List Byte) :
    Memory.cells base (b :: bs) =
      if Memory.blank base = some b then Memory.cells (base + 1) bs else (base, b) :: Memory.cells (base + 1) bs :=
  rfl

theorem lookup_cells_outside (bs : List Byte) (base a : Nat) (h : ¬ (base ≤ a ∧ a < base + bs.length)) :
    (Memory.cells base bs).lookup a = none := by
  induction bs generalizing base with
  | nil => simp [Memory.cells]
  | cons b bs ih =>
    have h' : ¬ (base + 1 ≤ a ∧ a < base + 1 + bs.length) := by simp at h; omega
    have ha : a ≠ base := by simp at h; omega
    rw [cells_cons]
    split
    · exact ih _ h'
    · rw [lookup_cons_ne _ _ _ _ ha, ih _ h']

theorem lookup_cells (bs : List Byte) (base a : Nat) :
    ((Memory.cells base bs).lookup a).or (Memory.blank a) =
      if base ≤ a ∧ a < base + bs.length then bs[a - base]? else Memory.blank a := by
  induction bs generalizing base with
  | nil => simp [Memory.cells]
  | cons b bs ih =>
    rw [cells_cons]
    by_cases ha : a = base
    · subst ha
      have hin : a ≤ a ∧ a < a + (b :: bs).length := by simp
      rw [if_pos hin]
      split
      · rename_i hb
        rw [lookup_cells_outside bs (a + 1) a (by omega)]
        simp [hb]
      · simp
    · have hstep : (if Memory.blank base = some b then Memory.cells (base + 1) bs
          else (base, b) :: Memory.cells (base + 1) bs).lookup a = (Memory.cells (base + 1) bs).lookup a := by
        split
        · rfl
        · exact lookup_cons_ne _ _ _ _ ha
      rw [hstep, ih]
      by_cases hr : base + 1 ≤ a ∧ a < base + 1 + bs.length
      · have h1 : base ≤ a ∧ a < base + (b :: bs).length := by simp; omega
        rw [if_pos hr, if_pos h1, show a - base = (a - (base + 1)) + 1 by omega]
        simp
      · have h1 : ¬ (base ≤ a ∧ a < base + (b :: bs).length) := by simp; omega
        rw [if_neg hr, if_neg h1]

/-! ## Reads after writes -/

/-- What a read finds after a write: the written byte inside the range, what it found before elsewhere. -/
theorem Memory.read_splice (m : Memory) (base : Nat) (bs : List Byte) (a : Nat) :
    (m.splice base bs).read a = if base ≤ a ∧ a < base + bs.length then bs[a - base]? else m.read a := by
  unfold Memory.splice Memory.read
  rw [List.lookup_append, List.lookup_append]
  rw [lookup_filter_key m (fun k => decide (k < base)), lookup_filter_key m (fun k => decide (base + bs.length ≤ k))]
  by_cases h : base ≤ a ∧ a < base + bs.length
  · have h1 : ¬ a < base := by omega
    have h2 : ¬ base + bs.length ≤ a := by omega
    have := lookup_cells bs base a
    simpa [h, h1, h2] using this
  · rw [lookup_cells_outside bs base a h]
    by_cases h1 : a < base
    · have h2 : ¬ base + bs.length ≤ a := by omega
      simp [h, h1, h2]
    · have h2 : base + bs.length ≤ a := by omega
      simp [h, h1, h2]

@[simp] theorem Memory.read_splice_outside (m : Memory) (base : Nat) (bs : List Byte) (a : Nat)
    (h : ¬ (base ≤ a ∧ a < base + bs.length)) : (m.splice base bs).read a = m.read a := by
  rw [Memory.read_splice, if_neg h]

/-- What a read finds after a clear: the reset value inside the range, what it found before elsewhere. -/
theorem Memory.read_clear (m : Memory) (base size a : Nat) :
    (m.clear base size).read a = if base ≤ a ∧ a < base + size then Memory.blank a else m.read a := by
  unfold Memory.clear Memory.read
  rw [lookup_filter_key m (fun k => decide (k < base ∨ base + size ≤ k))]
  by_cases h : base ≤ a ∧ a < base + size
  · have h1 : ¬ (a < base ∨ base + size ≤ a) := by omega
    simp [h, h1]
  · have h1 : a < base ∨ base + size ≤ a := by omega
    simp [h, h1]

theorem length_bytesOfWord (w : Word) : (bytesOfWord w).length = 4 := rfl

theorem length_bytesOfF64 (x : F64) : (bytesOfF64 x).length = 8 := rfl

theorem length_lutEntry_bytes (e : LutEntry) : e.bytes.length = 16 := rfl

/-- The four bytes of a word make the word again (R62). -/
theorem wordOfBytes_bytes (w : Word) :
    wordOfBytes (w.extractLsb' 0 8) (w.extractLsb' 8 8) (w.extractLsb' 16 8) (w.extractLsb' 24 8) = w := by
  unfold wordOfBytes
  apply BitVec.eq_of_getLsbD_eq
  intro i hi
  simp only [BitVec.getLsbD_append, BitVec.getLsbD_extractLsb']
  by_cases h1 : i < 8
  · simp [h1]
  · by_cases h2 : i - 8 < 8
    · simp [h1, h2]; congr 1; omega
    · by_cases h3 : i - 8 - 8 < 8
      · simp [h1, h2, h3]; congr 1; omega
      · have h4 : i - 8 - 8 - 8 < 8 := by omega
        simp [h1, h2, h3, h4]; congr 1; omega

/-- A word write and a word read at the same offset (R62, R71). -/
theorem Memory.readWord_writeWord (m : Memory) (a : Nat) (w : Word) : (m.writeWord a w).readWord a = some w := by
  have hlen : (bytesOfWord w).length = 4 := rfl
  have hread : ∀ j < 4, (m.splice a (bytesOfWord w)).read (a + j) = (bytesOfWord w)[j]? := by
    intro j hj
    rw [Memory.read_splice, if_pos (by omega), Nat.add_sub_cancel_left]
  have h0 := hread 0 (by omega)
  unfold Memory.readWord Memory.writeWord
  rw [Nat.add_zero] at h0
  rw [h0, hread 1 (by omega), hread 2 (by omega), hread 3 (by omega)]
  simp [bytesOfWord, wordOfBytes_bytes]

/-- A word read that no written byte reaches (R71). -/
theorem Memory.readWord_splice_outside (m : Memory) (base : Nat) (bs : List Byte) (a : Nat)
    (h : a + 4 ≤ base ∨ base + bs.length ≤ a) : (m.splice base bs).readWord a = m.readWord a := by
  unfold Memory.readWord
  rw [Memory.read_splice_outside _ _ _ _ (by omega), Memory.read_splice_outside _ _ _ _ (by omega),
    Memory.read_splice_outside _ _ _ _ (by omega), Memory.read_splice_outside _ _ _ _ (by omega)]

/-! ## Blocks of words and of entries -/

/-- An element of a list that is made of chunks of `n` bytes, one for each element of `xs`. -/
theorem getElem?_chunks {α : Type} (chunk : α → List Byte) (n : Nat) (hn : ∀ x, (chunk x).length = n) (xs : List α)
    (k j : Nat) (hj : j < n) : (xs.flatMap chunk)[n * k + j]? = xs[k]?.bind fun x => (chunk x)[j]? := by
  induction xs generalizing k with
  | nil => simp
  | cons x xs ih =>
    rw [List.flatMap_cons, List.getElem?_append, hn]
    cases k with
    | zero => simp [hj]
    | succ k =>
      have h1 : ¬ n * (k + 1) + j < n := by rw [Nat.mul_succ]; omega
      have h2 : n * (k + 1) + j - n = n * k + j := by rw [Nat.mul_succ]; omega
      rw [if_neg h1, h2, ih]
      simp

theorem length_chunks {α : Type} (chunk : α → List Byte) (n : Nat) (hn : ∀ x, (chunk x).length = n) (xs : List α) :
    (xs.flatMap chunk).length = n * xs.length := by
  induction xs with
  | nil => simp
  | cons x xs ih => rw [List.flatMap_cons, List.length_append, hn, ih, List.length_cons, Nat.mul_succ, Nat.add_comm]

/-- A byte of a block after the block is written. -/
theorem Memory.read_splice_chunks {α : Type} (m : Memory) (base : Nat) (chunk : α → List Byte) (n : Nat)
    (hn : ∀ x, (chunk x).length = n) (xs : List α) (k j : Nat) (hk : k < xs.length) (hj : j < n) :
    (m.splice base (xs.flatMap chunk)).read (base + (n * k + j)) = xs[k]?.bind fun x => (chunk x)[j]? := by
  have hle : n * (k + 1) ≤ n * xs.length := Nat.mul_le_mul_left n hk
  rw [Nat.mul_succ] at hle
  rw [Memory.read_splice, length_chunks chunk n hn, if_pos (by omega), Nat.add_sub_cancel_left,
    getElem?_chunks chunk n hn xs k j hj]

/-- A word of a block after the block is written (R62). -/
theorem Memory.readWord_splice_words (m : Memory) (base : Nat) (ws : List Word) (k : Nat) (hk : k < ws.length) :
    (m.splice base (ws.flatMap bytesOfWord)).readWord (base + 4 * k) = ws[k]? := by
  have h := fun j (hj : j < 4) => Memory.read_splice_chunks m base bytesOfWord 4 length_bytesOfWord ws k j hk hj
  have h0 := h 0 (by omega)
  rw [Nat.add_zero] at h0
  unfold Memory.readWord
  rw [h0, Nat.add_assoc base, Nat.add_assoc base, Nat.add_assoc base, h 1 (by omega), h 2 (by omega), h 3 (by omega)]
  simp [List.getElem?_eq_getElem hk, bytesOfWord, wordOfBytes_bytes]

/-- The two halves of an entry make the entry again (R63). -/
theorem halves_append (x : F64) : x.extractLsb' 32 32 ++ x.extractLsb' 0 32 = x := by
  apply BitVec.eq_of_getLsbD_eq
  intro i hi
  simp only [BitVec.getLsbD_append, BitVec.getLsbD_extractLsb']
  by_cases h : i < 32
  · simp [h]
  · have h2 : i - 32 < 32 := by omega
    simp [h, h2]; congr 1; omega

/-- An entry of a block after the block is written (R63). -/
theorem Memory.readF64_splice_entries (m : Memory) (base : Nat) (xs : List F64) (k : Nat) (hk : k < xs.length) :
    (m.splice base (xs.flatMap bytesOfF64)).readF64 (base + 8 * k) = xs[k]? := by
  have h := fun j (hj : j < 8) => Memory.read_splice_chunks m base bytesOfF64 8 length_bytesOfF64 xs k j hk hj
  have h0 := h 0 (by omega)
  rw [Nat.add_zero] at h0
  unfold Memory.readF64 Memory.readWord
  simp only [Nat.add_assoc, Nat.reduceAdd]
  rw [h0, h 1 (by omega), h 2 (by omega), h 3 (by omega), h 4 (by omega), h 5 (by omega), h 6 (by omega), h 7 (by omega)]
  simp only [List.getElem?_eq_getElem hk, Option.bind_some, bytesOfF64, bytesOfWord, List.cons_append, List.nil_append,
    List.getElem?_cons_zero, List.getElem?_cons_succ, wordOfBytes_bytes, halves_append]

/-- Reading `n` words is reading each of them. -/
theorem Memory.readWords_eq_some (m : Memory) (n a : Nat) (ws : List Word) :
    m.readWords a n = some ws ↔ ws.length = n ∧ ∀ k < n, m.readWord (a + 4 * k) = ws[k]? := by
  induction n generalizing a ws with
  | zero => cases ws <;> simp [Memory.readWords]
  | succ n ih =>
    rw [Memory.readWords]
    constructor
    · intro h
      cases hw : m.readWord a with
      | none => simp [hw] at h
      | some w =>
        cases hr : m.readWords (a + 4) n with
        | none => simp [hw, hr] at h
        | some rest =>
          simp only [hw, hr, Option.some.injEq] at h
          subst h
          obtain ⟨hl, hk⟩ := (ih _ _).1 hr
          refine ⟨by simp [hl], fun k hk' => ?_⟩
          cases k with
          | zero => simpa using hw
          | succ k =>
            have := hk k (by omega)
            rw [show a + 4 * (k + 1) = a + 4 + 4 * k by omega]
            simpa using this
    · rintro ⟨hl, hk⟩
      cases ws with
      | nil => simp at hl
      | cons w rest =>
        have h0 : m.readWord a = some w := by simpa using hk 0 (by omega)
        have hr : m.readWords (a + 4) n = some rest := by
          refine (ih _ _).2 ⟨by simpa using hl, fun k hk' => ?_⟩
          have := hk (k + 1) (by omega)
          rw [show a + 4 * (k + 1) = a + 4 + 4 * k by omega] at this
          simpa using this
        simp [h0, hr]

/-- Reading `n` entries is reading each of them. -/
theorem Memory.readF64s_eq_some (m : Memory) (n a : Nat) (xs : List F64) :
    m.readF64s a n = some xs ↔ xs.length = n ∧ ∀ k < n, m.readF64 (a + 8 * k) = xs[k]? := by
  induction n generalizing a xs with
  | zero => cases xs <;> simp [Memory.readF64s]
  | succ n ih =>
    rw [Memory.readF64s]
    constructor
    · intro h
      cases hw : m.readF64 a with
      | none => simp [hw] at h
      | some w =>
        cases hr : m.readF64s (a + 8) n with
        | none => simp [hw, hr] at h
        | some rest =>
          simp only [hw, hr, Option.some.injEq] at h
          subst h
          obtain ⟨hl, hk⟩ := (ih _ _).1 hr
          refine ⟨by simp [hl], fun k hk' => ?_⟩
          cases k with
          | zero => simpa using hw
          | succ k =>
            have := hk k (by omega)
            rw [show a + 8 * (k + 1) = a + 8 + 8 * k by omega]
            simpa using this
    · rintro ⟨hl, hk⟩
      cases xs with
      | nil => simp at hl
      | cons w rest =>
        have h0 : m.readF64 a = some w := by simpa using hk 0 (by omega)
        have hr : m.readF64s (a + 8) n = some rest := by
          refine (ih _ _).2 ⟨by simpa using hl, fun k hk' => ?_⟩
          have := hk (k + 1) (by omega)
          rw [show a + 8 * (k + 1) = a + 8 + 8 * k by omega] at this
          simpa using this
        simp [h0, hr]

/-! ## The canonical form -/

theorem Memory.wf_iff (m : Memory) :
    m.wf = true ↔ m.Pairwise (fun c d => c.1 < d.1) ∧ ∀ c ∈ m, Memory.blank c.1 ≠ some c.2 := by
  simp [Memory.wf]

theorem Memory.wf_nil : Memory.wf [] = true := rfl

theorem cells_bounds (bs : List Byte) (base : Nat) :
    ∀ c ∈ Memory.cells base bs, base ≤ c.1 ∧ c.1 < base + bs.length ∧ Memory.blank c.1 ≠ some c.2 := by
  induction bs generalizing base with
  | nil => simp [Memory.cells]
  | cons b bs ih =>
    intro c hc
    rw [cells_cons] at hc
    split at hc
    · obtain ⟨h1, h2, h3⟩ := ih (base + 1) c hc
      exact ⟨by omega, by simp; omega, h3⟩
    · rcases List.mem_cons.mp hc with rfl | hc
      · exact ⟨Nat.le_refl _, by simp, by assumption⟩
      · obtain ⟨h1, h2, h3⟩ := ih (base + 1) c hc
        exact ⟨by omega, by simp; omega, h3⟩

theorem cells_pairwise (bs : List Byte) (base : Nat) :
    (Memory.cells base bs).Pairwise fun c d => c.1 < d.1 := by
  induction bs generalizing base with
  | nil => simp [Memory.cells]
  | cons b bs ih =>
    rw [cells_cons]
    split
    · exact ih _
    · refine List.pairwise_cons.mpr ⟨fun c hc => ?_, ih _⟩
      have := cells_bounds bs (base + 1) c hc
      omega

/-- A write keeps the canonical form. -/
theorem Memory.wf_splice (m : Memory) (base : Nat) (bs : List Byte) (h : m.wf = true) :
    (m.splice base bs).wf = true := by
  rw [Memory.wf_iff] at h ⊢
  obtain ⟨hs, hb⟩ := h
  unfold Memory.splice
  refine ⟨?_, ?_⟩
  · refine List.pairwise_append.mpr ⟨List.pairwise_append.mpr ⟨hs.filter _, cells_pairwise _ _, ?_⟩, hs.filter _, ?_⟩
    · intro c hc d hd
      have h1 := (List.mem_filter.mp hc).2
      have h2 := cells_bounds bs base d hd
      simp at h1; omega
    · intro c hc d hd
      have h2 := (List.mem_filter.mp hd).2
      simp at h2
      rcases List.mem_append.mp hc with hc | hc
      · have h1 := (List.mem_filter.mp hc).2
        simp at h1; omega
      · have h1 := cells_bounds bs base c hc
        omega
  · intro c hc
    rcases List.mem_append.mp hc with hc | hc
    · rcases List.mem_append.mp hc with hc | hc
      · exact hb c (List.mem_filter.mp hc).1
      · exact (cells_bounds bs base c hc).2.2
    · exact hb c (List.mem_filter.mp hc).1

/-- A clear keeps the canonical form. -/
theorem Memory.wf_clear (m : Memory) (base size : Nat) (h : m.wf = true) : (m.clear base size).wf = true := by
  rw [Memory.wf_iff] at h ⊢
  exact ⟨h.1.filter _, fun c hc => h.2 c (List.mem_filter.mp hc).1⟩

/-- A word write keeps the canonical form. -/
theorem Memory.wf_writeWord (m : Memory) (a : Nat) (w : Word) (h : m.wf = true) : (m.writeWord a w).wf = true :=
  Memory.wf_splice _ _ _ h

/-- A DOUT write keeps the canonical form. -/
theorem Memory.wf_writeDout (m : Memory) (f : List F64) (h : m.wf = true) : (m.writeDout f).wf = true :=
  Memory.wf_splice _ _ _ h

/-- A LUT write keeps the canonical form. -/
theorem Memory.wf_writeLut (m : Memory) (bank : BitVec 2) (t : List LutEntry) (h : m.wf = true) :
    (m.writeLut bank t).wf = true :=
  Memory.wf_splice _ _ _ h

/-- The memory after reset is in canonical form. -/
theorem reset_mem_wf : State.reset.mem.wf = true := rfl

/-- Every entry of a memory in canonical form is what a read of its offset finds. -/
theorem Memory.read_of_mem (m : Memory) (h : m.wf = true) (c : Host.Cell) (hc : c ∈ m) : m.read c.1 = some c.2 := by
  rw [Memory.wf_iff] at h
  obtain ⟨hs, -⟩ := h
  unfold Memory.read
  suffices hl : m.lookup c.1 = some c.2 by rw [hl]; rfl
  induction m with
  | nil => simp at hc
  | cons d m ih =>
    rcases List.mem_cons.mp hc with rfl | hm
    · obtain ⟨k, b⟩ := c
      exact List.lookup_cons_self
    · have hlt := (List.pairwise_cons.mp hs).1 c hm
      have hne : c.1 ≠ d.1 := by omega
      obtain ⟨k, b⟩ := d
      rw [lookup_cons_ne _ _ _ _ hne]
      exact ih hm (List.pairwise_cons.mp hs).2

end Sys2Proof.Machine
end

