-- ==== Sys2Proof/Laws/State.lean ====
section
/-! SUPPORT. One lemma per field for each shared update of the state, so that no proof unfolds a record update. -/

namespace Sys2Proof.Machine

/-! ## complete -/

@[simp] theorem complete_ieDone (s : State) : (complete s).ieDone = s.ieDone := rfl
@[simp] theorem complete_ieErr (s : State) : (complete s).ieErr = s.ieErr := rfl
@[simp] theorem complete_done (s : State) : (complete s).done = true := rfl
@[simp] theorem complete_error (s : State) : (complete s).error = s.error := rfl
@[simp] theorem complete_dropped (s : State) : (complete s).dropped = s.dropped := rfl
@[simp] theorem complete_cmd (s : State) : (complete s).cmd = s.cmd := rfl
@[simp] theorem complete_opa (s : State) : (complete s).opa = s.opa := rfl
@[simp] theorem complete_res0 (s : State) : (complete s).res0 = s.res0 := rfl
@[simp] theorem complete_res1 (s : State) : (complete s).res1 = s.res1 := rfl
@[simp] theorem complete_acc (s : State) : (complete s).acc = s.acc := rfl
@[simp] theorem complete_nb (s : State) : (complete s).nb = s.nb := rfl
@[simp] theorem complete_rawLen (s : State) : (complete s).rawLen = s.rawLen := rfl
@[simp] theorem complete_outLen (s : State) : (complete s).outLen = s.outLen := rfl
@[simp] theorem complete_rinLen (s : State) : (complete s).rinLen = s.rinLen := rfl
@[simp] theorem complete_rsrc (s : State) : (complete s).rsrc = s.rsrc := rfl
@[simp] theorem complete_rlen (s : State) : (complete s).rlen = s.rlen := rfl
@[simp] theorem complete_rp (s : State) : (complete s).rp = s.rp := rfl
@[simp] theorem complete_rb (s : State) : (complete s).rb = s.rb := rfl
@[simp] theorem complete_tree (s : State) : (complete s).tree = s.tree := rfl
@[simp] theorem complete_pending (s : State) : (complete s).pending = none := rfl
@[simp] theorem complete_mem (s : State) : (complete s).mem = s.mem := rfl
@[simp] theorem complete_host (s : State) : (complete s).host = s.host := rfl
@[simp] theorem complete_turns (s : State) : (complete s).turns = s.turns := rfl
@[simp] theorem complete_readLog (s : State) : (complete s).readLog = s.readLog := rfl
@[simp] theorem complete_draws (s : State) : (complete s).draws = s.draws := rfl

/-! ## raise -/

@[simp] theorem raise_ieDone (e : ErrCode) (op : Byte) (s : State) : (raise e op s).ieDone = s.ieDone := rfl
@[simp] theorem raise_ieErr (e : ErrCode) (op : Byte) (s : State) : (raise e op s).ieErr = s.ieErr := rfl
@[simp] theorem raise_done (e : ErrCode) (op : Byte) (s : State) : (raise e op s).done = true := rfl
@[simp] theorem raise_error (e : ErrCode) (op : Byte) (s : State) : (raise e op s).error = some ⟨e, op⟩ := rfl
@[simp] theorem raise_dropped (e : ErrCode) (op : Byte) (s : State) : (raise e op s).dropped = s.dropped := rfl
@[simp] theorem raise_cmd (e : ErrCode) (op : Byte) (s : State) : (raise e op s).cmd = s.cmd := rfl
@[simp] theorem raise_opa (e : ErrCode) (op : Byte) (s : State) : (raise e op s).opa = s.opa := rfl
@[simp] theorem raise_res0 (e : ErrCode) (op : Byte) (s : State) : (raise e op s).res0 = s.res0 := rfl
@[simp] theorem raise_res1 (e : ErrCode) (op : Byte) (s : State) : (raise e op s).res1 = s.res1 := rfl
@[simp] theorem raise_acc (e : ErrCode) (op : Byte) (s : State) : (raise e op s).acc = s.acc := rfl
@[simp] theorem raise_nb (e : ErrCode) (op : Byte) (s : State) : (raise e op s).nb = s.nb := rfl
@[simp] theorem raise_rawLen (e : ErrCode) (op : Byte) (s : State) : (raise e op s).rawLen = s.rawLen := rfl
@[simp] theorem raise_outLen (e : ErrCode) (op : Byte) (s : State) : (raise e op s).outLen = s.outLen := rfl
@[simp] theorem raise_rinLen (e : ErrCode) (op : Byte) (s : State) : (raise e op s).rinLen = s.rinLen := rfl
@[simp] theorem raise_rsrc (e : ErrCode) (op : Byte) (s : State) : (raise e op s).rsrc = s.rsrc := rfl
@[simp] theorem raise_rlen (e : ErrCode) (op : Byte) (s : State) : (raise e op s).rlen = s.rlen := rfl
@[simp] theorem raise_rp (e : ErrCode) (op : Byte) (s : State) : (raise e op s).rp = s.rp := rfl
@[simp] theorem raise_rb (e : ErrCode) (op : Byte) (s : State) : (raise e op s).rb = s.rb := rfl
@[simp] theorem raise_tree (e : ErrCode) (op : Byte) (s : State) : (raise e op s).tree = s.tree := rfl
@[simp] theorem raise_pending (e : ErrCode) (op : Byte) (s : State) : (raise e op s).pending = none := rfl
@[simp] theorem raise_mem (e : ErrCode) (op : Byte) (s : State) : (raise e op s).mem = s.mem := rfl
@[simp] theorem raise_host (e : ErrCode) (op : Byte) (s : State) : (raise e op s).host = s.host := rfl
@[simp] theorem raise_turns (e : ErrCode) (op : Byte) (s : State) : (raise e op s).turns = s.turns := rfl
@[simp] theorem raise_readLog (e : ErrCode) (op : Byte) (s : State) : (raise e op s).readLog = s.readLog := rfl
@[simp] theorem raise_draws (e : ErrCode) (op : Byte) (s : State) : (raise e op s).draws = s.draws := rfl

/-! ## writeStatus -/

@[simp] theorem writeStatus_ieDone (v : Word) (s : State) : (writeStatus v s).ieDone = s.ieDone := rfl
@[simp] theorem writeStatus_ieErr (v : Word) (s : State) : (writeStatus v s).ieErr = s.ieErr := rfl
@[simp] theorem writeStatus_done (v : Word) (s : State) : (writeStatus v s).done = (s.done && !v.getLsbD 1) := rfl
@[simp] theorem writeStatus_error (v : Word) (s : State) : (writeStatus v s).error = if v.getLsbD 2 then none else s.error := rfl
@[simp] theorem writeStatus_dropped (v : Word) (s : State) : (writeStatus v s).dropped = (s.dropped && !v.getLsbD 3) := rfl
@[simp] theorem writeStatus_cmd (v : Word) (s : State) : (writeStatus v s).cmd = s.cmd := rfl
@[simp] theorem writeStatus_opa (v : Word) (s : State) : (writeStatus v s).opa = s.opa := rfl
@[simp] theorem writeStatus_res0 (v : Word) (s : State) : (writeStatus v s).res0 = s.res0 := rfl
@[simp] theorem writeStatus_res1 (v : Word) (s : State) : (writeStatus v s).res1 = s.res1 := rfl
@[simp] theorem writeStatus_acc (v : Word) (s : State) : (writeStatus v s).acc = s.acc := rfl
@[simp] theorem writeStatus_nb (v : Word) (s : State) : (writeStatus v s).nb = s.nb := rfl
@[simp] theorem writeStatus_rawLen (v : Word) (s : State) : (writeStatus v s).rawLen = s.rawLen := rfl
@[simp] theorem writeStatus_outLen (v : Word) (s : State) : (writeStatus v s).outLen = s.outLen := rfl
@[simp] theorem writeStatus_rinLen (v : Word) (s : State) : (writeStatus v s).rinLen = s.rinLen := rfl
@[simp] theorem writeStatus_rsrc (v : Word) (s : State) : (writeStatus v s).rsrc = s.rsrc := rfl
@[simp] theorem writeStatus_rlen (v : Word) (s : State) : (writeStatus v s).rlen = s.rlen := rfl
@[simp] theorem writeStatus_rp (v : Word) (s : State) : (writeStatus v s).rp = s.rp := rfl
@[simp] theorem writeStatus_rb (v : Word) (s : State) : (writeStatus v s).rb = s.rb := rfl
@[simp] theorem writeStatus_tree (v : Word) (s : State) : (writeStatus v s).tree = s.tree := rfl
@[simp] theorem writeStatus_pending (v : Word) (s : State) : (writeStatus v s).pending = s.pending := rfl
@[simp] theorem writeStatus_mem (v : Word) (s : State) : (writeStatus v s).mem = s.mem := rfl
@[simp] theorem writeStatus_host (v : Word) (s : State) : (writeStatus v s).host = s.host := rfl
@[simp] theorem writeStatus_turns (v : Word) (s : State) : (writeStatus v s).turns = s.turns := rfl
@[simp] theorem writeStatus_readLog (v : Word) (s : State) : (writeStatus v s).readLog = s.readLog := rfl
@[simp] theorem writeStatus_draws (v : Word) (s : State) : (writeStatus v s).draws = s.draws := rfl

/-! ## hardReset -/

@[simp] theorem hardReset_ieDone (s : State) : (hardReset s).ieDone = false := rfl
@[simp] theorem hardReset_ieErr (s : State) : (hardReset s).ieErr = false := rfl
@[simp] theorem hardReset_done (s : State) : (hardReset s).done = false := rfl
@[simp] theorem hardReset_error (s : State) : (hardReset s).error = none := rfl
@[simp] theorem hardReset_dropped (s : State) : (hardReset s).dropped = false := rfl
@[simp] theorem hardReset_cmd (s : State) : (hardReset s).cmd = 0#32 := rfl
@[simp] theorem hardReset_opa (s : State) : (hardReset s).opa = 0#32 := rfl
@[simp] theorem hardReset_res0 (s : State) : (hardReset s).res0 = 0#32 := rfl
@[simp] theorem hardReset_res1 (s : State) : (hardReset s).res1 = 0#32 := rfl
@[simp] theorem hardReset_acc (s : State) : (hardReset s).acc = 0#7 := rfl
@[simp] theorem hardReset_nb (s : State) : (hardReset s).nb = 0#3 := rfl
@[simp] theorem hardReset_rawLen (s : State) : (hardReset s).rawLen = 0 := rfl
@[simp] theorem hardReset_outLen (s : State) : (hardReset s).outLen = 0 := rfl
@[simp] theorem hardReset_rinLen (s : State) : (hardReset s).rinLen = 0 := rfl
@[simp] theorem hardReset_rsrc (s : State) : (hardReset s).rsrc = .rin := rfl
@[simp] theorem hardReset_rlen (s : State) : (hardReset s).rlen = 0 := rfl
@[simp] theorem hardReset_rp (s : State) : (hardReset s).rp = 0 := rfl
@[simp] theorem hardReset_rb (s : State) : (hardReset s).rb = 0#3 := rfl
@[simp] theorem hardReset_tree (s : State) : (hardReset s).tree = none := rfl
@[simp] theorem hardReset_pending (s : State) : (hardReset s).pending = none := rfl
@[simp] theorem hardReset_mem (s : State) : (hardReset s).mem = [] := rfl
@[simp] theorem hardReset_host (s : State) : (hardReset s).host = s.host := rfl
@[simp] theorem hardReset_turns (s : State) : (hardReset s).turns = s.turns := rfl
@[simp] theorem hardReset_readLog (s : State) : (hardReset s).readLog = s.readLog := rfl
@[simp] theorem hardReset_draws (s : State) : (hardReset s).draws = s.draws := rfl

/-! ## softReset -/

@[simp] theorem softReset_ieDone (v : Word) (s : State) : (softReset v s).ieDone = v.getLsbD 1 := rfl
@[simp] theorem softReset_ieErr (v : Word) (s : State) : (softReset v s).ieErr = v.getLsbD 2 := rfl
@[simp] theorem softReset_done (v : Word) (s : State) : (softReset v s).done = false := rfl
@[simp] theorem softReset_error (v : Word) (s : State) : (softReset v s).error = none := rfl
@[simp] theorem softReset_dropped (v : Word) (s : State) : (softReset v s).dropped = false := rfl
@[simp] theorem softReset_cmd (v : Word) (s : State) : (softReset v s).cmd = 0#32 := rfl
@[simp] theorem softReset_opa (v : Word) (s : State) : (softReset v s).opa = 0#32 := rfl
@[simp] theorem softReset_res0 (v : Word) (s : State) : (softReset v s).res0 = 0#32 := rfl
@[simp] theorem softReset_res1 (v : Word) (s : State) : (softReset v s).res1 = 0#32 := rfl
@[simp] theorem softReset_acc (v : Word) (s : State) : (softReset v s).acc = 0#7 := rfl
@[simp] theorem softReset_nb (v : Word) (s : State) : (softReset v s).nb = 0#3 := rfl
@[simp] theorem softReset_rawLen (v : Word) (s : State) : (softReset v s).rawLen = 0 := rfl
@[simp] theorem softReset_outLen (v : Word) (s : State) : (softReset v s).outLen = 0 := rfl
@[simp] theorem softReset_rinLen (v : Word) (s : State) : (softReset v s).rinLen = 0 := rfl
@[simp] theorem softReset_rsrc (v : Word) (s : State) : (softReset v s).rsrc = .rin := rfl
@[simp] theorem softReset_rlen (v : Word) (s : State) : (softReset v s).rlen = 0 := rfl
@[simp] theorem softReset_rp (v : Word) (s : State) : (softReset v s).rp = 0 := rfl
@[simp] theorem softReset_rb (v : Word) (s : State) : (softReset v s).rb = 0#3 := rfl
@[simp] theorem softReset_tree (v : Word) (s : State) : (softReset v s).tree = none := rfl
@[simp] theorem softReset_pending (v : Word) (s : State) : (softReset v s).pending = none := rfl
@[simp] theorem softReset_mem (v : Word) (s : State) : (softReset v s).mem = softResetMem s := rfl
@[simp] theorem softReset_host (v : Word) (s : State) : (softReset v s).host = s.host := rfl
@[simp] theorem softReset_turns (v : Word) (s : State) : (softReset v s).turns = s.turns := rfl
@[simp] theorem softReset_readLog (v : Word) (s : State) : (softReset v s).readLog = s.readLog := rfl
@[simp] theorem softReset_draws (v : Word) (s : State) : (softReset v s).draws = s.draws + 1 := rfl

/-! ## appendRaw -/

@[simp] theorem appendRaw_ieDone (b : Byte) (s : State) : (appendRaw b s).ieDone = s.ieDone := rfl
@[simp] theorem appendRaw_ieErr (b : Byte) (s : State) : (appendRaw b s).ieErr = s.ieErr := rfl
@[simp] theorem appendRaw_done (b : Byte) (s : State) : (appendRaw b s).done = s.done := rfl
@[simp] theorem appendRaw_error (b : Byte) (s : State) : (appendRaw b s).error = s.error := rfl
@[simp] theorem appendRaw_dropped (b : Byte) (s : State) : (appendRaw b s).dropped = s.dropped := rfl
@[simp] theorem appendRaw_cmd (b : Byte) (s : State) : (appendRaw b s).cmd = s.cmd := rfl
@[simp] theorem appendRaw_opa (b : Byte) (s : State) : (appendRaw b s).opa = s.opa := rfl
@[simp] theorem appendRaw_res0 (b : Byte) (s : State) : (appendRaw b s).res0 = s.res0 := rfl
@[simp] theorem appendRaw_res1 (b : Byte) (s : State) : (appendRaw b s).res1 = s.res1 := rfl
@[simp] theorem appendRaw_acc (b : Byte) (s : State) : (appendRaw b s).acc = 0#7 := rfl
@[simp] theorem appendRaw_nb (b : Byte) (s : State) : (appendRaw b s).nb = 0#3 := rfl
@[simp] theorem appendRaw_rawLen (b : Byte) (s : State) : (appendRaw b s).rawLen = s.rawLen + 1 := rfl
@[simp] theorem appendRaw_outLen (b : Byte) (s : State) : (appendRaw b s).outLen = s.outLen := rfl
@[simp] theorem appendRaw_rinLen (b : Byte) (s : State) : (appendRaw b s).rinLen = s.rinLen := rfl
@[simp] theorem appendRaw_rsrc (b : Byte) (s : State) : (appendRaw b s).rsrc = s.rsrc := rfl
@[simp] theorem appendRaw_rlen (b : Byte) (s : State) : (appendRaw b s).rlen = s.rlen := rfl
@[simp] theorem appendRaw_rp (b : Byte) (s : State) : (appendRaw b s).rp = s.rp := rfl
@[simp] theorem appendRaw_rb (b : Byte) (s : State) : (appendRaw b s).rb = s.rb := rfl
@[simp] theorem appendRaw_tree (b : Byte) (s : State) : (appendRaw b s).tree = s.tree := rfl
@[simp] theorem appendRaw_pending (b : Byte) (s : State) : (appendRaw b s).pending = s.pending := rfl
@[simp] theorem appendRaw_mem (b : Byte) (s : State) : (appendRaw b s).mem = s.mem.splice (Config.rawBase + s.rawLen) [b] := rfl
@[simp] theorem appendRaw_host (b : Byte) (s : State) : (appendRaw b s).host = s.host := rfl
@[simp] theorem appendRaw_turns (b : Byte) (s : State) : (appendRaw b s).turns = s.turns := rfl
@[simp] theorem appendRaw_readLog (b : Byte) (s : State) : (appendRaw b s).readLog = s.readLog := rfl
@[simp] theorem appendRaw_draws (b : Byte) (s : State) : (appendRaw b s).draws = s.draws := rfl

/-! ## stuffOut -/

@[simp] theorem stuffOut_ieDone (s : State) : (stuffOut s).ieDone = s.ieDone := rfl
@[simp] theorem stuffOut_ieErr (s : State) : (stuffOut s).ieErr = s.ieErr := rfl
@[simp] theorem stuffOut_done (s : State) : (stuffOut s).done = s.done := rfl
@[simp] theorem stuffOut_error (s : State) : (stuffOut s).error = s.error := rfl
@[simp] theorem stuffOut_dropped (s : State) : (stuffOut s).dropped = s.dropped := rfl
@[simp] theorem stuffOut_cmd (s : State) : (stuffOut s).cmd = s.cmd := rfl
@[simp] theorem stuffOut_opa (s : State) : (stuffOut s).opa = s.opa := rfl
@[simp] theorem stuffOut_res0 (s : State) : (stuffOut s).res0 = s.res0 := rfl
@[simp] theorem stuffOut_res1 (s : State) : (stuffOut s).res1 = s.res1 := rfl
@[simp] theorem stuffOut_acc (s : State) : (stuffOut s).acc = s.acc := rfl
@[simp] theorem stuffOut_nb (s : State) : (stuffOut s).nb = s.nb := rfl
@[simp] theorem stuffOut_rawLen (s : State) : (stuffOut s).rawLen = s.rawLen := rfl
@[simp] theorem stuffOut_outLen (s : State) : (stuffOut s).outLen = (stuff s.rawBytes).length := rfl
@[simp] theorem stuffOut_rinLen (s : State) : (stuffOut s).rinLen = s.rinLen := rfl
@[simp] theorem stuffOut_rsrc (s : State) : (stuffOut s).rsrc = s.rsrc := rfl
@[simp] theorem stuffOut_rlen (s : State) : (stuffOut s).rlen = s.rlen := rfl
@[simp] theorem stuffOut_rp (s : State) : (stuffOut s).rp = s.rp := rfl
@[simp] theorem stuffOut_rb (s : State) : (stuffOut s).rb = s.rb := rfl
@[simp] theorem stuffOut_tree (s : State) : (stuffOut s).tree = s.tree := rfl
@[simp] theorem stuffOut_pending (s : State) : (stuffOut s).pending = s.pending := rfl
@[simp] theorem stuffOut_mem (s : State) : (stuffOut s).mem = s.mem.splice Config.outBase (stuff s.rawBytes) := rfl
@[simp] theorem stuffOut_host (s : State) : (stuffOut s).host = s.host := rfl
@[simp] theorem stuffOut_turns (s : State) : (stuffOut s).turns = s.turns := rfl
@[simp] theorem stuffOut_readLog (s : State) : (stuffOut s).readLog = s.readLog := rfl
@[simp] theorem stuffOut_draws (s : State) : (stuffOut s).draws = s.draws := rfl

/-! ## loadPending -/

@[simp] theorem loadPending_ieDone (s : State) (w : Word) : (loadPending s w).ieDone = s.ieDone := rfl
@[simp] theorem loadPending_ieErr (s : State) (w : Word) : (loadPending s w).ieErr = s.ieErr := rfl
@[simp] theorem loadPending_done (s : State) (w : Word) : (loadPending s w).done = s.done := rfl
@[simp] theorem loadPending_error (s : State) (w : Word) : (loadPending s w).error = s.error := rfl
@[simp] theorem loadPending_dropped (s : State) (w : Word) : (loadPending s w).dropped = s.dropped := rfl
@[simp] theorem loadPending_cmd (s : State) (w : Word) : (loadPending s w).cmd = s.cmd := rfl
@[simp] theorem loadPending_opa (s : State) (w : Word) : (loadPending s w).opa = s.opa := rfl
@[simp] theorem loadPending_res0 (s : State) (w : Word) : (loadPending s w).res0 = s.res0 := rfl
@[simp] theorem loadPending_res1 (s : State) (w : Word) : (loadPending s w).res1 = s.res1 := rfl
@[simp] theorem loadPending_acc (s : State) (w : Word) : (loadPending s w).acc = s.acc := rfl
@[simp] theorem loadPending_nb (s : State) (w : Word) : (loadPending s w).nb = s.nb := rfl
@[simp] theorem loadPending_rawLen (s : State) (w : Word) : (loadPending s w).rawLen = s.rawLen := rfl
@[simp] theorem loadPending_outLen (s : State) (w : Word) : (loadPending s w).outLen = s.outLen := rfl
@[simp] theorem loadPending_rinLen (s : State) (w : Word) : (loadPending s w).rinLen = s.rinLen := rfl
@[simp] theorem loadPending_rsrc (s : State) (w : Word) : (loadPending s w).rsrc = s.rsrc := rfl
@[simp] theorem loadPending_rlen (s : State) (w : Word) : (loadPending s w).rlen = s.rlen := rfl
@[simp] theorem loadPending_rp (s : State) (w : Word) : (loadPending s w).rp = s.rp := rfl
@[simp] theorem loadPending_rb (s : State) (w : Word) : (loadPending s w).rb = s.rb := rfl
@[simp] theorem loadPending_tree (s : State) (w : Word) : (loadPending s w).tree = s.tree := rfl
@[simp] theorem loadPending_pending (s : State) (w : Word) : (loadPending s w).pending = some w := rfl
@[simp] theorem loadPending_mem (s : State) (w : Word) : (loadPending s w).mem = s.mem := rfl
@[simp] theorem loadPending_host (s : State) (w : Word) : (loadPending s w).host = s.host := rfl
@[simp] theorem loadPending_turns (s : State) (w : Word) : (loadPending s w).turns = [] := rfl
@[simp] theorem loadPending_readLog (s : State) (w : Word) : (loadPending s w).readLog = s.readLog := rfl
@[simp] theorem loadPending_draws (s : State) (w : Word) : (loadPending s w).draws = s.draws := rfl

end Sys2Proof.Machine
end

