-- ==== Sys2Proof/Laws/Ops.lean ====
section
/-! SUPPORT. What each shared operation of the engine and of the bus can do, said once: command acceptance, the
writer's bit loop and flush, stuffing, the reader's loop, the code-table walk, and which agent moves. -/

namespace Sys2Proof.Machine

/-! ## Acceptance and control -/

/-- While ERR = 1 a command word is dropped (R245). -/
theorem acceptCommand_dropped (w : Word) (s : State) (h : s.errFlag = true) :
    acceptCommand w s = { s with cmd := w, dropped := true, done := true } := by
  simp [acceptCommand, h]

/-- While ERR = 0 a command word becomes pending (R230). -/
theorem acceptCommand_pending (w : Word) (s : State) (h : s.errFlag = false) :
    acceptCommand w s = { s with cmd := w, pending := some w } := by
  simp [acceptCommand, h]

theorem writeCtrl_reset (v : Word) (s : State) (h : v.getLsbD 0 = true) : writeCtrl v s = softReset v s := by
  simp only [writeCtrl, h, if_true]

theorem writeCtrl_enables (v : Word) (s : State) (h : v.getLsbD 0 = false) :
    writeCtrl v s = { s with ieDone := v.getLsbD 1, ieErr := v.getLsbD 2 } := by
  simp only [writeCtrl, h, Bool.false_eq_true, if_false]

/-- Every memory a soft reset leaves is in canonical form. -/
theorem wf_softResetMem (s : State) (h : s.mem.wf = true) : (softResetMem s).wf = true := by
  have h1 := Memory.wf_clear _ Config.lutBase 0x3000 (Memory.wf_clear _ Config.freqBase 0xC00 h)
  unfold softResetMem
  split
  · exact Memory.wf_splice _ _ _ h1
  · exact h1

/-! ## The writer -/

theorem pushBit_full (s : State) (b : Bool) (h : s.nb = 7#3) : pushBit s b = appendRaw (s.acc ++ bit b) s := by
  simp [pushBit, h]

theorem pushBit_partial (s : State) (b : Bool) (h : s.nb ≠ 7#3) :
    pushBit s b = { s with acc := (s.acc ++ bit b : Byte).setWidth 7, nb := s.nb + 1#3 } := by
  simp [pushBit, h]

theorem pushBits_nil (s : State) : pushBits s [] = s := rfl

theorem pushBits_cons (s : State) (b : Bool) (bs : List Bool) : pushBits s (b :: bs) = pushBits (pushBit s b) bs := rfl

/-- A bit changes ACC, NB, RAW and RAWLEN only (R190). -/
theorem pushBit_changes_writer_only (s : State) (b : Bool) :
    ∃ acc nb rawLen mem, pushBit s b = { s with acc := acc, nb := nb, rawLen := rawLen, mem := mem } := by
  unfold pushBit
  split
  · exact ⟨_, _, _, _, rfl⟩
  · exact ⟨_, _, s.rawLen, s.mem, rfl⟩

/-- Bits change ACC, NB, RAW and RAWLEN only (R190). -/
theorem pushBits_changes_writer_only (bs : List Bool) (s : State) :
    ∃ acc nb rawLen mem, pushBits s bs = { s with acc := acc, nb := nb, rawLen := rawLen, mem := mem } := by
  induction bs generalizing s with
  | nil => exact ⟨s.acc, s.nb, s.rawLen, s.mem, rfl⟩
  | cons b bs ih =>
    obtain ⟨a, n, r, m, h⟩ := pushBit_changes_writer_only s b
    obtain ⟨a', n', r', m', h'⟩ := ih (pushBit s b)
    rw [pushBits_cons, h', h]
    exact ⟨a', n', r', m', rfl⟩

theorem pushBit_wf (s : State) (b : Bool) (h : s.mem.wf = true) : (pushBit s b).mem.wf = true := by
  unfold pushBit
  split
  · exact Memory.wf_splice _ _ _ h
  · exact h

theorem pushBits_wf (bs : List Bool) (s : State) (h : s.mem.wf = true) : (pushBits s bs).mem.wf = true := by
  induction bs generalizing s with
  | nil => exact h
  | cons b bs ih => exact ih _ (pushBit_wf s b h)

theorem length_opaBits (opa : Word) (n : Nat) : (opaBits opa n).length = n := by
  induction n with
  | zero => rfl
  | succ n ih => simp [opaBits, ih]

theorem flush_empty (s : State) (h : s.nb = 0#3) : flush s = s := by simp [flush, h]

theorem flush_partial (s : State) (h : s.nb ≠ 0#3) : flush s = appendRaw (paddedByte s) s := by simp [flush, h]

theorem stuff_nil : stuff [] = [] := rfl

theorem stuff_ff (bs : List Byte) : stuff (0xFF#8 :: bs) = 0xFF#8 :: 0x00#8 :: stuff bs := by simp [stuff]

theorem stuff_other (b : Byte) (bs : List Byte) (h : b ≠ 0xFF#8) : stuff (b :: bs) = b :: stuff bs := by
  simp [stuff, h]

/-- Stuffing at most doubles a stream (R203). -/
theorem length_stuff_le (bs : List Byte) : (stuff bs).length ≤ 2 * bs.length := by
  induction bs with
  | nil => simp [stuff]
  | cons b bs ih =>
    by_cases h : b = 0xFF#8
    · subst h; rw [stuff_ff]; simp only [List.length_cons]; omega
    · rw [stuff_other _ _ h]; simp only [List.length_cons]; omega

theorem length_rawBytes (s : State) : s.rawBytes.length = s.rawLen := by simp [State.rawBytes]

/-! ## The reader -/

theorem nextPos_data (s : State) (b : Byte) (p : Nat) (h : ¬ (b = 0xFF#8 ∧ p + 1 < s.rlen)) :
    nextPos s b p = .ok (p + 1) := by
  simp only [nextPos, if_neg h]

/-- A finished byte moves the reader by one or two, and never past RLEN (R211, R214). -/
theorem nextPos_bounds (s : State) (b : Byte) (p p' : Nat) (hp : p < s.rlen) (h : nextPos s b p = .ok p') :
    p < p' ∧ p' ≤ s.rlen := by
  unfold nextPos at h
  split at h
  · rename_i hc
    split at h
    · cases h
    · split at h
      · cases h; omega
      · cases h; omega
  · cases h; omega

/-- Where a read ends the reader's position is legal: RP ≤ RLEN, and RB = 0 at RLEN (R214). -/
theorem readLoop_position (s : State) (n p : Nat) (b : BitVec 3) (v : Word) (p' : Nat) (b' : BitVec 3) (v' : Word)
    (hp : p ≤ s.rlen) (hb : p = s.rlen → b = 0#3) (h : readLoop s n p b v = .ok (p', b', v')) :
    p' ≤ s.rlen ∧ (p' = s.rlen → b' = 0#3) := by
  induction n generalizing p b v with
  | zero =>
    simp only [readLoop, Except.ok.injEq, Prod.mk.injEq] at h
    obtain ⟨rfl, rfl, -⟩ := h
    exact ⟨hp, hb⟩
  | succ n ih =>
    simp only [readLoop] at h
    split at h
    · cases h
    · rename_i hlt
      split at h
      · cases h
      · split at h
        · split at h
          · cases h
          · rename_i hn
            have := nextPos_bounds s _ p _ (by omega) hn
            exact ih _ _ _ this.2 (fun _ => rfl) h
        · exact ih _ _ _ hp (fun hc => by omega) h

/-! ## The code-table walk -/

/-- The walk keeps the number of entries (R160). -/
theorem length_walk (t : HuffTree) (code : BitVec 64) (len : Nat) (tab tab' : List LutEntry)
    (h : walk t code len tab = .ok tab') : tab'.length = tab.length := by
  induction t generalizing code len tab tab' with
  | leaf sym f =>
    simp only [walk] at h
    split at h
    · cases h
    · cases h; simp
  | single id f l ih => exact ih _ _ _ _ h
  | node id f l r ihl ihr =>
    simp only [walk] at h
    split at h
    · cases h
    · rename_i hl
      rw [ihr _ _ _ _ h, ihl _ _ _ _ hl]

/-- The only error of the walk is CodeTooLong (R160, R162). -/
theorem walk_error (t : HuffTree) (code : BitVec 64) (len : Nat) (tab : List LutEntry) (e : ErrCode)
    (h : walk t code len tab = .error e) : e = .codeTooLong := by
  induction t generalizing code len tab with
  | leaf sym f =>
    simp only [walk] at h
    split at h
    · cases h; rfl
    · cases h
  | single id f l ih => exact ih _ _ _ h
  | node id f l r ihl ihr =>
    simp only [walk] at h
    split at h
    · rename_i hl; cases h; exact ihl _ _ _ hl
    · exact ihr _ _ _ h

/-! ## The queue -/

/-- Inserting a pair adds exactly that pair (R154). -/
theorem enqueue_perm (x : QItem) (q : List QItem) : (enqueue x q).Perm (x :: q) := by
  induction q with
  | nil => exact List.Perm.refl _
  | cons y ys ih =>
    unfold enqueue
    split
    · exact List.Perm.refl _
    · exact (ih.cons y).trans (List.Perm.swap x y ys)

theorem length_enqueue (x : QItem) (q : List QItem) : (enqueue x q).length = q.length + 1 :=
  (enqueue_perm x q).length_eq

/-! ## DCT blocks -/

theorem length_blockOf (g : Nat → Nat → F64) : (blockOf g).length = 64 := by simp [blockOf]

theorem length_fdct (mode : DctMode) (f : List F64) : (fdct mode f).length = 64 := by
  cases mode <;> simp only [fdct] <;> split <;>
    simp [fdctRefBits, fdctFastBits, freeResult, length_blockOf]

theorem length_idct (mode : DctMode) (q : List Word) : (idct mode q).length = 64 := by
  cases mode <;> simp [idct, idctRefBits, idctFastBits, colPass, transpose, length_blockOf]

/-- FDCT where every DIN word has a value (R140). -/
theorem execFdct_next (mode : DctMode) (s : State) (f : List F64) (h : s.mem.din = some f) :
    exec (.fdct mode) s = .next (complete { s with mem := s.mem.writeDout (fdct mode f) }) := by
  simp only [exec, execFdct, h]

/-- IDCT where every QIN word has a value (R141). -/
theorem execIdct_next (mode : DctMode) (s : State) (q : List Word) (h : s.mem.qin = some q) :
    exec (.idct mode) s = .next (complete { s with mem := s.mem.writeDout (idct mode q) }) := by
  simp only [exec, execIdct, h]

/-- An entry of DOUT after the block is written (R40). -/
theorem Memory.readF64_writeDout (m : Memory) (block : List F64) (k : Nat) (hk : k < block.length) :
    (m.writeDout block).readF64 (Config.doutBase + 8 * k) = block[k]? :=
  Memory.readF64_splice_entries m Config.doutBase block k hk

/-! ## The host's accesses -/

/-- A legal read returns the word at its offset and changes nothing of the JBTE (R61, R68). -/
theorem hostEvent_read (s : State) (off : BitVec 16) (h : off.toNat % 4 = 0) :
    hostEvent (.read .w32 off) s =
      .next { s with readLog := s.busRead off.toNat :: s.readLog, draws := s.draws + 1 } := by
  simp [hostEvent, legalAccess, h]

/-- A legal write takes its effect (R61). -/
theorem hostEvent_write (s : State) (off : BitVec 16) (v : Word) (h : off.toNat % 4 = 0) :
    hostEvent (.write .w32 off v) s = .next (s.busWrite off.toNat v) := by
  simp [hostEvent, legalAccess, h]

/-! ## Which agent moves -/

theorem step_idle (s : State) (hp : s.pending = none) (hh : s.host = []) : step s = .next s := by
  simp [step, advance, hp, hh]

theorem step_host (s : State) (e : HostEvent) (rest : List HostEvent) (hp : s.pending = none)
    (hh : s.host = e :: rest) : step s = hostEvent e { s with host := rest } := by
  simp [step, advance, hp, hh]

/-- The engine moves where the host has nothing to do, its next event waits, or no turn is set. -/
theorem step_engine (s : State) (w : Word) (hp : s.pending = some w)
    (h : s.host = [] ∨ (∃ e rest, s.host = e :: rest ∧ e.held = true) ∨ s.turns = []) : step s = perform w s := by
  unfold step advance
  rcases h with h | ⟨e, rest, h, hh⟩ | h
  · simp [hp, h]
  · simp [hp, h, hh]
  · cases hs : s.host with
    | nil => simp [hp]
    | cons e rest => simp [hp, h]

theorem step_engine_turn (s : State) (w : Word) (e : HostEvent) (rest : List HostEvent) (turns : List Agent)
    (hp : s.pending = some w) (hh : s.host = e :: rest) (hn : e.held = false) (ht : s.turns = .engine :: turns) :
    step s = perform w { s with turns := turns } := by
  simp [step, advance, hp, hh, hn, ht]

theorem step_host_turn (s : State) (w : Word) (e : HostEvent) (rest : List HostEvent) (turns : List Agent)
    (hp : s.pending = some w) (hh : s.host = e :: rest) (hn : e.held = false) (ht : s.turns = .host :: turns) :
    step s = hostEvent e { s with host := rest, turns := turns } := by
  simp [step, advance, hp, hh, hn, ht]

end Sys2Proof.Machine
end

