-- ==== Sys2Proof/Laws/PerInstr.lean ====
section
/-! SUPPORT. Statements made of every command, one lemma per constructor: the OP field of the encoded word is
the command's OP (R90, R93). -/

namespace Sys2Proof.Laws.OpField

/-- Bits 7:0 of the encoded word are the command's OP. -/
def Statement (i : Instr) : Prop := opField (encode i) = i.op

theorem nop : Statement .nop := rfl
theorem fdct (mode : DctMode) : Statement (.fdct mode) := by cases mode <;> rfl
theorem idct (mode : DctMode) : Statement (.idct mode) := by cases mode <;> rfl
theorem hclear (bank : BitVec 2) : Statement (.hclear bank) := by revert bank; unfold Statement; decide
theorem hbuild (bank : BitVec 2) : Statement (.hbuild bank) := by revert bank; unfold Statement; decide
theorem htable : Statement .htable := rfl
theorem catmag : Statement .catmag := rfl
theorem wrbits (cnt : BitVec 6) : Statement (.wrbits cnt) := by revert cnt; unfold Statement; decide
theorem wflush : Statement .wflush := rfl
theorem wfinal : Statement .wfinal := rfl
theorem wreset : Statement .wreset := rfl
theorem rreset (src : Src) : Statement (.rreset src) := by cases src <;> rfl
theorem rdbits (cnt : BitVec 6) : Statement (.rdbits cnt) := by revert cnt; unfold Statement; decide

end Sys2Proof.Laws.OpField
end

