-- ==== Sys2Proof/Tests/Slice0.lean ====
section
/-! SUPPORT. Tests of the model: the well-formedness check, decoding of words written out from R90 and R93, one step
or one command each with the results of 95_test_vectors.md, and for every statement with hypotheses a witness that
meets them. -/

namespace Sys2Proof.Tests

open Sys2Proof Sys2Proof.Machine

set_option maxRecDepth 10000

/-! ## Well-formedness -/

theorem test_wellFormed_refuses_hclear_bank3 : (Instr.hclear 3#2).wellFormed = false := by decide
theorem test_wellFormed_refuses_hbuild_bank3 : (Instr.hbuild 3#2).wellFormed = false := by decide
theorem test_wellFormed_accepts_every_count :
    (Instr.wrbits 0#6).wellFormed = true ∧ (Instr.rdbits 63#6).wellFormed = true := by decide

/-! ## Decoding: words written bit by bit from R90 and R93 -/

/-- The answer of the decoder is the command. -/
def decodesTo (w : Word) (i : Instr) : Bool :=
  match decode w with
  | .ok j => j == i
  | .error _ => false

/-- The decoder refuses the word for this reason. -/
def refusesFor (w : Word) (reason : DecodeReject) : Bool :=
  match decode w with
  | .ok _ => false
  | .error r => r == reason

theorem test_decode_nop : decodesTo 0b00000000000000000000000000000000#32 .nop = true := by decide
theorem test_decode_fdct_ref : decodesTo 0b00000000000000000000000000000001#32 (.fdct .ref) = true := by decide
theorem test_decode_fdct_fast : decodesTo 0b00000000000100000000000000000001#32 (.fdct .fast) = true := by decide
theorem test_decode_idct_ref : decodesTo 0b00000000000000000000000000000010#32 (.idct .ref) = true := by decide
theorem test_decode_idct_fast : decodesTo 0b00000000000100000000000000000010#32 (.idct .fast) = true := by decide
theorem test_decode_hclear : decodesTo 0b00000000000000100000000000010000#32 (.hclear 2#2) = true := by decide
theorem test_decode_hbuild : decodesTo 0b00000000000000010000000000010001#32 (.hbuild 1#2) = true := by decide
theorem test_decode_htable : decodesTo 0b00000000000000000000000000010010#32 .htable = true := by decide
theorem test_decode_catmag : decodesTo 0b00000000000000000000000000010011#32 .catmag = true := by decide
theorem test_decode_wrbits : decodesTo 0b00000000000000000010000000100000#32 (.wrbits 32#6) = true := by decide
theorem test_decode_wflush : decodesTo 0b00000000000000000000000000100001#32 .wflush = true := by decide
theorem test_decode_wfinal : decodesTo 0b00000000000000000000000000100010#32 .wfinal = true := by decide
theorem test_decode_wreset : decodesTo 0b00000000000000000000000000100011#32 .wreset = true := by decide
theorem test_decode_rreset_rin : decodesTo 0b00000000000000000000000000110000#32 (.rreset .rin) = true := by decide
theorem test_decode_rreset_out : decodesTo 0b00000000001000000000000000110000#32 (.rreset .out) = true := by decide
theorem test_decode_rdbits : decodesTo 0b00000000000000000000110000110001#32 (.rdbits 12#6) = true := by decide

/-- V-WR-16, V-RD-14 and V-SYS-4 to V-SYS-6 of 95_test_vectors.md, and R96. -/
theorem test_decode_illegal :
    refusesFor 0x00000014#32 .unassignedOp = true ∧ refusesFor 0x000000FF#32 .unassignedOp = true ∧
    refusesFor 0x00000100#32 .unusedBitSet = true ∧ refusesFor 0x00004020#32 .unusedBitSet = true ∧
    refusesFor 0x00100030#32 .unusedBitSet = true ∧ refusesFor 0x00030010#32 .reservedBank = true ∧
    refusesFor 0x00030011#32 .reservedBank = true := by decide

theorem test_decodeTableWord :
    decodeTableWord 32 0x00000820 = some (.wrbits 8#6) ∧ decodeTableWord 32 0x00030010 = none := by decide

/-! ## States -/

/-- The next state, if the answer is one. -/
def nextOf : Result → Option State
  | .next t => some t
  | .fault _ => none
  | .refused _ => none

/-- The fault, if the answer is one. -/
def faultOf : Result → Option Fault
  | .next _ => none
  | .fault f => some f
  | .refused _ => none

/-- What a command leaves, read by `f`. -/
def leaves {α : Type} (i : Instr) (s : State) (f : State → α) : Option α := (nextOf (exec i s)).map f

/-- The state a command leaves. -/
def stateAfter (i : Instr) (s : State) : State := (nextOf (exec i s)).getD s

theorem exec_stateAfter (i : Instr) (s : State) (h : (nextOf (exec i s)).isSome = true) :
    exec i s = .next (stateAfter i s) := by
  unfold stateAfter
  cases hr : exec i s <;> simp_all [nextOf]

/-- Bytes from an offset on, none of them a value that memory leaves out. -/
def bytesAt (base : Nat) (bs : List Byte) : Memory := bs.zipIdx.map fun p => (base + p.2, p.1)

/-- A block of +0.0 but for entry 0, which is 1.0 (V-DCT-3). -/
def impulseBlock : List F64 := 0x3FF0000000000000#64 :: List.replicate 63 0#64

/-- The reset state with the impulse in DIN. -/
def impulse : State := { State.reset with mem := Memory.splice [] 0x200 (impulseBlock.flatMap bytesOfF64) }

/-- A block with 8 in entry 0 and 0 elsewhere (V-DCT-5, V-DCT-6). -/
def dcBlock : List Word := 8#32 :: List.replicate 63 0#32

/-- The reset state with that block in QIN. -/
def qinDc : State := { State.reset with mem := Memory.splice [] 0x400 (dcBlock.flatMap bytesOfWord) }

theorem din_impulse : impulse.mem.din = some impulseBlock :=
  (Memory.readF64s_eq_some _ _ _ _).2 ⟨rfl, fun k hk => Memory.readF64_splice_entries _ _ impulseBlock k hk⟩

theorem qin_dc : qinDc.mem.qin = some dcBlock :=
  (Memory.readWords_eq_some _ _ _ _).2 ⟨rfl, fun k hk => Memory.readWord_splice_words _ _ dcBlock k hk⟩

/-- The counts of V-HUF-1 in bank 0: 0x41 five times, 0x42 twice, 0x43 and 0x44 once. -/
def counts : State :=
  { State.reset with mem := [(0x1104, 5#8), (0x1108, 2#8), (0x110C, 1#8), (0x1110, 1#8)] }

/-- The single-symbol alphabet of V-HUF-4: symbol 200 once, in bank 2. -/
def oneCount : State := { State.reset with mem := [(0x1B20, 1#8)] }

/-- The tree of V-HUF-1. -/
def tree1 : HuffTree :=
  .node 258 9#40 (.node 257 4#40 (.leaf 0x42#8 2#32) (.node 256 2#40 (.leaf 0x43#8 1#32) (.leaf 0x44#8 1#32)))
    (.leaf 0x41#8 5#32)

/-- The tree of V-HUF-4. -/
def tree4 : HuffTree := .single 256 1#40 (.leaf 200#8 1#32)

/-- A comb of `n + 1` leaves, the deepest at depth `n`. -/
def comb : Nat → HuffTree
  | 0 => .leaf 0#8 1#32
  | n + 1 => .node (256 + n) 1#40 (comb n) (.leaf (BitVec.ofNat 8 (n + 1)) 1#32)

/-- The reset state with a tree in the store. -/
def withTree (bank : BitVec 2) (root : HuffTree) : State := { State.reset with tree := some ⟨bank, root⟩ }

/-- The reset state with bytes in RIN, selected and rewound. -/
def reading (bs : List Byte) : State :=
  { State.reset with mem := bytesAt 0xC000 bs, rinLen := bs.length, rlen := bs.length }

/-! ## Commands, with the results of 95_test_vectors.md -/

theorem test_nop_sets_done : leaves .nop { State.reset with pending := some 0#32 } State.statusWord = some 2#32 := by
  decide

/-- V-DCT-3. -/
theorem test_fdct_ref_impulse : (fdct .ref impulseBlock)[1]? = some 0x3FC63150B15E8536#64 := by decide +kernel
/-- V-DCT-3. -/
theorem test_fdct_fast_impulse : (fdct .fast impulseBlock)[1]? = some 0x3FC63150B15E8537#64 := by decide +kernel
/-- V-DCT-5. -/
theorem test_idct_ref_dc : (idct .ref dcBlock)[63]? = some 0x3FF0000000000001#64 := by decide +kernel
/-- V-DCT-6. -/
theorem test_idct_fast_dc : (idct .fast dcBlock)[63]? = some 0x3FF0000000000001#64 := by decide +kernel
/-- R140, V-DCT-3: DOUT takes the transform of DIN. -/
theorem test_fdct_writes_dout :
    leaves (.fdct .ref) impulse (fun t => t.mem.readF64 (Config.doutBase + 8 * 63)) =
      some (fdct .ref impulseBlock)[63]? := by
  rw [leaves, execFdct_next _ _ _ din_impulse, nextOf, Option.map_some, complete,
    Memory.readF64_writeDout _ _ 63 (by rw [length_fdct]; decide)]
/-- R141, V-DCT-6: DOUT takes the transform of QIN. -/
theorem test_idct_writes_dout :
    leaves (.idct .fast) qinDc (fun t => t.mem.readF64 (Config.doutBase + 8 * 0)) = some (idct .fast dcBlock)[0]? := by
  rw [leaves, execIdct_next _ _ _ qin_dc, nextOf, Option.map_some, complete,
    Memory.readF64_writeDout _ _ 0 (by rw [length_idct]; decide)]
/-- V-DCT-9. -/
theorem test_fwd8_counting :
    fwd8 ⟨0x3FF0000000000000#64, 0x4000000000000000#64, 0x4008000000000000#64, 0x4010000000000000#64,
      0x4014000000000000#64, 0x4018000000000000#64, 0x401C000000000000#64, 0x4020000000000000#64⟩ =
    ⟨0x4042000000000000#64, 0xC039462E31BDAE84#64, 0#64, 0xC001EB2B5DD4F934#64, 0#64, 0xBFDC92D84170BCC0#64, 0#64,
      0xBFA4420303DEC500#64⟩ := by decide +kernel

/-- V-HUF-13. -/
theorem test_hclear_keeps_the_tree :
    leaves (.hclear 0#2) { counts with tree := some ⟨0#2, tree1⟩ } (fun t => (t.mem, t.treeinfoWord)) =
      some ([], 0x00000401#32) := by decide
/-- V-HUF-12: BANK = 3. -/
theorem test_hclear_bank3 : leaves (.hclear 3#2) State.reset State.statusWord = some 0x00100106#32 := by decide
/-- V-HUF-1. -/
theorem test_hbuild_tree : leaves (.hbuild 0#2) counts State.tree = some (some ⟨0#2, tree1⟩) := by decide +kernel
/-- V-HUF-12: no symbol. -/
theorem test_hbuild_empty : leaves (.hbuild 0#2) State.reset State.statusWord = some 0x00110406#32 := by
  decide +kernel
/-- V-HUF-1. -/
theorem test_htable_codes :
    leaves .htable (withTree 0#2 tree1) (fun t => [0x41, 0x42, 0x43, 0x44, 0x45].map (t.mem.lutEntry 0#2)) =
      some [⟨1#64, 1#7, true⟩, ⟨0#64, 2#7, true⟩, ⟨2#64, 3#7, true⟩, ⟨3#64, 3#7, true⟩, ⟨0#64, 0#7, false⟩] := by
  decide +kernel
/-- V-HUF-12: no tree. -/
theorem test_htable_no_tree : leaves .htable State.reset State.statusWord = some 0x00120506#32 := by decide
/-- P2: −3 has category 2 and magnitude bits 0. -/
theorem test_catmag_minus_three :
    leaves .catmag { State.reset with opa := 0xFFFFFFFD#32 } (fun t => (t.res0, t.res1)) = some (2#32, 0#32) := by decide
/-- R171, R172: the most negative value. -/
theorem test_catmag_least :
    leaves .catmag { State.reset with opa := 0x80000000#32 } (fun t => (t.res0, t.res1)) =
      some (32#32, 0x7FFFFFFF#32) := by decide

/-- V-WR-4: its second PUT. -/
theorem test_wrbits_crosses_bytes :
    leaves (.wrbits 32#6) { State.reset with opa := 0xABCDEF12#32, acc := 1#7, nb := 1#3 }
      (fun t => (t.mem, t.rawLen, t.wstatWord)) =
    some ([(0x8000, 0xD5#8), (0x8001, 0xE6#8), (0x8002, 0xF7#8), (0x8003, 0x89#8)], 4, 0x00000001#32) := by decide
/-- V-WR-13: its second step. -/
theorem test_wrbits_full :
    leaves (.wrbits 7#6) { State.reset with rawLen := 4096, acc := 1#7, nb := 1#3 }
      (fun t => (t.statusWord, t.wstatWord, t.rawLen)) = some (0x00200606#32, 0x00000101#32, 4096) := by decide
/-- V-WR-2. -/
theorem test_wflush_pads :
    leaves .wflush { State.reset with acc := 5#7, nb := 3#3 } (fun t => (t.mem, t.wstatWord, t.rawLen)) =
      some ([(0x8000, 0xA0#8)], 0#32, 1) := by decide
/-- V-WR-14. -/
theorem test_wflush_full :
    leaves .wflush { State.reset with rawLen := 4096, nb := 3#3 } State.statusWord = some 0x00210606#32 := by decide
/-- V-WR-9. -/
theorem test_wfinal_stuffs :
    leaves .wfinal { State.reset with mem := bytesAt 0x8000 [0x12#8, 0xFF#8, 0x34#8], rawLen := 3 }
      (fun t => (t.outLen, [0, 1, 2, 3].map fun k => t.mem.read (0xA000 + k))) =
    some (4, [some 0x12#8, some 0xFF#8, some 0x00#8, some 0x34#8]) := by decide
/-- V-WR-6. -/
theorem test_wfinal_pads :
    leaves .wfinal { State.reset with acc := 3#7, nb := 2#3 } (fun t => (t.mem, t.outLen, t.wstatWord)) =
      some ([(0x8000, 0xC0#8), (0xA000, 0xC0#8)], 1, 0#32) := by decide
/-- V-WR-12: its last step. -/
theorem test_wreset_empties :
    leaves .wreset { State.reset with rawLen := 3, outLen := 5 } (fun t => (t.rawLen, t.outLen, t.wstatWord)) =
      some (0, 0, 0#32) := by decide

/-- V-RD-12: the selection of OUT. -/
theorem test_rreset_out :
    leaves (.rreset .out) { State.reset with outLen := 4, rinLen := 2, rp := 7, rb := 3#3 }
      (fun t => (t.rlen, t.rposWord)) = some (4, 0x80000000#32) := by decide
/-- R210: the selection of RIN. -/
theorem test_rreset_rin :
    leaves (.rreset .rin) { State.reset with outLen := 4, rinLen := 2, rsrc := .out, rp := 7, rb := 3#3 }
      (fun t => (t.rlen, t.rposWord)) = some (2, 0#32) := by decide
/-- V-RD-2: the first read. -/
theorem test_rdbits_skips_one_stuffed_byte :
    leaves (.rdbits 16#6) (reading [0xFF#8, 0xFF#8, 0x00#8, 0x12#8]) (fun t => (t.res0, t.rp, t.rb)) =
      some (0xFFFF#32, 3, 0#3) := by decide
/-- V-RD-10. -/
theorem test_rdbits_end :
    leaves (.rdbits 1#6) State.reset (fun t => (t.statusWord, t.res0, t.rp)) = some (0x00310306#32, 0#32, 0) := by decide

/-! ## The host's accesses -/

/-- V-SYS-9: ID. -/
theorem test_read_id :
    (nextOf (hostEvent (.read .w32 0#16) State.reset)).map State.readLog = some [0x4A425445#32] := by decide
/-- V-SYS-8. -/
theorem test_status_write_clears_done_only :
    (nextOf (hostEvent (.write .w32 0x00C#16 2#32)
      { State.reset with done := true, dropped := true, error := some ⟨.illegalCommand, 0x14#8⟩ })).map
      State.statusWord = some 0x0014010C#32 := by decide
/-- V-SYS-13. -/
theorem test_unaligned_read_is_a_bus_error :
    faultOf (hostEvent (.read .w32 2#16) State.reset) = some (.busError 2#16) := by decide
/-- V-RD-13. -/
theorem test_rinlen_is_clamped :
    (nextOf (hostEvent (.write .w32 0x02C#16 0x10000#32) State.reset)).map State.rinLen = some 8192 := by decide
/-- V-SYS-6: a dropped command. -/
theorem test_command_is_dropped :
    (nextOf (hostEvent (.write .w32 0x010#16 0x32#32)
      { State.reset with done := true, error := some ⟨.illegalCommand, 0x14#8⟩ })).map
      (fun t => (t.statusWord, t.cmd)) = some (0x0014010E#32, 0x32#32) := by decide
/-- V-SYS-12: soft reset with both enables. -/
theorem test_soft_reset :
    (nextOf (hostEvent (.write .w32 0x008#16 7#32)
      { counts with error := some ⟨.illegalCommand, 0xFF#8⟩, tree := some ⟨0#2, tree1⟩ })).map
      (fun t => (t.statusWord, t.ctrlWord, t.treeinfoWord, t.mem)) = some (0#32, 6#32, 0#32, []) := by decide

/-! ## Steps -/

/-- V-WR-16: WRBITS 0 as the first command after reset. -/
theorem test_step_wrbits_zero :
    (nextOf (step (State.reset.withFetchWord 32 0x00000020))).map State.statusWord = some 0x00200206#32 := by decide
/-- V-SYS-3. -/
theorem test_step_illegal :
    (nextOf (step (State.reset.withFetchWord 32 0x000000FF))).map State.statusWord = some 0x00FF0106#32 := by decide

/-! ## Witnesses: the hypotheses of each statement, met together -/

/-- The reset state with a command pending. -/
def pending (w : Word) : State := { State.reset with cmd := w, pending := some w }

/-- A host access that does not wait: reading STATUS. -/
def poll : HostEvent := .read .w32 0x00C#16

/-- A host access that waits: reading OPA. -/
def readOpa : HostEvent := .read .w32 0x014#16

theorem decode_of_decodesTo (w : Word) (i : Instr) (h : decodesTo w i = true) : decode w = .ok i := by
  unfold decodesTo at h
  split at h <;> simp_all

theorem decode_of_refusesFor (w : Word) (r : DecodeReject) (h : refusesFor w r = true) : decode w = .error r := by
  unfold refusesFor at h
  split at h <;> simp_all

theorem witness_OpcodeRowsDoNotOverlap :
    (⟨.fdct, 1#32, 0xFFEFFFFF#32⟩ : Row) ∈ opcodeTable ∧ 0x00100001#32 &&& 0xFFEFFFFF#32 = 1#32 := by decide

theorem witness_StepRunsTheDecodedCommand :
    ((pending 0x13#32).pending = some 0x13#32 ∧ decode 0x13#32 = .ok .catmag ∧ (pending 0x13#32).engineFirst) ∧
    (let s := { pending 0x13#32 with host := [poll], turns := [.engine] }
     s.pending = some 0x13#32 ∧ s.host = poll :: [] ∧ poll.held = false ∧ s.turns = .engine :: []) ∧
    (let s := { pending 0x13#32 with host := [readOpa], turns := [.host] }
     s.engineFirst) :=
  ⟨⟨rfl, decode_of_decodesTo _ _ (by decide), .inl rfl⟩, by decide, .inr (.inl ⟨readOpa, [], rfl, by decide⟩)⟩

theorem witness_IllegalWordRaisesIllegalCommand :
    ((pending 0x14#32).pending = some 0x14#32 ∧ (pending 0x14#32).engineFirst ∧
      decode 0x14#32 = .error .unassignedOp ∧ decode 0x100#32 = .error .unusedBitSet ∧
      decode 0x30011#32 = .error .reservedBank) ∧
    (let s := { pending 0x14#32 with host := [poll], turns := [.engine] }
     s.pending = some 0x14#32 ∧ s.host = poll :: [] ∧ poll.held = false ∧ s.turns = .engine :: []) :=
  ⟨⟨rfl, .inl rfl, decode_of_refusesFor _ _ (by decide), decode_of_refusesFor _ _ (by decide),
    decode_of_refusesFor _ _ (by decide)⟩, by decide⟩

theorem witness_HostEventsAreTakenInOrder :
    (let s := { State.reset with host := [readOpa, poll] }; s.pending = none ∧ s.host = readOpa :: [poll]) ∧
    (let s := { pending 0#32 with host := [poll], turns := [.host] }
     s.pending = some 0#32 ∧ s.host = poll :: [] ∧ poll.held = false ∧ s.turns = .host :: []) ∧
    (let s := { pending 0#32 with host := [readOpa], turns := [.host] }
     s.pending = some 0#32 ∧ s.host = readOpa :: [] ∧ readOpa.held = true) ∧
    (State.reset.pending = none ∧ State.reset.host = []) := by decide

theorem witness_AcceptedCommandsComplete :
    (pending 1#32).pending ≠ none ∧
    (let s := { pending 1#32 with host := [poll, .write .w32 0x008#16 6#32, readOpa], turns := [.host, .host] }
     s.pending = some 1#32 ∧ ∀ e ∈ s.host, ¬ e.resets) := by
  simp [pending, poll, readOpa, HostEvent.resets]

theorem witness_FdctWritesTheTransformOfDin :
    impulseBlock.length = 64 ∧ ∀ k < 64, impulse.mem.readF64 (0x200 + 8 * k) = impulseBlock[k]? :=
  (Memory.readF64s_eq_some _ _ _ _).1 din_impulse

theorem witness_IdctWritesTheTransformOfQin :
    dcBlock.length = 64 ∧ ∀ k < 64, qinDc.mem.readWord (0x400 + 4 * k) = dcBlock[k]? :=
  (Memory.readWords_eq_some _ _ _ _).1 qin_dc

theorem witness_UnwrittenReadsAreFaults :
    (State.reset.mem.readF64 (0x200 + 8 * 0) = none ∧ State.reset.mem.readF64 (0x200 + 8 * 63) = none) ∧
    (State.reset.mem.readWord (0x400 + 4 * 0) = none ∧ State.reset.mem.readWord (0x400 + 4 * 63) = none) ∧
    (let s := { State.reset with rlen := 1 }
     s.sourceStarts [] ∧ s.rp + 0 < s.rlen ∧ s.mem.read 0xC000 = none ∧ s.rsrc ≠ .out ∧
      (dataBits [] s.rb.toNat).length < (1#6).toNat) ∧
    (let s := { reading [0xFF#8] with rlen := 2 }
     s.sourceStarts [0xFF#8] ∧ s.rp + 1 < s.rlen ∧ s.mem.read 0xC001 = none ∧
      (dataBits [0xFF#8] s.rb.toNat).length = (8#6).toNat ∧ [0xFF#8].getLast? = some 0xFF#8) ∧
    (let s := { State.reset with mem := bytesAt 0xA000 [0xAB#8, 0xCD#8], rlen := 2, outLen := 1, rsrc := .out, rb := 7#3 }
     s.sourceStarts [0xAB#8] ∧ s.rp + 1 < s.rlen ∧ s.rsrc ≠ .rin ∧ s.outLen ≤ s.rp + 1 ∧
      (dataBits [0xAB#8] s.rb.toNat).length < (32#6).toNat) := by
  unfold State.sourceStarts
  decide

theorem witness_HclearClearsItsBank : (0#2 : BitVec 2) ≠ 3#2 ∧ (2#2 : BitVec 2) ≠ 3#2 := by decide

theorem witness_HbuildBuildsATreeOfTheAlphabet :
    ((2#2 : BitVec 2) ≠ 3#2 ∧ ∃ sym < 256, oneCount.mem.freq 2#2 sym ≠ 0#32) ∧
    ((0#2 : BitVec 2) ≠ 3#2 ∧ (∃ sym < 256, counts.mem.freq 0#2 sym ≠ 0#32) ∧
      2 ≤ ((List.range 256).filter fun sym => counts.mem.freq 0#2 sym != 0#32).length) :=
  ⟨⟨by decide, 200, by decide, by decide⟩, by decide, ⟨0x41, by decide, by decide⟩, by decide +kernel⟩

theorem witness_HbuildMergesTheTwoLeastNodes :
    ((2#2 : BitVec 2) ≠ 3#2 ∧ ∃ sym < 256, oneCount.mem.freq 2#2 sym ≠ 0#32) ∧
    ((0#2 : BitVec 2) ≠ 3#2 ∧ ∃ sym < 256, counts.mem.freq 0#2 sym ≠ 0#32) :=
  ⟨⟨by decide, 200, by decide, by decide⟩, by decide, 0x41, by decide, by decide⟩

theorem witness_HbuildOfNoSymbolsRaisesEmptyAlphabet :
    (2#2 : BitVec 2) ≠ 3#2 ∧ ∀ sym < 256, State.reset.mem.freq 2#2 sym = 0#32 := by decide +kernel

theorem witness_HtableWritesTheCodeTable :
    (let s := withTree 2#2 tree4
     s.tree = some ⟨2#2, tree4⟩ ∧ (tree4.leaves.map Prod.fst).Nodup ∧ ∀ p ∈ tree4.codeWords, p.2.length ≤ 64) ∧
    (let s := withTree 0#2 (comb 64)
     s.tree = some ⟨0#2, comb 64⟩ ∧ ((comb 64).leaves.map Prod.fst).Nodup ∧
      (∀ p ∈ (comb 64).codeWords, p.2.length ≤ 64) ∧ (0#8, List.replicate 64 false) ∈ (comb 64).codeWords ∧
      ∀ p ∈ (comb 64).codeWords, p.1.toNat ≠ 255) := by decide +kernel

theorem witness_HtableErrorsWriteNothing :
    State.reset.tree = none ∧ (withTree 0#2 (comb 65)).tree = some ⟨0#2, comb 65⟩ ∧
      ∃ p ∈ (comb 65).codeWords, 64 < p.2.length :=
  ⟨rfl, rfl, (0#8, List.replicate 65 false), by decide +kernel, by decide⟩

theorem witness_HtableAfterHbuildRaisesNothing :
    (2#2 : BitVec 2) ≠ 3#2 ∧ ∃ sym < 256, oneCount.mem.freq 2#2 sym ≠ 0#32 := ⟨by decide, 200, by decide, by decide⟩

/-- The table of the tree of V-HUF-1. -/
def table1 : List LutEntry := (codeTable tree1).toOption.getD []

theorem witness_CodesArePrefixFree :
    buildTree counts.mem 0#2 = some tree1 ∧ codeTable tree1 = .ok table1 ∧
    (0x41 ≠ 0x43 ∧ table1[0x41]? = some ⟨1#64, 1#7, true⟩ ∧ table1[0x43]? = some ⟨2#64, 3#7, true⟩ ∧
      (1#7).toNat ≤ (3#7).toNat) ∧ 2 ≤ (counts.mem.alphabet 0#2).length := by
  refine ⟨by decide +kernel, ?_, by decide +kernel, by decide +kernel⟩
  have h : (codeTable tree1).toOption.isSome = true := by decide +kernel
  unfold table1
  cases hc : codeTable tree1 <;> simp_all [Except.toOption]

theorem witness_CatmagIsInvertible :
    (let s := { State.reset with opa := 0x7FFFFFFF#32 }
     let t := { s with res0 := 31#32, res1 := 0x7FFFFFFF#32, done := true }
     exec .catmag s = .next t ∧ s.opa ≠ 0#32 ∧ t.res1.getLsbD (t.res0.toNat - 1) = true) ∧
    (let s := { State.reset with opa := 0x80000000#32 }
     let t := { s with res0 := 32#32, res1 := 0x7FFFFFFF#32, done := true }
     exec .catmag s = .next t ∧ s.opa ≠ 0#32 ∧ t.res1.getLsbD (t.res0.toNat - 1) = false) := by
  refine ⟨⟨?_, by decide, by decide⟩, ⟨?_, by decide, by decide⟩⟩ <;> rfl

theorem witness_WrbitsAppendsToTheStream :
    (1 ≤ (1#6).toNat ∧ (1#6).toNat ≤ 32 ∧ State.reset.rawLen + (State.reset.nb.toNat + (1#6).toNat) / 8 ≤ 4096) ∧
    (let s := { State.reset with rawLen := 4092, nb := 7#3 }
     1 ≤ (32#6).toNat ∧ (32#6).toNat ≤ 32 ∧ s.rawLen + (s.nb.toNat + (32#6).toNat) / 8 ≤ 4096) ∧
    (let s := { State.reset with rawLen := 4096 }
     s.rawLen + (s.nb.toNat + (7#6).toNat) / 8 ≤ 4096) := by decide

theorem witness_BadCountRaisesInvalidBitCount : (0#6).toNat = 0 ∧ 33 ≤ (33#6).toNat ∧ 33 ≤ (63#6).toNat := by decide

theorem witness_FullWriterRaisesBufferFull :
    (let s := { State.reset with rawLen := 4096, nb := 7#3 }
     1 ≤ (1#6).toNat ∧ (1#6).toNat ≤ 32 ∧ 4096 < s.rawLen + (s.nb.toNat + (1#6).toNat) / 8) ∧
    (let s := { State.reset with rawLen := 4096, nb := 1#3 }; s.nb ≠ 0#3 ∧ 4096 < s.rawLen + 1) := by decide

theorem witness_WflushPadsWithZeros :
    State.reset.nb = 0#3 ∧ (let s := { State.reset with rawLen := 4095, nb := 7#3 }; s.nb ≠ 0#3 ∧ s.rawLen < 4096) := by
  decide

theorem witness_WfinalStuffsRawIntoOut :
    (let s := { State.reset with rawLen := 4096 }; s.rawLen ≤ 4096 ∧ (s.nb ≠ 0#3 → s.rawLen < 4096)) ∧
    (let s := { State.reset with rawLen := 4095, nb := 1#3 }
     s.rawLen ≤ 4096 ∧ s.nb ≠ 0#3 ∧ (s.nb ≠ 0#3 → s.rawLen < 4096)) := by decide

theorem witness_RdbitsReadsDestuffedBits :
    (let s := reading [0xAB#8, 0xFF#8, 0x00#8, 0xCD#8]
     s.sourceStarts [0xAB#8, 0xFF#8, 0x00#8, 0xCD#8] ∧ s.sourceEnds [0xAB#8, 0xFF#8, 0x00#8, 0xCD#8] ∧
      (24#6).toNat = (dataBits [0xAB#8, 0xFF#8, 0x00#8, 0xCD#8] s.rb.toNat).length ∧
      (dataBits [0xAB#8, 0xFF#8, 0x00#8, 0xCD#8] s.rb.toNat).length < (25#6).toNat) ∧
    (let s := { reading [0xAB#8, 0xFF#8] with rlen := 9, rb := 1#3 }
     s.sourceStarts [0xAB#8] ∧ ¬ s.sourceEnds [0xAB#8] ∧ (7#6).toNat = (dataBits [0xAB#8] s.rb.toNat).length ∧
      [0xAB#8].getLast? ≠ some 0xFF#8 ∧
      s.sourceStarts [0xAB#8, 0xFF#8] ∧ (14#6).toNat < (dataBits [0xAB#8, 0xFF#8] s.rb.toNat).length) ∧
    (let s := { reading [] with rsrc := .out }
     s.sourceStarts [] ∧ s.sourceEnds [] ∧ (dataBits [] s.rb.toNat).length < (1#6).toNat) := by
  unfold State.sourceStarts State.sourceEnds
  decide

theorem witness_WrittenBitsReadBack :
    (let items : List (BitVec 6 × Word) := List.replicate 1024 (32#6, 0xFFFFFFFF#32)
     (∀ x ∈ items, 1 ≤ x.1.toNat ∧ x.1.toNat ≤ 32) ∧ (items.map fun x => x.1.toNat).sum ≤ 8 * 4096) ∧
    (let items : List (BitVec 6 × Word) := [(1#6, 1#32)]
     (∀ x ∈ items, 1 ≤ x.1.toNat ∧ x.1.toNat ≤ 32) ∧ (items.map fun x => x.1.toNat).sum ≤ 8 * 4096 ∧
      (7#6).toNat ≤ padCount (items.map fun x => x.1.toNat).sum ∧
      padCount (items.map fun x => x.1.toNat).sum < (8#6).toNat) := by
  refine ⟨⟨fun x hx => ?_, ?_⟩, by simp, by decide, by decide, by decide⟩
  · rw [List.eq_of_mem_replicate hx]; decide
  · simp only [List.map_replicate, List.sum_replicate_nat]; decide

theorem witness_ErrorsChangeStatusOnly :
    exec .htable State.reset = .next (stateAfter .htable State.reset) ∧ State.reset.error = none ∧
      (stateAfter .htable State.reset).error ≠ none :=
  ⟨exec_stateAfter _ _ (by decide), rfl, by decide⟩

theorem witness_EveryCommandSetsDone : exec .nop (pending 0#32) = .next (complete (pending 0#32)) := rfl

theorem witness_ResultRegistersHaveFewWriters :
    (let s := { State.reset with opa := 5#32 }
     exec .catmag s = .next (stateAfter .catmag s) ∧ (stateAfter .catmag s).res0 ≠ s.res0 ∧
      (stateAfter .catmag s).res1 ≠ s.res1) ∧
    (let s := reading [0xAB#8]
     exec (.rdbits 4#6) s = .next (stateAfter (.rdbits 4#6) s) ∧ (stateAfter (.rdbits 4#6) s).res0 ≠ s.res0) :=
  ⟨⟨exec_stateAfter _ _ (by decide), by decide, by decide⟩, exec_stateAfter _ _ (by decide), by decide⟩

theorem witness_EachBufferHasItsWriters :
    (exec (.hbuild 2#2) oneCount = .next (stateAfter (.hbuild 2#2) oneCount) ∧ oneCount.rawLen ≤ 4096 ∧
      (stateAfter (.hbuild 2#2) oneCount).tree ≠ oneCount.tree) ∧
    (let s := { State.reset with rawLen := 4095, acc := 1#7, nb := 1#3 }
     exec .wflush s = .next (stateAfter .wflush s) ∧ s.rawLen ≤ 4096 ∧
      (stateAfter .wflush s).mem.read 0x8FFF ≠ s.mem.read 0x8FFF) :=
  ⟨⟨exec_stateAfter _ _ (by decide +kernel), by decide, by decide +kernel⟩,
    exec_stateAfter _ _ (by decide), by decide, by decide⟩

theorem witness_WriterAndReaderAreIndependent :
    exec .wreset State.reset = .next (stateAfter .wreset State.reset) ∧
    exec (.rreset .out) State.reset = .next (stateAfter (.rreset .out) State.reset) := ⟨rfl, rfl⟩

theorem witness_DctDependsOnItsInputOnly :
    (let s := impulse
     let s' := { impulse with opa := 1#32 }
     (∃ t, exec (.fdct .ref) s = .next t) ∧ (∃ t', exec (.fdct .ref) s' = .next t') ∧
      ∀ a, 0x200 ≤ a → a < 0x400 → s.mem.read a = s'.mem.read a) ∧
    (let s := qinDc
     let s' := { qinDc with opa := 1#32 }
     (∃ t, exec (.idct .fast) s = .next t) ∧ (∃ t', exec (.idct .fast) s' = .next t') ∧
      ∀ a, 0x400 ≤ a → a < 0x500 → s.mem.read a = s'.mem.read a) :=
  ⟨⟨⟨_, execFdct_next _ _ _ din_impulse⟩, ⟨_, execFdct_next _ _ _ din_impulse⟩, fun _ _ _ => rfl⟩,
    ⟨_, execIdct_next _ _ _ qin_dc⟩, ⟨_, execIdct_next _ _ _ qin_dc⟩, fun _ _ _ => rfl⟩

theorem witness_DctOfZeroIsZero :
    let f : List F64 := 0x8000000000000000#64 :: List.replicate 63 0#64
    f.length = 64 ∧ ∀ x ∈ f, x = 0#64 ∨ x = 0x8000000000000000#64 := by
  simp

theorem witness_DatapathsAreTheirFlowgraphs :
    (let f : List F64 := 0x7E70000000000000#64 :: List.replicate 63 0#64
     f.length = 64 ∧ f.all Binary64.covered = true) ∧ dcBlock.length = 64 ∧ (0 : Nat) < 8 ∧ (7 : Nat) < 8 := by
  decide +kernel

/-- Eight ones transform forward to 8 and seven zeros, and a one in front transforms back to eight ones. -/
theorem witness_ButterfliesAreScaledTransforms :
    IsFwd8Exact (fun _ => 1) (fun k => if k = 0 then 8 else 0) ∧
      IsInv8Exact (fun k => if k = 0 then 1 else 0) (fun _ => 1) := by
  refine ⟨⟨2, 2, 2, 2, 0, 0, 0, 0, 4, 4, 0, 0, 0, 0, 0, 0, 0, 0, 0, 0, 0, 0, ?_⟩,
    ⟨1, 1, 0, 0, 1, 1, 1, 1, 0, 0, 0, 0, 0, 0, 0, 0, 0, 0, 0, 0, ?_⟩⟩ <;> norm_num

theorem witness_RomConstantsAreNearest : (0 : Nat) < 8 ∧ (7 : Nat) < 8 := by decide

/-- 1 + 2^-53 lies half way between 1 and the next number, and goes to 1, whose last bit is 0. -/
theorem witness_AdditionRoundsToNearestEven :
    let a := 0x3FF0000000000000#64
    let b := 0x3CA0000000000000#64
    let c := 0x3FF0000000000001#64
    Binary64.isFinite a = true ∧ Binary64.isFinite b = true ∧ Binary64.isFinite (Binary64.add a b) = true ∧
      Binary64.isFinite c = true ∧ Binary64.add a b = a ∧
      |binary64Value a - (binary64Value a + binary64Value b)| = |binary64Value c - (binary64Value a + binary64Value b)| ∧
      binary64Value c ≠ binary64Value a := by decide +kernel

/-- (1 + 2^-52) · 1.5 lies half way between two numbers. -/
theorem witness_MultiplicationRoundsToNearestEven :
    let a := 0x3FF0000000000001#64
    let b := 0x3FF8000000000000#64
    let r := 0x3FF8000000000002#64
    let c := 0x3FF8000000000001#64
    Binary64.isFinite a = true ∧ Binary64.isFinite b = true ∧ Binary64.isFinite (Binary64.mul a b) = true ∧
      Binary64.isFinite c = true ∧ Binary64.mul a b = r ∧
      |binary64Value r - binary64Value a * binary64Value b| = |binary64Value c - binary64Value a * binary64Value b| ∧
      binary64Value c ≠ binary64Value r := by decide +kernel

theorem witness_FailStopDropsCommands :
    let s := { State.reset with error := some ⟨.noTree, 0x12#8⟩ }
    s.error = some ⟨.noTree, 0x12#8⟩ := rfl

theorem witness_SoftResetResetsTheRegisters :
    (7#32).getLsbD 0 = true ∧ (pending 0x21#32).pending = some 0x21#32 ∧
      ∀ mode, decode 0x21#32 ≠ .ok (.fdct mode) ∧ decode 0x21#32 ≠ .ok (.idct mode) := by
  refine ⟨by decide, rfl, fun mode => ?_⟩
  simp [decode_of_decodesTo 0x21#32 .wflush (by decide)]

theorem witness_MalformedAccessesAreBusErrors :
    Width.w8 ≠ .w32 ∧ (2#16).toNat % 4 ≠ 0 ∧ (0xFFFF#16).toNat % 4 ≠ 0 := by decide

/-- R65 at the edges of its ranges; a reserved offset waits (R231, log entry 12). -/
theorem test_held_accesses :
    ([0x010#16, 0x038#16, 0x03B#16, 0x200#16, 0xDFFC#16].all fun off => (HostEvent.read .w32 off).held) = true ∧
    ([0x000#16, 0x004#16, 0x008#16, 0x00C#16].all fun off => !(HostEvent.read .w32 off).held) = true ∧
    (HostEvent.write .w32 0x004#16 0#32).held = true ∧ (HostEvent.write .w32 0x00C#16 0#32).held = false ∧
    ([0x03C#16, 0x1FC#16, 0xE000#16, 0xFFFC#16].all fun off =>
      (HostEvent.read .w32 off).held && (HostEvent.write .w32 off 0#32).held) = true := by decide

theorem witness_LegalAccessesFollowTheMap :
    (0x03C#16).toNat % 4 = 0 ∧ 0x03C ≤ (0x03C#16).toNat ∧ (0x1FC#16).toNat < 0x200 ∧
    (0xFFFC#16).toNat % 4 = 0 ∧ 0xE000 ≤ (0xFFFC#16).toNat ∧ (0x004#16).toNat < 0x008 ∧
    (0x028#16).toNat % 4 = 0 ∧ (0x028#16).toNat < 0x02C ∧ 0x030 ≤ (0x030#16).toNat ∧
    (let s := { State.reset with mem := bytesAt 0x8000 [0x12#8, 0xFF#8, 0x34#8], rawLen := 2 }
     s.mem.read (0x8000 + 1) = some 0xFF#8 ∧ 0x8000 + 1 < 0x8000 + s.rawLen ∧ ¬ 0x8000 + 2 < 0x8000 + s.rawLen) ∧
    (let s := { State.reset with mem := bytesAt 0xBFFC [1#8, 2#8, 3#8, 4#8], outLen := 8192 }
     s.mem.read (0xBFFC + 3) = some 4#8 ∧ 0xBFFC + 3 < 0xA000 + s.outLen) ∧
    counts.mem.read (0x1104 + 0) = some 5#8 ∧ (2#2 : BitVec 2) ≠ 3#2 ∧ 255 < 256 := by decide

theorem witness_BufferWordsReadBack :
    [0x200#16, 0x4FC#16, 0x1000#16, 0x1BFC#16, 0xC000#16, 0xDFFC#16].all (fun off => decide (off.toNat % 4 = 0 ∧
      ((0x200 ≤ off.toNat ∧ off.toNat < 0x500) ∨ (0x1000 ≤ off.toNat ∧ off.toNat < 0x1C00) ∨
        (0xC000 ≤ off.toNat ∧ off.toNat < 0xE000)))) = true := by decide

theorem witness_RegisterWritesTakeTheirValues :
    (6#32).getLsbD 0 = false ∧ State.reset.error = none ∧ (8192#32).toNat ≤ 8192 ∧ ¬ (8193#32).toNat ≤ 8192 := by
  decide

theorem witness_StepKeepsMemoryCanonical :
    counts.mem.wf = true ∧ step { counts with pending := some 0x11#32 } =
      .next (stateAfter (.hbuild 0#2) { counts with pending := some 0x11#32 }) := by
  refine ⟨by decide, ?_⟩
  rw [step_engine _ 0x11#32 rfl (by exact .inl rfl)]
  unfold perform
  rw [decode_of_decodesTo 0x11#32 (.hbuild 0#2) (by decide)]
  exact exec_stateAfter _ _ (by decide +kernel)

theorem witness_StepKeepsTheStreamInvariants :
    (let s := pending 0#32; WriterInv s ∧ OutInv s ∧ ReaderInv s ∧ EngineInv s) ∧
      step (pending 0#32) = .next (complete (pending 0#32)) := by
  refine ⟨⟨⟨by decide, by decide, ?_⟩, ⟨by decide, ?_⟩, ⟨by decide, by decide, by decide, fun _ => rfl⟩, ?_⟩, rfl⟩
  · intro k h; exact absurd h (Nat.not_lt_zero k)
  · intro k h; exact absurd h (Nat.not_lt_zero k)
  · intro w h; exact ⟨by simpa [pending] using h, rfl⟩

theorem blank_table : ∀ bank < 3, ∀ sym < 256, Memory.lutEntry [] (BitVec.ofNat 2 bank) sym = LutEntry.empty := by
  decide +kernel

theorem witness_StepKeepsTablesAndTree :
    (let s := { withTree 2#2 tree4 with pending := some 0#32 }
     LutInv s ∧ TreeInv s ∧ step s = .next (complete s)) := by
  refine ⟨?_, ?_, rfl⟩
  · intro bank hb sym hs
    have h := blank_table bank.toNat (by exact of_decide_eq_true hb) sym hs
    have he : (withTree 2#2 tree4).mem.lutEntry bank sym = LutEntry.empty := by simpa [withTree, State.reset] using h
    simp only [he]
    exact ⟨rfl, rfl⟩
  · intro t ht
    cases ht
    exact ⟨by decide, rfl, 200#8, 1#32, rfl, rfl, by decide⟩

end Sys2Proof.Tests
end

section
/-! PROOFS. Binary64 rounding (R11, R138). The low 63 bits of a result are `scale * 2 ^ 52 + significand`, so a result is
a multiple of a power of two and the rounding is that of one rational to an integer. A finite number off that grid lies
below its first normal point `2 ^ 52`, and the result is nearer than that. -/

namespace Sys2Proof.Binary64

open Sys2Proof.Machine (binary64Value)

/-! ## Rounding a rational to an integer -/

/-- `n` is the integer nearest to `y`, the even one of two. -/
def NearestEven (n : ℤ) (y : ℚ) : Prop := |(n : ℚ) - y| ≤ 1 / 2 ∧ (|(n : ℚ) - y| = 1 / 2 → Even n)

theorem nearestEven_self (n : ℤ) : NearestEven n n := by
  constructor <;> norm_num

/-- Rounding does not pass an integer bound, from below or from above. -/
theorem NearestEven.le_of_le {n b : ℕ} {y : ℚ} (h : NearestEven n y) (hy : y ≤ b) : n ≤ b := by
  obtain ⟨-, hup⟩ := abs_le.1 h.1
  have hlt : (n : ℚ) < b + 1 := by push_cast at hup; linarith
  exact Nat.lt_add_one_iff.1 (by exact_mod_cast hlt)

theorem NearestEven.ge_of_ge {n b : ℕ} {y : ℚ} (h : NearestEven n y) (hy : b ≤ y) : b ≤ n := by
  obtain ⟨hdown, -⟩ := abs_le.1 h.1
  have hlt : (b : ℚ) < n + 1 := by push_cast at hdown; linarith
  exact Nat.lt_add_one_iff.1 (by exact_mod_cast hlt)

/-- No integer is nearer, and one equally near leaves `n` even. -/
theorem NearestEven.closest {n : ℤ} {y : ℚ} (h : NearestEven n y) (j : ℤ) :
    |(n : ℚ) - y| ≤ |(j : ℚ) - y| ∧ (|(n : ℚ) - y| = |(j : ℚ) - y| → j ≠ n → Even n) := by
  obtain ⟨hhalf, htie⟩ := h
  by_cases hjn : j = n
  · subst hjn
    exact ⟨le_rfl, fun _ hne => absurd rfl hne⟩
  · have hgap : (1 : ℚ) ≤ |(j : ℚ) - y| + |(n : ℚ) - y| := by
      have hint : (1 : ℚ) ≤ |(j : ℚ) - n| := by exact_mod_cast Int.one_le_abs (sub_ne_zero.2 hjn)
      exact hint.trans (abs_sub_comm (n : ℚ) y ▸ abs_sub_le (j : ℚ) y n)
    exact ⟨by linarith, fun heq _ => htie (by linarith)⟩

/-- The rule of `roundShift`, for a quotient `q` and a remainder `r` below 1. -/
theorem nearestEven_of_remainder (q : ℕ) {r : ℚ} (hr0 : 0 ≤ r) (hr1 : r < 1) :
    NearestEven (if r < 1 / 2 then q else if r = 1 / 2 then q + q % 2 else q + 1 : ℕ) (q + r) := by
  unfold NearestEven
  split_ifs with hbelow htie
  · have hdist : |((q : ℤ) : ℚ) - (q + r)| = r := by
      rw [Int.cast_natCast, sub_add_cancel_left, abs_neg, abs_of_nonneg hr0]
    rw [hdist]
    exact ⟨hbelow.le, fun h => absurd h hbelow.ne⟩
  · have heven : Even (q + q % 2) := by rw [Nat.even_iff]; omega
    refine ⟨?_, fun _ => by exact_mod_cast heven⟩
    rw [htie, Int.cast_natCast, Nat.cast_add, add_sub_add_left_eq_sub]
    obtain h | h := Nat.mod_two_eq_zero_or_one q <;> norm_num [h, abs_le]
  · have hdist : |((q + 1 : ℕ) : ℤ) - (q + r)| = 1 - r := by
      push_cast
      rw [add_sub_add_left_eq_sub, abs_of_pos (by linarith)]
    have habove : 1 / 2 < r := lt_of_le_of_ne (not_lt.1 hbelow) (Ne.symm htie)
    rw [hdist]
    exact ⟨by linarith, fun h => by linarith⟩

/-- `roundShift` rounds to nearest, ties to even (R138). -/
theorem roundShift_nearestEven (m k : ℕ) : NearestEven (roundShift m k) ((m : ℚ) / 2 ^ k) := by
  have hpos : (0 : ℚ) < 2 ^ k := by positivity
  have hsplit : (m : ℚ) / 2 ^ k = (m / 2 ^ k : ℕ) + (m % 2 ^ k : ℕ) / 2 ^ k := by
    have hdiv : (2 : ℚ) ^ k * (m / 2 ^ k : ℕ) + (m % 2 ^ k : ℕ) = m := by exact_mod_cast Nat.div_add_mod m (2 ^ k)
    field_simp
    linarith
  have hr1 : ((m % 2 ^ k : ℕ) : ℚ) / 2 ^ k < 1 := by
    rw [div_lt_one hpos]
    exact_mod_cast Nat.mod_lt m (by positivity)
  have hlt : 2 * (m % 2 ^ k) < 2 ^ k ↔ ((m % 2 ^ k : ℕ) : ℚ) / 2 ^ k < 1 / 2 := by
    rw [div_lt_div_iff₀ hpos two_pos, mul_comm, one_mul]
    exact_mod_cast Iff.rfl
  have heq : 2 * (m % 2 ^ k) = 2 ^ k ↔ ((m % 2 ^ k : ℕ) : ℚ) / 2 ^ k = 1 / 2 := by
    rw [div_eq_div_iff hpos.ne' two_ne_zero, mul_comm, one_mul]
    exact_mod_cast Iff.rfl
  simp only [roundShift, hlt, heq]
  rw [hsplit]
  exact nearestEven_of_remainder _ (by positivity) hr1

/-! ## Rounding to a grid of step `2 ^ sc` -/

/-- Against a number `j * 2 ^ e` with a significand of `p + 1` bits, rounding in units of `2 ^ sc` is nearest with ties
to even: such a number is a multiple of `2 ^ sc`, or it lies below the grid's point `2 ^ p`, which `y` has reached. -/
theorem NearestEven.scaled_closest {n : ℤ} {y : ℚ} {p sc : ℕ} (h : NearestEven n y) (hlow : sc ≠ 0 → 2 ^ p ≤ y)
    {j : ℤ} (hj : j < 2 ^ (p + 1)) (e : ℕ) :
    |(n : ℚ) * 2 ^ sc - y * 2 ^ sc| ≤ |(j : ℚ) * 2 ^ e - y * 2 ^ sc| ∧
      (|(n : ℚ) * 2 ^ sc - y * 2 ^ sc| = |(j : ℚ) * 2 ^ e - y * 2 ^ sc| → (j : ℚ) * 2 ^ e ≠ n * 2 ^ sc → Even n) := by
  have hpos : (0 : ℚ) < 2 ^ sc := by positivity
  have hscale : ∀ x : ℚ, |x * 2 ^ sc - y * 2 ^ sc| = |x - y| * 2 ^ sc := fun x => by
    rw [← sub_mul, abs_mul, abs_of_pos hpos]
  obtain hle | hgt := le_or_gt sc e
  · have hgrid : (j : ℚ) * 2 ^ e = ((j * 2 ^ (e - sc) : ℤ) : ℚ) * 2 ^ sc := by
      push_cast
      rw [mul_assoc, ← pow_add, Nat.sub_add_cancel hle]
    obtain ⟨hnear, htie⟩ := h.closest (j * 2 ^ (e - sc))
    rw [hgrid, hscale, hscale]
    refine ⟨mul_le_mul_of_nonneg_right hnear hpos.le, fun heq hne => htie (mul_right_cancel₀ hpos.ne' heq) ?_⟩
    rintro rfl
    exact hne rfl
  · have hy := hlow (by omega)
    have hbelow : (j : ℚ) * 2 ^ e < 2 ^ p * 2 ^ sc := by
      calc (j : ℚ) * 2 ^ e < 2 ^ (p + 1) * 2 ^ e := by
            exact mul_lt_mul_of_pos_right (by exact_mod_cast hj) (by positivity)
        _ = 2 ^ p * 2 ^ (e + 1) := by ring
        _ ≤ 2 ^ p * 2 ^ sc := by
            exact mul_le_mul_of_nonneg_left (pow_le_pow_right₀ one_le_two hgt) (by positivity)
    have hcloser : |(n : ℚ) * 2 ^ sc - y * 2 ^ sc| < |(j : ℚ) * 2 ^ e - y * 2 ^ sc| := by
      obtain ⟨hnear, -⟩ := h.closest (2 ^ p)
      push_cast at hnear
      calc |(n : ℚ) * 2 ^ sc - y * 2 ^ sc| = |(n : ℚ) - y| * 2 ^ sc := hscale n
        _ ≤ |2 ^ p - y| * 2 ^ sc := mul_le_mul_of_nonneg_right hnear hpos.le
        _ = y * 2 ^ sc - 2 ^ p * 2 ^ sc := by rw [abs_sub_comm, abs_of_nonneg (sub_nonneg.2 hy), sub_mul]
        _ < y * 2 ^ sc - j * 2 ^ e := sub_lt_sub_left hbelow _
        _ ≤ |(j : ℚ) * 2 ^ e - y * 2 ^ sc| := by rw [abs_sub_comm]; exact le_abs_self _
    exact ⟨hcloser.le, fun heq => absurd heq hcloser.ne⟩

/-! ## The fields of an encoding -/

theorem mant_lt (x : F64) : mant x < 2 ^ 53 := by
  have hfrac : fraction x < 2 ^ 52 := Nat.mod_lt _ (by positivity)
  unfold mant
  split_ifs <;> omega

theorem isFinite_iff (x : F64) : isFinite x = true ↔ expField x ≠ 2047 := by simp [isFinite]

theorem not_isNaN_of_isFinite {x : F64} (h : isFinite x = true) : isNaN x = false := by
  simp [isNaN, (isFinite_iff x).1 h]

theorem not_isInf_of_isFinite {x : F64} (h : isFinite x = true) : isInf x = false := by
  simp [isInf, (isFinite_iff x).1 h]

theorem toNat_pack (s : Bool) {mag : ℕ} (h : mag < 2 ^ 63) :
    (pack s mag).toNat = (if s then 2 ^ 63 else 0) + mag := by
  rw [pack, BitVec.toNat_ofNat]
  apply Nat.mod_eq_of_lt
  split_ifs <;> omega

theorem sign_pack (s : Bool) {mag : ℕ} (h : mag < 2 ^ 63) : sign (pack s mag) = s := by
  rw [sign, BitVec.getLsbD, toNat_pack s h, Nat.testBit_eq_decide_div_mod_eq]
  cases s <;> simp <;> omega

theorem expField_pack (s : Bool) {mag : ℕ} (h : mag < 2 ^ 63) : expField (pack s mag) = mag / 2 ^ 52 := by
  rw [expField, toNat_pack s h]
  split_ifs <;> omega

theorem fraction_pack (s : Bool) {mag : ℕ} (h : mag < 2 ^ 63) : fraction (pack s mag) = mag % 2 ^ 52 := by
  rw [fraction, toNat_pack s h]
  split_ifs <;> omega

theorem getLsbD_pack_zero (s : Bool) {mag : ℕ} (h : mag < 2 ^ 63) (heven : Even mag) :
    (pack s mag).getLsbD 0 = false := by
  rw [BitVec.getLsbD, toNat_pack s h, Nat.testBit_zero]
  have hmod := Nat.even_iff.1 heven
  split_ifs <;> simp <;> omega

/-- A significand that has carried to `2 ^ 53` counts on into the exponent field (R138). -/
theorem mant_mul_scale_pack (s : Bool) {sc sig : ℕ} (hsig : sig ≤ 2 ^ 53) (hnorm : sc ≠ 0 → 2 ^ 52 ≤ sig)
    (h : sc * 2 ^ 52 + sig < 2 ^ 63) :
    mant (pack s (sc * 2 ^ 52 + sig)) * 2 ^ scale (pack s (sc * 2 ^ 52 + sig)) = sig * 2 ^ sc := by
  rw [mant, scale, expField_pack s h, fraction_pack s h]
  obtain hsub | hnormal | rfl : sig < 2 ^ 52 ∨ (2 ^ 52 ≤ sig ∧ sig < 2 ^ 53) ∨ sig = 2 ^ 53 := by omega
  · obtain rfl : sc = 0 := by omega
    rw [if_pos (by omega)]
    congr 1
    · omega
    · congr 1
      omega
  · rw [if_neg (by omega)]
    congr 1
    · omega
    · congr 1
      omega
  · have hexp : (sc * 2 ^ 52 + 2 ^ 53) / 2 ^ 52 - 1 = sc + 1 := by omega
    have hfrac : (sc * 2 ^ 52 + 2 ^ 53) % 2 ^ 52 = 0 := by omega
    rw [if_neg (by omega), hexp, hfrac]
    ring

/-! ## The value of an encoding -/

/-- `x`, negated where the sign bit `s` is set. -/
def withSign (s : Bool) (x : ℚ) : ℚ := if s then -x else x

@[simp] theorem withSign_zero (s : Bool) : withSign s 0 = 0 := by
  cases s <;> simp [withSign]

theorem withSign_withSign (s : Bool) (x : ℚ) : withSign s (withSign s x) = x := by
  cases s <;> simp [withSign]

theorem abs_withSign_sub (s : Bool) (x y : ℚ) : |withSign s x - y| = |x - withSign s y| := by
  cases s
  · rfl
  · simp only [withSign, if_true]
    rw [← abs_neg, neg_sub', neg_neg]

theorem withSign_mul (s t : Bool) (x y : ℚ) : withSign (s != t) (x * y) = withSign s x * withSign t y := by
  cases s <;> cases t <;> simp [withSign]

theorem withSign_mul_right (s : Bool) (x y : ℚ) : withSign s x * y = withSign s (x * y) := by
  cases s <;> simp [withSign]

theorem withSign_natAbs (t : ℤ) : withSign (decide (t < 0)) t.natAbs = t := by
  unfold withSign
  split_ifs with h
  · have hneg := of_decide_eq_true h
    rw [Nat.cast_natAbs, abs_of_neg hneg, Int.cast_neg, neg_neg]
  · have hnonneg := of_decide_eq_false (eq_false_of_ne_true h)
    rw [Nat.cast_natAbs, abs_of_nonneg (by omega)]

theorem signedMant_eq (x : F64) : (signedMant x : ℚ) = withSign (sign x) (mant x) := by
  unfold signedMant withSign
  split_ifs <;> push_cast <;> rfl

/-- The unit of a product's significand is the square of the least subnormal. -/
theorem two_pow_2148 : (2 : ℚ) ^ 2148 = 2 ^ 1074 * 2 ^ 1074 := pow_add 2 1074 1074

theorem binary64Value_eq (x : F64) : binary64Value x = withSign (sign x) (mant x * 2 ^ scale x / 2 ^ 1074) := by
  rw [binary64Value, signedMant_eq, withSign_mul_right, div_eq_mul_inv, withSign_mul_right, ← div_eq_mul_inv]

/-- A signed binary64 value is an integer of at most 53 bits times a power of two. -/
theorem exists_withSign_binary64Value (s : Bool) (c : F64) :
    ∃ j : ℤ, j < 2 ^ (52 + 1) ∧ withSign s (binary64Value c) = j * 2 ^ scale c / 2 ^ 1074 := by
  have hmant := mant_lt c
  obtain hsigned | hsigned : signedMant c = mant c ∨ signedMant c = -mant c := by
    unfold signedMant
    split_ifs <;> simp
  all_goals
    cases s
    · exact ⟨signedMant c, by omega, rfl⟩
    · exact ⟨-signedMant c, by omega, by simp only [withSign, if_true, binary64Value, Int.cast_neg, neg_mul, neg_div]⟩

theorem binary64Value_pack (s : Bool) {sc sig : ℕ} (hsig : sig ≤ 2 ^ 53) (hnorm : sc ≠ 0 → 2 ^ 52 ≤ sig)
    (h : sc * 2 ^ 52 + sig < 2 ^ 63) :
    binary64Value (pack s (sc * 2 ^ 52 + sig)) = withSign s (sig * 2 ^ sc / 2 ^ 1074) := by
  have hmag : (mant (pack s (sc * 2 ^ 52 + sig)) : ℚ) * 2 ^ scale (pack s (sc * 2 ^ 52 + sig)) = sig * 2 ^ sc := by
    exact_mod_cast mant_mul_scale_pack s hsig hnorm h
  rw [binary64Value_eq, sign_pack s h, hmag]

theorem binary64Value_pack_zero (s : Bool) : binary64Value (pack s 0) = 0 := by
  simpa using binary64Value_pack s (sc := 0) (sig := 0) (by omega) (by omega) (by omega)

/-! ## The significand that `roundMag` rounds -/

/-- The significand of `roundMag`, before a carry. -/
def roundSig (m k : ℕ) : ℕ :=
  if roundScale m k + 1074 ≤ k then m * 2 ^ (k - (roundScale m k + 1074)) else roundShift m (roundScale m k + 1074 - k)

/-- The number that `roundSig` rounds: `m * 2 ^ k * 2 ^ (-2148)` in units of the result's last place. -/
def unrounded (m k : ℕ) : ℚ := m * 2 ^ k / 2 ^ (roundScale m k + 1074)

theorem roundMag_eq {m : ℕ} (hm : m ≠ 0) (k : ℕ) :
    roundMag m k = min (roundScale m k * 2 ^ 52 + roundSig m k) infBits := by
  simp only [roundMag, roundSig, if_neg hm]

/-- A finite result did not overflow. -/
theorem roundMag_eq_of_isFinite {s : Bool} {m k : ℕ} (hm : m ≠ 0) (h : isFinite (pack s (roundMag m k)) = true) :
    roundMag m k = roundScale m k * 2 ^ 52 + roundSig m k ∧ roundScale m k * 2 ^ 52 + roundSig m k < 2 ^ 63 := by
  have heq := roundMag_eq hm k
  have hne : roundMag m k ≠ infBits := fun hinf => by
    rw [hinf, isFinite_iff, expField_pack s (by decide)] at h
    exact h (by decide)
  unfold infBits at heq hne
  omega

theorem roundSig_nearestEven (m k : ℕ) : NearestEven (roundSig m k) (unrounded m k) := by
  unfold roundSig unrounded
  generalize roundScale m k + 1074 = g
  split_ifs with h
  · have hexact : (m : ℚ) * 2 ^ k / 2 ^ g = ((m * 2 ^ (k - g) : ℕ) : ℤ) := by
      push_cast
      rw [div_eq_iff (by positivity), mul_assoc, ← pow_add, Nat.sub_add_cancel h]
    rw [hexact]
    exact nearestEven_self _
  · have hshift : (m : ℚ) * 2 ^ k / 2 ^ g = m / 2 ^ (g - k) := by
      rw [div_eq_div_iff (by positivity) (by positivity), mul_assoc, ← pow_add, Nat.add_sub_cancel' (le_of_not_ge h)]
    rw [hshift]
    exact roundShift_nearestEven _ _

theorem unrounded_lt (m k : ℕ) : unrounded m k < 2 ^ 53 := by
  rw [unrounded, div_lt_iff₀ (by positivity), ← pow_add]
  calc (m : ℚ) * 2 ^ k < 2 ^ (Nat.log2 m + 1) * 2 ^ k := by
        exact mul_lt_mul_of_pos_right (by exact_mod_cast Nat.lt_log2_self) (by positivity)
    _ = 2 ^ (Nat.log2 m + 1 + k) := (pow_add ..).symm
    _ ≤ 2 ^ (53 + (roundScale m k + 1074)) := pow_le_pow_right₀ one_le_two (by unfold roundScale; omega)

theorem le_unrounded {m k : ℕ} (hm : m ≠ 0) (hsc : roundScale m k ≠ 0) : 2 ^ 52 ≤ unrounded m k := by
  rw [unrounded, le_div_iff₀ (by positivity), ← pow_add]
  calc (2 : ℚ) ^ (52 + (roundScale m k + 1074)) = 2 ^ (Nat.log2 m + k) := by
        congr 1
        unfold roundScale at *
        omega
    _ = 2 ^ Nat.log2 m * 2 ^ k := pow_add ..
    _ ≤ m * 2 ^ k := by
        exact mul_le_mul_of_nonneg_right (by exact_mod_cast Nat.log2_self_le hm) (by positivity)

theorem roundSig_le (m k : ℕ) : roundSig m k ≤ 2 ^ 53 :=
  (roundSig_nearestEven m k).le_of_le (by exact_mod_cast (unrounded_lt m k).le)

theorem le_roundSig {m k : ℕ} (hm : m ≠ 0) (hsc : roundScale m k ≠ 0) : 2 ^ 52 ≤ roundSig m k :=
  (roundSig_nearestEven m k).ge_of_ge (by exact_mod_cast le_unrounded hm hsc)

/-- The number rounded, in units of the least subnormal. -/
theorem exact_eq_unrounded (m k : ℕ) :
    (m : ℚ) * 2 ^ k / 2 ^ 2148 = unrounded m k * 2 ^ roundScale m k / 2 ^ 1074 := by
  have hpos : (2 : ℚ) ^ 1074 ≠ 0 := by positivity
  rw [unrounded, two_pow_2148, pow_add]
  generalize (2 : ℚ) ^ 1074 = u at hpos ⊢
  field_simp

/-! ## Correct rounding -/

/-- `r` is a binary64 number nearest to `x`, the even one of two (R138). -/
def RoundsToEven (r : F64) (x : ℚ) : Prop :=
  ∀ c : F64, isFinite c = true →
    |binary64Value r - x| ≤ |binary64Value c - x| ∧
      (|binary64Value r - x| = |binary64Value c - x| → binary64Value c ≠ binary64Value r → r.getLsbD 0 = false)

theorem roundsToEven_of_value_eq {r : F64} {x : ℚ} (h : binary64Value r = x) : RoundsToEven r x := by
  intro c _
  rw [h, sub_self, abs_zero]
  exact ⟨abs_nonneg _, fun heq hne => absurd (sub_eq_zero.1 (abs_eq_zero.1 heq.symm)) hne⟩

/-- Dividing by the unit of binary64 scales every distance alike. -/
theorem abs_div_unit_sub (a b : ℚ) : |a / 2 ^ 1074 - b / 2 ^ 1074| = |a - b| / 2 ^ 1074 := by
  have hpos : (0 : ℚ) < 2 ^ 1074 := by positivity
  rw [← sub_div, abs_div, abs_of_pos hpos]

/-- `m * 2 ^ k * 2 ^ (-2148)` with a sign is rounded to nearest, ties to even, where the result is finite (R138). -/
theorem pack_roundMag_roundsToEven (s : Bool) (m k : ℕ) (hfin : isFinite (pack s (roundMag m k)) = true) :
    RoundsToEven (pack s (roundMag m k)) (withSign s (m * 2 ^ k / 2 ^ 2148)) := by
  by_cases hm : m = 0
  · subst hm
    have hzero : roundMag 0 k = 0 := by simp only [roundMag, if_true]
    apply roundsToEven_of_value_eq
    rw [hzero, binary64Value_pack_zero, Nat.cast_zero, zero_mul, zero_div, withSign_zero]
  intro c _
  obtain ⟨hmag, hlt⟩ := roundMag_eq_of_isFinite hm hfin
  obtain ⟨j, hj, hc⟩ := exists_withSign_binary64Value s c
  have hr := binary64Value_pack s (roundSig_le m k) (le_roundSig hm) hlt
  rw [← hmag] at hr
  have hdistr : |binary64Value (pack s (roundMag m k)) - withSign s (m * 2 ^ k / 2 ^ 2148)| =
      |(roundSig m k : ℚ) * 2 ^ roundScale m k - unrounded m k * 2 ^ roundScale m k| / 2 ^ 1074 := by
    rw [hr, abs_withSign_sub, withSign_withSign, exact_eq_unrounded, abs_div_unit_sub]
  have hdistc : |binary64Value c - withSign s (m * 2 ^ k / 2 ^ 2148)| =
      |(j : ℚ) * 2 ^ scale c - unrounded m k * 2 ^ roundScale m k| / 2 ^ 1074 := by
    rw [← abs_withSign_sub, hc, exact_eq_unrounded, abs_div_unit_sub]
  obtain ⟨hnear, htie⟩ := (roundSig_nearestEven m k).scaled_closest (p := 52) (le_unrounded hm) hj (scale c)
  rw [hdistr, hdistc]
  refine ⟨div_le_div_of_nonneg_right hnear (by positivity), fun heq hne => ?_⟩
  have heven : Even (roundSig m k) := by
    have hdist := (div_left_inj' (by positivity : (2 : ℚ) ^ 1074 ≠ 0)).1 heq
    refine (Int.even_coe_nat _).1 (htie hdist fun hsame => hne ?_)
    rw [hr, ← withSign_withSign s (binary64Value c), hc, hsame, Int.cast_natCast]
  rw [hmag]
  exact getLsbD_pack_zero s hlt (((by decide : Even (2 ^ 52)).mul_left _).add heven)

/-! ## The two operations on finite operands -/

theorem mul_eq_of_isFinite {a b : F64} (ha : isFinite a = true) (hb : isFinite b = true) :
    mul a b = pack (sign a != sign b) (roundMag (mant a * mant b) (scale a + scale b)) := by
  simp [mul, not_isNaN_of_isFinite, not_isInf_of_isFinite, ha, hb]

theorem add_eq_of_isFinite {a b : F64} (ha : isFinite a = true) (hb : isFinite b = true) :
    add a b = if exactSum a b = 0 then pack (sign a && sign b) 0
      else pack (decide (exactSum a b < 0)) (roundMag (exactSum a b).natAbs (min (scale a) (scale b) + 1074)) := by
  simp [add, not_isNaN_of_isFinite, not_isInf_of_isFinite, ha, hb]

/-- The product that `mul` rounds. -/
theorem binary64Value_mul_eq (a b : F64) : binary64Value a * binary64Value b =
    withSign (sign a != sign b) ((mant a * mant b : ℕ) * 2 ^ (scale a + scale b) / 2 ^ 2148) := by
  rw [binary64Value_eq, binary64Value_eq, ← withSign_mul, div_mul_div_comm, mul_mul_mul_comm, two_pow_2148, pow_add,
    Nat.cast_mul]

theorem exactSum_mul (a b : F64) : (exactSum a b : ℚ) * 2 ^ min (scale a) (scale b) =
    signedMant a * 2 ^ scale a + signedMant b * 2 ^ scale b := by
  unfold exactSum
  push_cast
  rw [add_mul, mul_assoc, mul_assoc, ← pow_add, ← pow_add, Nat.sub_add_cancel (min_le_left _ _),
    Nat.sub_add_cancel (min_le_right _ _)]

/-- The sum that `add` rounds. -/
theorem binary64Value_add_eq (a b : F64) : binary64Value a + binary64Value b =
    withSign (decide (exactSum a b < 0))
      ((exactSum a b).natAbs * 2 ^ (min (scale a) (scale b) + 1074) / 2 ^ 2148) := by
  rw [mul_div_assoc, ← withSign_mul_right, withSign_natAbs, two_pow_2148, pow_add,
    mul_div_mul_right _ _ (by positivity), ← mul_div_assoc, exactSum_mul, add_div]
  rfl

theorem mul_roundsToEven {a b : F64} (ha : isFinite a = true) (hb : isFinite b = true)
    (hfin : isFinite (mul a b) = true) : RoundsToEven (mul a b) (binary64Value a * binary64Value b) := by
  rw [mul_eq_of_isFinite ha hb] at hfin ⊢
  rw [binary64Value_mul_eq]
  exact pack_roundMag_roundsToEven _ _ _ hfin

theorem add_roundsToEven {a b : F64} (ha : isFinite a = true) (hb : isFinite b = true)
    (hfin : isFinite (add a b) = true) : RoundsToEven (add a b) (binary64Value a + binary64Value b) := by
  rw [add_eq_of_isFinite ha hb] at hfin ⊢
  rw [binary64Value_add_eq]
  split_ifs at hfin ⊢ with hzero
  · apply roundsToEven_of_value_eq
    rw [binary64Value_pack_zero, hzero, Int.natAbs_zero, Nat.cast_zero, zero_mul, zero_div, withSign_zero]
  · exact pack_roundMag_roundsToEven _ _ _ hfin

/-- Settles O44: `add` rounds the exact sum once, by `roundMag`. -/
theorem additionRoundsToNearestEven : Obligations.AdditionRoundsToNearestEven :=
  fun _ _ c ha hb hfin hc => add_roundsToEven ha hb hfin c hc

/-- Settles O45: `mul` rounds the exact product once, by `roundMag`. -/
theorem multiplicationRoundsToNearestEven : Obligations.MultiplicationRoundsToNearestEven :=
  fun _ _ c ha hb hfin hc => mul_roundsToEven ha hb hfin c hc

end Sys2Proof.Binary64
end

section
/-! PROOFS. What a command can do to the state, said once (`Effect`), and what follows for every command by cases on
its effect. -/

namespace Sys2Proof.Machine

/-- The states that a command can leave `s` in: one case for each way it completes, and one for the errors. -/
inductive Effect (s : State) : Instr → State → Prop
  | raised (i : Instr) (e : ErrCode) (op : Byte) : Effect s i (raise e op s)
  | nop : Effect s .nop (complete s)
  | fdct (mode : DctMode) (f : List F64) :
    Effect s (.fdct mode) (complete { s with mem := s.mem.writeDout (fdct mode f) })
  | idct (mode : DctMode) (q : List Word) :
    Effect s (.idct mode) (complete { s with mem := s.mem.writeDout (idct mode q) })
  | hclear (bank : BitVec 2) (hbank : bankOk bank = true) :
    Effect s (.hclear bank)
      (complete { s with mem := (s.mem.clear (freqBank bank) 0x400).clear (lutBank bank) 0x1000 })
  | hbuild (bank : BitVec 2) (root : HuffTree) (hbank : bankOk bank = true) (hroot : buildTree s.mem bank = some root) :
    Effect s (.hbuild bank) (complete { s with tree := some ⟨bank, root⟩ })
  | htable (tree : BuiltTree) (table : List LutEntry) (htree : s.tree = some tree)
    (htable : codeTable tree.root = .ok table) :
    Effect s .htable (complete { s with mem := s.mem.writeLut tree.bank table })
  | catmag (cat mag : Word) : Effect s .catmag (complete { s with res0 := cat, res1 := mag })
  | wrbits (cnt : BitVec 6) (hroom : s.rawLen + (s.nb.toNat + cnt.toNat) / 8 ≤ Config.rawCap) :
    Effect s (.wrbits cnt) (complete (pushBits s (opaBits s.opa cnt.toNat)))
  | wflush (hroom : flushBlocked s = false) : Effect s .wflush (complete (flush s))
  | wfinal (hroom : flushBlocked s = false) : Effect s .wfinal (complete (stuffOut (flush s)))
  | wreset : Effect s .wreset (complete { s with acc := 0#7, nb := 0#3, rawLen := 0, outLen := 0 })
  | rreset (src : Src) (len : Nat) (hlen : len = s.rinLen ∨ len = s.outLen) :
    Effect s (.rreset src) (complete { s with rsrc := src, rlen := len, rp := 0, rb := 0#3 })
  | rdbits (cnt : BitVec 6) (p : Nat) (b : BitVec 3) (val : Word)
    (hread : readLoop s cnt.toNat s.rp s.rb 0#32 = .ok (p, b, val)) :
    Effect s (.rdbits cnt) (complete { s with rp := p, rb := b, res0 := val })

/-- A command that leaves a next state has one of the effects above. -/
theorem effect_of_exec {i : Instr} {s t : State} (h : exec i s = .next t) : Effect s i t := by
  cases i with
  | nop => cases h; exact .nop
  | fdct mode =>
    simp only [exec, execFdct] at h
    split at h <;> cases h
    exact .fdct mode _
  | idct mode =>
    simp only [exec, execIdct] at h
    split at h <;> cases h
    exact .idct mode _
  | hclear bank =>
    simp only [exec, execHclear] at h
    split at h <;> cases h
    · exact .hclear bank ‹_›
    · exact .raised _ _ _
  | hbuild bank =>
    simp only [exec, execHbuild] at h
    split at h
    · split at h <;> cases h
      · exact .raised _ _ _
      · exact .hbuild bank _ ‹_› ‹_›
    · cases h; exact .raised _ _ _
  | htable =>
    simp only [exec, execHtable] at h
    split at h
    · cases h; exact .raised _ _ _
    · split at h <;> cases h
      · exact .raised _ _ _
      · exact .htable _ _ ‹_› ‹_›
  | catmag => cases h; exact .catmag _ _
  | wrbits cnt =>
    simp only [exec, execWrbits] at h
    split at h
    · cases h; exact .raised _ _ _
    · split at h <;> cases h
      · exact .raised _ _ _
      · exact .wrbits cnt (Nat.le_of_not_lt ‹_›)
  | wflush =>
    simp only [exec, execWflush] at h
    split at h <;> cases h
    · exact .raised _ _ _
    · exact .wflush (Bool.eq_false_of_not_eq_true ‹_›)
  | wfinal =>
    simp only [exec, execWfinal] at h
    split at h <;> cases h
    · exact .raised _ _ _
    · exact .wfinal (Bool.eq_false_of_not_eq_true ‹_›)
  | wreset => cases h; exact .wreset
  | rreset src =>
    cases h
    cases src
    · exact .rreset .rin _ (.inl rfl)
    · exact .rreset .out _ (.inr rfl)
  | rdbits cnt =>
    simp only [exec, execRdbits] at h
    split at h
    · cases h; exact .raised _ _ _
    · split at h <;> cases h
      · exact .raised _ _ _
      · exact .rdbits cnt _ _ _ ‹_›

/-- Of a state's fields, the flush changes ACC, NB, RAW and RAWLEN only (R196). -/
theorem flush_changes_writer_only (s : State) :
    ∃ acc nb rawLen mem, flush s = { s with acc := acc, nb := nb, rawLen := rawLen, mem := mem } := by
  unfold flush
  split
  · exact ⟨_, _, _, _, rfl⟩
  · exact ⟨_, _, _, _, rfl⟩

/-- What a command leaves alone: the fields the host writes and the model's own, always; RES0, RES1, the tree store,
OUTLEN and the reader, but for the commands that write them (R26, R27, R37, R165, R200, R216). -/
structure Frame (i : Instr) (s t : State) : Prop where
  done : t.done = true
  pending : t.pending = none
  ieDone : t.ieDone = s.ieDone
  ieErr : t.ieErr = s.ieErr
  dropped : t.dropped = s.dropped
  cmd : t.cmd = s.cmd
  opa : t.opa = s.opa
  rinLen : t.rinLen = s.rinLen
  host : t.host = s.host
  turns : t.turns = s.turns
  readLog : t.readLog = s.readLog
  draws : t.draws = s.draws
  res0 : t.res0 = s.res0 ∨ i = .catmag ∨ ∃ n, i = .rdbits n
  res1 : t.res1 = s.res1 ∨ i = .catmag
  tree : t.tree = s.tree ∨ ∃ bank, i = .hbuild bank
  outLen : t.outLen = s.outLen ∨ i = .wfinal ∨ i = .wreset
  reader : (t.rsrc = s.rsrc ∧ t.rlen = s.rlen ∧ t.rp = s.rp ∧ t.rb = s.rb) ∨ (∃ src, i = .rreset src) ∨
    ∃ n, i = .rdbits n

theorem Effect.frame {s t : State} {i : Instr} (h : Effect s i t) : Frame i s t := by
  cases h with
  | wrbits cnt =>
    obtain ⟨_, _, _, _, hpush⟩ := pushBits_changes_writer_only (opaBits s.opa cnt.toNat) s
    constructor <;> simp [hpush]
  | wflush =>
    obtain ⟨_, _, _, _, hflush⟩ := flush_changes_writer_only s
    constructor <;> simp [hflush]
  | wfinal =>
    obtain ⟨_, _, _, _, hflush⟩ := flush_changes_writer_only s
    constructor <;> simp [hflush]
  | _ => constructor <;> simp

/-- Settles O35, by the frame of every effect. -/
theorem everyCommandSetsDone : Obligations.EveryCommandSetsDone := by
  intro i s t h
  have hf := (effect_of_exec h).frame
  exact ⟨hf.done, hf.pending, hf.ieDone, hf.ieErr, hf.dropped, hf.cmd, hf.opa, hf.rinLen, hf.host, hf.turns, hf.readLog,
    hf.draws⟩

/-- Settles O36, by the frame of every effect. -/
theorem resultRegistersHaveFewWriters : Obligations.ResultRegistersHaveFewWriters := by
  intro i s t h
  have hf := (effect_of_exec h).frame
  exact ⟨hf.res0.resolve_left, hf.res1.resolve_left⟩

end Sys2Proof.Machine
end

section
/-! PROOFS. The host's side of a step: the address map as its list of regions, what a host event can do to the state,
said once (`HostEffect`), and the induction over a step: what every command, every host event and the bookkeeping of
the two lists keep, every step keeps. -/

namespace Sys2Proof.Machine

/-! ## The address map (R66) -/

/-- The offset lies in the region. -/
def Region.has (r : Region) (off : Nat) : Prop := r.base ≤ off ∧ off < r.base + r.size

theorem memoryMap_disjoint :
    ∀ r ∈ memoryMap, ∀ q ∈ memoryMap, r = q ∨ r.base + r.size ≤ q.base ∨ q.base + q.size ≤ r.base := by
  decide

/-- What stands at an offset of a region is the region's target: no two regions overlap. -/
theorem targetOf_eq {r : Region} {off : Nat} (hr : r ∈ memoryMap) (hoff : r.has off) : targetOf off = r.target := by
  unfold targetOf
  cases hfind : memoryMap.find? fun q => q.base ≤ off && off < q.base + q.size with
  | none => simpa [hoff.1, hoff.2] using List.find?_eq_none.1 hfind r hr
  | some q =>
    have hq := List.find?_some hfind
    have hqm := List.mem_of_find?_eq_some hfind
    simp only [Bool.and_eq_true, decide_eq_true_eq] at hq
    obtain ⟨hlow, hhigh⟩ := hoff
    have hsame : r = q := by
      rcases memoryMap_disjoint r hr q hqm with h | h | h
      · exact h
      · omega
      · omega
    rw [hsame]

theorem targetOf_reserved {off : Nat} (h : ∀ r ∈ memoryMap, ¬ r.has off) : targetOf off = .reserved := by
  unfold targetOf
  rw [List.find?_eq_none.2 (by simpa [Region.has] using h)]

/-- A target that is not reserved has a region, and the offset lies in it. -/
theorem exists_region_of_targetOf {off : Nat} (h : targetOf off ≠ .reserved) :
    ∃ r ∈ memoryMap, r.has off ∧ targetOf off = r.target := by
  by_contra hno
  exact h (targetOf_reserved fun r hr hoff => hno ⟨r, hr, hoff, targetOf_eq hr hoff⟩)

/-- An offset whose target a host write stores a word to lies in DIN, QIN, FREQ or RIN (R38, R39, R41, R45). -/
theorem bounds_of_writable {off : Nat} (h : targetOf off = .din ∨ targetOf off = .qin ∨ targetOf off = .freq ∨
    targetOf off = .rin) :
    (0x200 ≤ off ∧ off < 0x500) ∨ (0x1000 ≤ off ∧ off < 0x1C00) ∨ (0xC000 ≤ off ∧ off < 0xE000) := by
  have hreserved : targetOf off ≠ .reserved := by
    rcases h with h | h | h | h <;> simp [h]
  obtain ⟨r, hr, ⟨hlow, hhigh⟩, htarget⟩ := exists_region_of_targetOf hreserved
  rw [htarget] at h
  have hregion : ∀ q ∈ memoryMap, q.target = .din ∨ q.target = .qin ∨ q.target = .freq ∨ q.target = .rin →
      (0x200 ≤ q.base ∧ q.base + q.size ≤ 0x500) ∨ (0x1000 ≤ q.base ∧ q.base + q.size ≤ 0x1C00) ∨
        (0xC000 ≤ q.base ∧ q.base + q.size ≤ 0xE000) := by decide
  have := hregion r hr h
  omega

/-! ## What a host event can do -/

/-- A legal read returns the word at its offset (R61, R68). -/
theorem readsAs_of_busRead {s : State} {off : BitVec 16} {v : Word} (halign : off.toNat % 4 = 0)
    (h : s.busRead off.toNat = v) : s.readsAs off v := by
  rw [State.readsAs, hostEvent_read s off halign, h]

/-- A legal write to a target, for what the target does with it (R61). -/
theorem hostEvent_write_of_busWrite {s t : State} {off : BitVec 16} {v : Word} (halign : off.toNat % 4 = 0)
    (h : s.busWrite off.toNat v = t) : hostEvent (.write .w32 off v) s = .next t := by
  rw [hostEvent_write s off v halign, h]

/-- The states that a host event can leave `s` in. -/
inductive HostEffect (s : State) : State → Prop
  | read (v : Word) : HostEffect s { s with readLog := v :: s.readLog, draws := s.draws + 1 }
  | softReset (v : Word) : HostEffect s (softReset v s)
  | enables (ieDone ieErr : Bool) : HostEffect s { s with ieDone := ieDone, ieErr := ieErr }
  | status (v : Word) : HostEffect s (writeStatus v s)
  | accepted (w : Word) (herr : s.error = none) : HostEffect s { s with cmd := w, pending := some w }
  | dropped (w : Word) (herr : s.error ≠ none) : HostEffect s { s with cmd := w, dropped := true, done := true }
  | opa (v : Word) : HostEffect s { s with opa := v }
  | rinlen (n : Nat) (hn : n ≤ Config.rinCap) : HostEffect s { s with rinLen := n }
  | bufferWord (off : Nat) (v : Word) (hoff : (0x200 ≤ off ∧ off + 4 ≤ 0x500) ∨ (0x1000 ≤ off ∧ off + 4 ≤ 0x1C00) ∨
      (0xC000 ≤ off ∧ off + 4 ≤ 0xE000)) : HostEffect s { s with mem := s.mem.writeWord off v }
  | ignored : HostEffect s s
  | hardReset : HostEffect s (hardReset s)

theorem hostEffect_writeCtrl (v : Word) (s : State) : HostEffect s (writeCtrl v s) := by
  unfold writeCtrl
  split
  · exact .softReset v
  · exact .enables _ _

theorem hostEffect_acceptCommand (w : Word) (s : State) : HostEffect s (acceptCommand w s) := by
  unfold acceptCommand State.errFlag
  split
  · exact .dropped w (Option.isSome_iff_ne_none.1 ‹_›)
  · exact .accepted w (Option.not_isSome_iff_eq_none.1 ‹_›)

theorem hostEffect_busWrite (s : State) {off : Nat} (v : Word) (halign : off % 4 = 0) :
    HostEffect s (s.busWrite off v) := by
  have hword (h : targetOf off = .din ∨ targetOf off = .qin ∨ targetOf off = .freq ∨ targetOf off = .rin) :
      HostEffect s { s with mem := s.mem.writeWord off v } := by
    have := bounds_of_writable h
    exact .bufferWord off v (by omega)
  unfold State.busWrite
  split
  case h_1 => exact hostEffect_writeCtrl v s
  case h_2 => exact .status v
  case h_3 => exact hostEffect_acceptCommand v s
  case h_4 => exact .opa v
  case h_5 => exact .rinlen _ (Nat.min_le_right _ _)
  case h_6 h => exact hword (.inl h)
  case h_7 h => exact hword (.inr (.inl h))
  case h_8 h => exact hword (.inr (.inr (.inl h)))
  case h_9 h => exact hword (.inr (.inr (.inr h)))
  all_goals exact .ignored

/-- A host event that leaves a next state has one of the effects above. -/
theorem hostEffect_of_hostEvent {e : HostEvent} {s t : State} (h : hostEvent e s = .next t) : HostEffect s t := by
  cases e with
  | read width off =>
    simp only [hostEvent] at h
    split at h <;> cases h
    exact .read _
  | write width off v =>
    simp only [hostEvent] at h
    split at h
    · rename_i hlegal
      cases h
      simp only [legalAccess, Bool.and_eq_true, decide_eq_true_eq] at hlegal
      exact hostEffect_busWrite s v hlegal.2
    · cases h
  | hardReset => cases h; exact .hardReset

/-! ## Steps -/

/-- The engine's step has the effect of a command, or raises an error and has no other (R231). -/
theorem effect_of_perform {w : Word} {s t : State} (h : perform w s = .next t) : ∃ i, Effect s i t := by
  unfold perform at h
  split at h
  · exact ⟨_, effect_of_exec h⟩
  · cases h; exact ⟨.nop, .raised _ _ _⟩

/-- Who moves in a step: nobody, the engine or the host, the mover with the lists of events and turns shortened
(R65, R231, R254, R265). -/
theorem step_cases {s t : State} (h : step s = .next t) :
    t = s ∨ ∃ host turns, (∃ i, Effect { s with host := host, turns := turns } i t) ∨
      HostEffect { s with host := host, turns := turns } t := by
  unfold step advance at h
  split at h
  · cases h; exact .inl rfl
  · exact .inr ⟨_, s.turns, .inr (hostEffect_of_hostEvent h)⟩
  · exact .inr ⟨s.host, s.turns, .inl (effect_of_perform h)⟩
  · split at h
    · exact .inr ⟨s.host, s.turns, .inl (effect_of_perform h)⟩
    · split at h
      · exact .inr ⟨s.host, s.turns, .inl (effect_of_perform h)⟩
      · exact .inr ⟨s.host, _, .inl (effect_of_perform h)⟩
      · exact .inr ⟨_, _, .inr (hostEffect_of_hostEvent h)⟩

/-- What every command, every host event and a change of the two lists keep, a step keeps. -/
theorem step_keeps {P : State → Prop} (hlists : ∀ s host turns, P s → P { s with host := host, turns := turns })
    (hexec : ∀ s i t, P s → Effect s i t → P t) (hhost : ∀ s t, P s → HostEffect s t → P t)
    {s t : State} (hs : P s) (h : step s = .next t) : P t := by
  rcases step_cases h with rfl | ⟨host, turns, ⟨i, he⟩ | he⟩
  · exact hs
  · exact hexec _ i t (hlists s host turns hs) he
  · exact hhost _ t (hlists s host turns hs) he

/-! ## The canonical form of memory -/

theorem flush_wf (s : State) (h : s.mem.wf = true) : (flush s).mem.wf = true := by
  unfold flush
  split
  · exact h
  · exact Memory.wf_splice _ _ _ h

theorem Effect.mem_wf {s t : State} {i : Instr} (h : Effect s i t) (hs : s.mem.wf = true) : t.mem.wf = true := by
  cases h with
  | fdct mode f => exact Memory.wf_writeDout _ _ hs
  | idct mode q => exact Memory.wf_writeDout _ _ hs
  | hclear bank => exact Memory.wf_clear _ _ _ (Memory.wf_clear _ _ _ hs)
  | htable tree table => exact Memory.wf_writeLut _ _ _ hs
  | wrbits cnt => exact pushBits_wf _ _ hs
  | wflush => exact flush_wf s hs
  | wfinal => exact Memory.wf_splice _ _ _ (flush_wf s hs)
  | _ => exact hs

theorem HostEffect.mem_wf {s t : State} (h : HostEffect s t) (hs : s.mem.wf = true) : t.mem.wf = true := by
  cases h with
  | softReset v => exact wf_softResetMem s hs
  | bufferWord off v => exact Memory.wf_writeWord _ _ _ hs
  | hardReset => exact Memory.wf_nil
  | _ => exact hs

/-- Settles O58: memory is written by splices and clears only. -/
theorem stepKeepsMemoryCanonical : Obligations.StepKeepsMemoryCanonical := by
  intro s t
  exact step_keeps (P := fun s => s.mem.wf = true) (fun _ _ _ hs => hs) (fun _ _ _ hs h => h.mem_wf hs)
    (fun _ _ hs h => h.mem_wf hs)

end Sys2Proof.Machine
end

section
/-! PROOFS. The invariants of the writer, of OUT, of the reader and of the engine (R46, R48, R49, R203, R214). A byte
that is written stays written, so each invariant turns on the lengths alone. -/

namespace Sys2Proof.Machine

/-! ## Written bytes stay written -/

theorem Memory.isSome_read_splice (m : Memory) (base : Nat) (bs : List Byte) {a : Nat} (h : (m.read a).isSome = true) :
    ((m.splice base bs).read a).isSome = true := by
  rw [Memory.read_splice]
  split
  · rename_i hin
    rw [List.getElem?_eq_getElem (by omega)]
    rfl
  · exact h

theorem flush_keeps_written (s : State) {a : Nat} (h : (s.mem.read a).isSome = true) :
    ((flush s).mem.read a).isSome = true := by
  unfold flush
  split
  · exact h
  · exact Memory.isSome_read_splice _ _ _ h

theorem pushBit_keeps_written (s : State) (b : Bool) {a : Nat} (h : (s.mem.read a).isSome = true) :
    ((pushBit s b).mem.read a).isSome = true := by
  unfold pushBit
  split
  · exact Memory.isSome_read_splice _ _ _ h
  · exact h

theorem pushBits_keeps_written (bs : List Bool) (s : State) {a : Nat} (h : (s.mem.read a).isSome = true) :
    ((pushBits s bs).mem.read a).isSome = true := by
  induction bs generalizing s with
  | nil => exact h
  | cons b bs ih => exact ih _ (pushBit_keeps_written s b h)

/-- HCLEAR clears below RAW (R66). -/
theorem read_hclear_from_raw (m : Memory) (bank : BitVec 2) {a : Nat} (ha : Config.rawBase ≤ a) :
    ((m.clear (freqBank bank) 0x400).clear (lutBank bank) 0x1000).read a = m.read a := by
  have hbank := bank.isLt
  simp only [Config.rawBase] at ha
  rw [Memory.read_clear, if_neg (by simp only [lutBank, Config.lutBase]; omega), Memory.read_clear,
    if_neg (by simp only [freqBank, Config.freqBase]; omega)]

/-- No command takes a byte of RAW, OUT or RIN back to the value-less state of R50. -/
theorem Effect.keeps_written {s t : State} {i : Instr} (h : Effect s i t) {a : Nat} (ha : Config.rawBase ≤ a)
    (hw : (s.mem.read a).isSome = true) : (t.mem.read a).isSome = true := by
  cases h with
  | fdct mode f => exact Memory.isSome_read_splice _ _ _ hw
  | idct mode q => exact Memory.isSome_read_splice _ _ _ hw
  | hclear bank =>
    rw [complete_mem, read_hclear_from_raw _ _ ha]
    exact hw
  | htable tree table => exact Memory.isSome_read_splice _ _ _ hw
  | wrbits cnt => exact pushBits_keeps_written _ _ hw
  | wflush => exact flush_keeps_written s hw
  | wfinal => exact Memory.isSome_read_splice _ _ _ (flush_keeps_written s hw)
  | _ => exact hw

/-! ## The invariants depend on their own fields -/

theorem WriterInv.of_fields {s t : State} (hs : WriterInv s) (hacc : t.acc = s.acc) (hnb : t.nb = s.nb)
    (hlen : t.rawLen = s.rawLen)
    (hmem : ∀ a, Config.rawBase ≤ a → (s.mem.read a).isSome = true → (t.mem.read a).isSome = true) : WriterInv t where
  acc_lt := by rw [hacc, hnb]; exact hs.acc_lt
  rawLen_le := by rw [hlen]; exact hs.rawLen_le
  raw_written k hk := hmem _ (Nat.le_add_right _ _) (hs.raw_written k (hlen ▸ hk))

theorem OutInv.of_fields {s t : State} (hs : OutInv s) (hlen : t.outLen = s.outLen)
    (hmem : ∀ a, Config.rawBase ≤ a → (s.mem.read a).isSome = true → (t.mem.read a).isSome = true) : OutInv t where
  outLen_le := by rw [hlen]; exact hs.outLen_le
  out_written k hk := hmem _ (by simp only [Config.rawBase, Config.outBase]; omega) (hs.out_written k (hlen ▸ hk))

theorem ReaderInv.of_fields {s t : State} (hs : ReaderInv s) (hrin : t.rinLen ≤ Config.rinCap) (hrlen : t.rlen = s.rlen)
    (hrp : t.rp = s.rp) (hrb : t.rb = s.rb) : ReaderInv t where
  rinLen_le := hrin
  rlen_le := by rw [hrlen]; exact hs.rlen_le
  rp_le := by rw [hrp, hrlen]; exact hs.rp_le
  rb_zero h := by rw [hrb]; exact hs.rb_zero (by rw [← hrp, h, hrlen])

/-- A writer without a byte or a bit, as at reset and after WRESET (R51, R205). -/
theorem writerInv_of_empty {s : State} (hacc : s.acc = 0#7) (hnb : s.nb = 0#3) (hlen : s.rawLen = 0) : WriterInv s where
  acc_lt := by rw [hacc, hnb]; decide
  rawLen_le := by rw [hlen]; exact Nat.zero_le _
  raw_written k hk := absurd hk (by omega)

theorem outInv_of_empty {s : State} (hlen : s.outLen = 0) : OutInv s where
  outLen_le := by rw [hlen]; exact Nat.zero_le _
  out_written k hk := absurd hk (by omega)

/-- A reader at the start of its source, as at reset and after RRESET (R51, R210). -/
theorem readerInv_of_rewound {s : State} (hrin : s.rinLen ≤ Config.rinCap) (hrlen : s.rlen ≤ Config.rinCap)
    (hrp : s.rp = 0) (hrb : s.rb = 0#3) : ReaderInv s where
  rinLen_le := hrin
  rlen_le := hrlen
  rp_le := by omega
  rb_zero _ := hrb

/-! ## The writer -/

theorem appendRaw_writerInv {s : State} (b : Byte) (hs : WriterInv s) (hroom : s.rawLen + 1 ≤ Config.rawCap) :
    WriterInv (appendRaw b s) where
  acc_lt := by simp
  rawLen_le := hroom
  raw_written k hk := by
    rw [appendRaw_rawLen] at hk
    rw [appendRaw_mem]
    by_cases hnew : k = s.rawLen
    · rw [hnew, Memory.read_splice, if_pos (by simp)]
      simp
    · exact Memory.isSome_read_splice _ _ _ (hs.raw_written k (by omega))

/-- Bits in the stream: 8 for each byte of RAW and the pending ones. -/
def State.bitCount (s : State) : Nat := 8 * s.rawLen + s.nb.toNat

theorem toNat_add_one_of_ne_seven {n : BitVec 3} (h : n ≠ 7#3) : (n + 1#3).toNat = n.toNat + 1 := by
  revert n; decide

theorem bitCount_pushBit (s : State) (b : Bool) : (pushBit s b).bitCount = s.bitCount + 1 := by
  unfold State.bitCount
  by_cases h : s.nb = 7#3
  · rw [pushBit_full s b h]
    simp [h]
    omega
  · rw [pushBit_partial s b h]
    simp [toNat_add_one_of_ne_seven h]
    omega

theorem bitCount_pushBits (bs : List Bool) (s : State) : (pushBits s bs).bitCount = s.bitCount + bs.length := by
  induction bs generalizing s with
  | nil => rfl
  | cons b bs ih =>
    rw [pushBits_cons, ih, bitCount_pushBit, List.length_cons]
    omega

/-- A bit shifted into ACC fits one place more (R28, R190). -/
theorem toNat_acc_append_lt (acc : BitVec 7) (n : Nat) (b : Bool) (h : acc.toNat < 2 ^ n) :
    ((acc ++ bit b : Byte).setWidth 7).toNat < 2 ^ (n + 1) := by
  have hb : (bit b).toNat < 2 := (bit b).isLt
  have hle : ((acc ++ bit b : Byte).setWidth 7).toNat ≤ 2 * acc.toNat + (bit b).toNat := by
    rw [BitVec.toNat_setWidth, BitVec.toNat_append, ← Nat.shiftLeft_add_eq_or_of_lt hb, Nat.shiftLeft_eq]
    omega
  rw [pow_succ]
  omega

theorem pushBit_writerInv {s : State} (b : Bool) (hs : WriterInv s) (hroom : s.bitCount + 1 < 8 * (Config.rawCap + 1)) :
    WriterInv (pushBit s b) := by
  unfold State.bitCount at hroom
  by_cases h : s.nb = 7#3
  · rw [pushBit_full s b h]
    refine appendRaw_writerInv _ hs ?_
    rw [h] at hroom
    simp at hroom
    omega
  · rw [pushBit_partial s b h]
    refine ⟨?_, hs.rawLen_le, hs.raw_written⟩
    simp only [toNat_add_one_of_ne_seven h]
    exact toNat_acc_append_lt _ _ b hs.acc_lt

/-- Bits keep the writer's invariant where RAW has room for the bytes they complete (R46, R192). -/
theorem pushBits_writerInv (bs : List Bool) {s : State} (hs : WriterInv s)
    (hroom : s.bitCount + bs.length < 8 * (Config.rawCap + 1)) : WriterInv (pushBits s bs) := by
  induction bs generalizing s with
  | nil => exact hs
  | cons b bs ih =>
    rw [List.length_cons] at hroom
    exact ih (pushBit_writerInv b hs (by omega)) (by rw [bitCount_pushBit]; omega)

theorem flush_writerInv {s : State} (hs : WriterInv s) (hroom : flushBlocked s = false) : WriterInv (flush s) := by
  by_cases h : s.nb = 0#3
  · rw [flush_empty s h]
    exact hs
  · rw [flush_partial s h]
    exact appendRaw_writerInv _ hs (by simpa [flushBlocked, h] using hroom)

theorem Effect.writerInv {s t : State} {i : Instr} (h : Effect s i t) (hs : WriterInv s) : WriterInv t := by
  have hmem := fun a ha hw => h.keeps_written (a := a) ha hw
  cases h with
  | wrbits cnt hroom =>
    refine (pushBits_writerInv _ hs ?_).of_fields rfl rfl rfl fun _ _ => id
    rw [length_opaBits, State.bitCount]
    omega
  | wflush hroom => exact (flush_writerInv hs hroom).of_fields rfl rfl rfl fun _ _ => id
  | wfinal hroom =>
    exact (flush_writerInv hs hroom).of_fields rfl rfl rfl fun _ _ => Memory.isSome_read_splice _ _ _
  | wreset => exact writerInv_of_empty rfl rfl rfl
  | _ => exact hs.of_fields rfl rfl rfl hmem

/-! ## OUT -/

/-- Stuffing at most doubles RAW, and OUT is twice as large (R203). -/
theorem stuffOut_outInv {s : State} (hs : WriterInv s) : OutInv (stuffOut s) where
  outLen_le := by
    have hstuff := length_stuff_le s.rawBytes
    have hraw := hs.rawLen_le
    rw [length_rawBytes] at hstuff
    rw [stuffOut_outLen]
    simp only [Config.rawCap, Config.outCap] at *
    omega
  out_written k hk := by
    rw [stuffOut_outLen] at hk
    rw [stuffOut_mem, Memory.read_splice, if_pos (by omega), Nat.add_sub_cancel_left, List.getElem?_eq_getElem hk]
    rfl

theorem Effect.outInv {s t : State} {i : Instr} (h : Effect s i t) (hw : WriterInv s) (hs : OutInv s) : OutInv t := by
  have hmem := fun a ha hw => h.keeps_written (a := a) ha hw
  have houtLen := h.frame.outLen
  cases h with
  | wfinal hroom => exact (stuffOut_outInv (flush_writerInv hw hroom)).of_fields rfl fun _ _ => id
  | wreset => exact outInv_of_empty rfl
  | raised => exact hs.of_fields rfl hmem
  | _ => exact hs.of_fields (houtLen.resolve_right (by simp)) hmem

/-! ## The reader -/

theorem Effect.readerInv {s t : State} {i : Instr} (h : Effect s i t) (ho : OutInv s) (hs : ReaderInv s) :
    ReaderInv t := by
  have hrin : t.rinLen ≤ Config.rinCap := h.frame.rinLen ▸ hs.rinLen_le
  have hreader := h.frame.reader
  cases h with
  | rreset src len hlen =>
    refine readerInv_of_rewound hrin ?_ rfl rfl
    rcases hlen with rfl | rfl
    · exact hs.rinLen_le
    · exact ho.outLen_le
  | rdbits cnt p b val hread =>
    obtain ⟨hp, hb⟩ := readLoop_position s _ _ _ _ _ _ _ hs.rp_le hs.rb_zero hread
    exact ⟨hrin, hs.rlen_le, hp, hb⟩
  | raised => exact hs.of_fields hrin rfl rfl rfl
  | _ =>
    obtain ⟨-, hrlen, hrp, hrb⟩ := hreader.resolve_right (by simp)
    exact hs.of_fields hrin hrlen hrp hrb

/-! ## The engine -/

theorem engineInv_of_idle {s : State} (h : s.pending = none) : EngineInv s := by
  intro w hw
  rw [h] at hw
  cases hw

/-! ## Every step -/

/-- The invariants of the writer, OUT, the reader and the engine together. -/
structure StreamInv (s : State) : Prop where
  writer : WriterInv s
  out : OutInv s
  reader : ReaderInv s
  engine : EngineInv s

theorem Effect.streamInv {s t : State} {i : Instr} (h : Effect s i t) (hs : StreamInv s) : StreamInv t where
  writer := h.writerInv hs.writer
  out := h.outInv hs.writer hs.out
  reader := h.readerInv hs.out hs.reader
  engine := engineInv_of_idle h.frame.pending

/-- A write or a read of the host that leaves the writer, OUT and the reader's position as they are. -/
theorem StreamInv.of_host {s t : State} (hs : StreamInv s) (hacc : t.acc = s.acc) (hnb : t.nb = s.nb)
    (hraw : t.rawLen = s.rawLen) (hout : t.outLen = s.outLen) (hrin : t.rinLen ≤ Config.rinCap)
    (hrlen : t.rlen = s.rlen) (hrp : t.rp = s.rp) (hrb : t.rb = s.rb)
    (hmem : ∀ a, Config.rawBase ≤ a → (s.mem.read a).isSome = true → (t.mem.read a).isSome = true)
    (hengine : EngineInv t) : StreamInv t where
  writer := hs.writer.of_fields hacc hnb hraw hmem
  out := hs.out.of_fields hout hmem
  reader := hs.reader.of_fields hrin hrlen hrp hrb
  engine := hengine

theorem streamInv_of_reset {s : State} (hacc : s.acc = 0#7) (hnb : s.nb = 0#3) (hraw : s.rawLen = 0)
    (hout : s.outLen = 0) (hrin : s.rinLen = 0) (hrlen : s.rlen = 0) (hrp : s.rp = 0) (hrb : s.rb = 0#3)
    (hpending : s.pending = none) : StreamInv s where
  writer := writerInv_of_empty hacc hnb hraw
  out := outInv_of_empty hout
  reader := readerInv_of_rewound (by rw [hrin]; exact Nat.zero_le _) (by rw [hrlen]; exact Nat.zero_le _) hrp hrb
  engine := engineInv_of_idle hpending

theorem HostEffect.streamInv {s t : State} (h : HostEffect s t) (hs : StreamInv s) : StreamInv t := by
  have hrin := hs.reader.rinLen_le
  have hengine := hs.engine
  cases h with
  | softReset v => exact streamInv_of_reset rfl rfl rfl rfl rfl rfl rfl rfl rfl
  | hardReset => exact streamInv_of_reset rfl rfl rfl rfl rfl rfl rfl rfl rfl
  | status v =>
    refine hs.of_host rfl rfl rfl rfl hrin rfl rfl rfl (fun _ _ => id) fun w hw => ?_
    obtain ⟨hcmd, herr⟩ := hengine w hw
    exact ⟨hcmd, by simp [herr]⟩
  | accepted w herr =>
    exact hs.of_host rfl rfl rfl rfl hrin rfl rfl rfl (fun _ _ => id) fun v hv => ⟨Option.some.inj hv, herr⟩
  | dropped w herr =>
    exact hs.of_host rfl rfl rfl rfl hrin rfl rfl rfl (fun _ _ => id) fun v hv => absurd (hengine v hv).2 herr
  | rinlen n hn => exact hs.of_host rfl rfl rfl rfl hn rfl rfl rfl (fun _ _ => id) hengine
  | bufferWord off v hoff =>
    exact hs.of_host rfl rfl rfl rfl hrin rfl rfl rfl (fun _ _ => Memory.isSome_read_splice _ _ _) hengine
  | _ => exact hs.of_host rfl rfl rfl rfl hrin rfl rfl rfl (fun _ _ => id) hengine

/-- Settles O59, as one invariant: OUT's bound needs the writer's, and the reader's needs OUT's. -/
theorem stepKeepsTheStreamInvariants : Obligations.StepKeepsTheStreamInvariants := by
  intro s t hwriter hout hreader hengine hstep
  have ht : StreamInv t := step_keeps (P := StreamInv)
    (fun _ _ _ hs => hs.of_host rfl rfl rfl rfl hs.reader.rinLen_le rfl rfl rfl (fun _ _ => id) hs.engine)
    (fun _ _ _ hs h => h.streamInv hs) (fun _ _ hs h => h.streamInv hs) ⟨hwriter, hout, hreader, hengine⟩ hstep
  exact ⟨ht.writer, ht.out, ht.reader, ht.engine⟩

end Sys2Proof.Machine
end

section
/-! PROOFS. Which bytes of memory each command can change (R37 to R45, R165, R236). -/

namespace Sys2Proof.Machine

/-! ## Where a memory operation changes what a read finds -/

theorem Memory.bounds_of_read_splice_ne {m : Memory} {base : Nat} {bs : List Byte} {a : Nat}
    (h : (m.splice base bs).read a ≠ m.read a) : base ≤ a ∧ a < base + bs.length := by
  by_contra hout
  exact h (Memory.read_splice_outside m base bs a hout)

theorem Memory.bounds_of_read_clear_ne {m : Memory} {base size a : Nat} (h : (m.clear base size).read a ≠ m.read a) :
    base ≤ a ∧ a < base + size := by
  by_contra hout
  exact h (by rw [Memory.read_clear, if_neg hout])

/-- An operation that changes what a read finds does so in its first part or in its second. -/
theorem read_ne_or_read_ne {m m' m'' : Memory} {a : Nat} (h : m''.read a ≠ m.read a) :
    m'.read a ≠ m.read a ∨ m''.read a ≠ m'.read a := by
  by_contra hno
  push Not at hno
  exact h (hno.2.trans hno.1)

theorem bounds_of_read_writeDout_ne {m : Memory} {block : List F64} {a : Nat} (hlen : block.length = 64)
    (h : (m.writeDout block).read a ≠ m.read a) : 0x600 ≤ a ∧ a < 0x800 := by
  have hin := Memory.bounds_of_read_splice_ne h
  rw [length_chunks bytesOfF64 8 length_bytesOfF64, hlen] at hin
  exact hin

theorem bounds_of_read_hclear_ne {m : Memory} {bank : BitVec 2} {a : Nat}
    (h : ((m.clear (freqBank bank) 0x400).clear (lutBank bank) 0x1000).read a ≠ m.read a) :
    (freqBank bank ≤ a ∧ a < freqBank bank + 0x400) ∨ (lutBank bank ≤ a ∧ a < lutBank bank + 0x1000) :=
  (read_ne_or_read_ne h).imp Memory.bounds_of_read_clear_ne Memory.bounds_of_read_clear_ne

theorem length_codeTable {root : HuffTree} {table : List LutEntry} (h : codeTable root = .ok table) :
    table.length = 256 := by
  rw [length_walk _ _ _ _ _ h, List.length_replicate, Config.nsym]

theorem bounds_of_read_writeLut_ne {m : Memory} {bank : BitVec 2} {table : List LutEntry} {a : Nat}
    (hlen : table.length = 256) (h : (m.writeLut bank table).read a ≠ m.read a) :
    lutBank bank ≤ a ∧ a < lutBank bank + 0x1000 := by
  have hin := Memory.bounds_of_read_splice_ne h
  rw [length_chunks LutEntry.bytes 16 length_lutEntry_bytes, hlen] at hin
  exact hin

/-- A byte appended to RAW lies at its end (R190). -/
theorem bounds_of_read_appendRaw_ne {b : Byte} {s : State} {a : Nat} (h : (appendRaw b s).mem.read a ≠ s.mem.read a) :
    Config.rawBase + s.rawLen ≤ a ∧ a < Config.rawBase + (appendRaw b s).rawLen :=
  Memory.bounds_of_read_splice_ne h

theorem bounds_of_read_flush_ne {s : State} {a : Nat} (h : (flush s).mem.read a ≠ s.mem.read a) :
    Config.rawBase + s.rawLen ≤ a ∧ a < Config.rawBase + (flush s).rawLen := by
  by_cases hnb : s.nb = 0#3
  · rw [flush_empty s hnb] at h
    exact absurd rfl h
  · rw [flush_partial s hnb] at h ⊢
    exact bounds_of_read_appendRaw_ne h

theorem pushBit_rawLen_le (s : State) (b : Bool) : s.rawLen ≤ (pushBit s b).rawLen := by
  unfold pushBit
  split
  · exact Nat.le_succ _
  · exact Nat.le_refl _

theorem pushBits_rawLen_le (bs : List Bool) (s : State) : s.rawLen ≤ (pushBits s bs).rawLen := by
  induction bs generalizing s with
  | nil => exact Nat.le_refl _
  | cons b bs ih => exact (pushBit_rawLen_le s b).trans (ih _)

theorem bounds_of_read_pushBit_ne {s : State} {b : Bool} {a : Nat} (h : (pushBit s b).mem.read a ≠ s.mem.read a) :
    Config.rawBase + s.rawLen ≤ a ∧ a < Config.rawBase + (pushBit s b).rawLen := by
  by_cases hnb : s.nb = 7#3
  · rw [pushBit_full s b hnb] at h ⊢
    exact bounds_of_read_appendRaw_ne h
  · rw [pushBit_partial s b hnb] at h
    exact absurd rfl h

/-- Bits change RAW between its old length and its new one (R190). -/
theorem bounds_of_read_pushBits_ne {bs : List Bool} {s : State} {a : Nat}
    (h : (pushBits s bs).mem.read a ≠ s.mem.read a) :
    Config.rawBase + s.rawLen ≤ a ∧ a < Config.rawBase + (pushBits s bs).rawLen := by
  induction bs generalizing s with
  | nil => exact absurd rfl h
  | cons b bs ih =>
    have hfirst := pushBit_rawLen_le s b
    have hrest := pushBits_rawLen_le bs (pushBit s b)
    rw [pushBits_cons] at h ⊢
    rcases read_ne_or_read_ne (m' := (pushBit s b).mem) h with h | h
    · have := bounds_of_read_pushBit_ne h
      omega
    · have := ih h
      omega

/-! ## Commands -/

/-- Where a byte that a command changes lies: stuffing at most doubles RAW (R203). -/
theorem Effect.bounds_of_read_ne {s t : State} {i : Instr} (h : Effect s i t) {a : Nat}
    (hne : t.mem.read a ≠ s.mem.read a) :
    (∃ mode, (i = .fdct mode ∨ i = .idct mode) ∧ 0x600 ≤ a ∧ a < 0x800) ∨
    (∃ bank, i = .hclear bank ∧ bankOk bank = true ∧
      ((freqBank bank ≤ a ∧ a < freqBank bank + 0x400) ∨ (lutBank bank ≤ a ∧ a < lutBank bank + 0x1000))) ∨
    (∃ tree, i = .htable ∧ s.tree = some tree ∧ lutBank tree.bank ≤ a ∧ a < lutBank tree.bank + 0x1000) ∨
    (((∃ n, i = .wrbits n) ∨ i = .wflush ∨ i = .wfinal) ∧ Config.rawBase ≤ a ∧ a < Config.rawBase + t.rawLen) ∨
    (i = .wfinal ∧ Config.outBase ≤ a ∧ a < Config.outBase + 2 * t.rawLen) := by
  cases h with
  | fdct mode f => exact .inl ⟨mode, .inl rfl, bounds_of_read_writeDout_ne (length_fdct _ _) hne⟩
  | idct mode q => exact .inl ⟨mode, .inr rfl, bounds_of_read_writeDout_ne (length_idct _ _) hne⟩
  | hclear bank hbank => exact .inr (.inl ⟨bank, rfl, hbank, bounds_of_read_hclear_ne hne⟩)
  | htable tree table htree htable =>
    exact .inr (.inr (.inl ⟨tree, rfl, htree, bounds_of_read_writeLut_ne (length_codeTable htable) hne⟩))
  | wrbits cnt hroom =>
    obtain ⟨hlow, hhigh⟩ := bounds_of_read_pushBits_ne hne
    exact .inr (.inr (.inr (.inl ⟨.inl ⟨cnt, rfl⟩, by omega, hhigh⟩)))
  | wflush hroom =>
    obtain ⟨hlow, hhigh⟩ := bounds_of_read_flush_ne hne
    exact .inr (.inr (.inr (.inl ⟨.inr (.inl rfl), by omega, hhigh⟩)))
  | wfinal hroom =>
    rcases read_ne_or_read_ne (m' := (flush s).mem) hne with h | h
    · obtain ⟨hlow, hhigh⟩ := bounds_of_read_flush_ne h
      exact .inr (.inr (.inr (.inl ⟨.inr (.inr rfl), by omega, hhigh⟩)))
    · obtain ⟨hlow, hhigh⟩ := Memory.bounds_of_read_splice_ne h
      have hstuff := length_stuff_le (flush s).rawBytes
      rw [length_rawBytes] at hstuff
      exact .inr (.inr (.inr (.inr ⟨rfl, hlow, hhigh.trans_le (Nat.add_le_add_left hstuff _)⟩)))
  | _ => exact absurd rfl hne

theorem flush_rawLen_le {s : State} (hs : s.rawLen ≤ Config.rawCap) (hroom : flushBlocked s = false) :
    (flush s).rawLen ≤ Config.rawCap := by
  by_cases h : s.nb = 0#3
  · rw [flush_empty s h]
    exact hs
  · rw [flush_partial s h]
    simpa [flushBlocked, h] using hroom

/-- RAW never grows past its buffer (R43, R192, R196). -/
theorem Effect.rawLen_le {s t : State} {i : Instr} (h : Effect s i t) (hs : s.rawLen ≤ Config.rawCap) :
    t.rawLen ≤ Config.rawCap := by
  cases h with
  | wrbits cnt hroom =>
    have hcount := bitCount_pushBits (opaBits s.opa cnt.toNat) s
    rw [length_opaBits, State.bitCount, State.bitCount] at hcount
    rw [complete_rawLen]
    omega
  | wflush hroom => exact flush_rawLen_le hs hroom
  | wfinal hroom => exact flush_rawLen_le hs hroom
  | wreset => exact Nat.zero_le _
  | _ => exact hs

/-- Settles O37: the ranges of `Effect.bounds_of_read_ne`, within their buffers while RAW is within its own. -/
theorem eachBufferHasItsWriters : Obligations.EachBufferHasItsWriters := by
  intro i s t h hs
  have heff := effect_of_exec h
  have hraw : t.rawLen ≤ 4096 := heff.rawLen_le hs
  refine ⟨heff.frame.tree.resolve_left, fun a hne => ?_⟩
  rcases heff.bounds_of_read_ne hne with
    hdct | ⟨bank, hi, hbank, hin⟩ | ⟨tree, hi, htree, hin⟩ | ⟨hi, hin⟩ | ⟨hi, hin⟩
  · exact .inl hdct
  · have hlt : bank.toNat < 3 := of_decide_eq_true hbank
    simp only [freqBank, lutBank, Config.freqBase, Config.lutBase] at hin
    exact .inr (.inl ⟨bank, hi, by omega⟩)
  · simp only [lutBank, Config.lutBase] at hin
    exact .inr (.inr (.inl ⟨tree, hi, htree, by omega⟩))
  · simp only [Config.rawBase] at hin
    exact .inr (.inr (.inr (.inl ⟨hi, by omega⟩)))
  · simp only [Config.outBase] at hin
    exact .inr (.inr (.inr (.inr ⟨hi, by omega⟩)))

end Sys2Proof.Machine
end

section
/-! PROOFS. The trees that HBUILD builds (R151 to R158). A merge keeps the leaves of the whole queue, as a multiset, and
the sum of its keys, which stays below 2^40, so that no frequency overflows (R157). -/

namespace Sys2Proof.Machine

/-! ## The queue -/

/-- The leaves of all trees of a queue. -/
def queueLeaves (q : List QItem) : List (Byte × BitVec 32) := q.flatMap fun x => x.tree.leaves

/-- The sum of the keys of a queue, as a number. -/
def queueTotal (q : List QItem) : Nat := (q.map fun x => x.key.toNat).sum

/-- What holds of every pair of the queue: its tree is full, its frequencies are sums, its internal ids start at 256,
and its key is the tree's frequency (R152, R154). -/
structure QItem.Sound (x : QItem) : Prop where
  full : x.tree.full
  sums : x.tree.sums
  ids : ∀ id ∈ x.tree.internalIds, 256 ≤ id
  freq : x.tree.freq = x.key.toNat

/-- The queue while HBUILD runs on an alphabet with the leaves `leaves` (R154, R157). -/
structure QueueInv (leaves : List (Byte × BitVec 32)) (q : List QItem) : Prop where
  sound : ∀ x ∈ q, x.Sound
  leaves_perm : (queueLeaves q).Perm leaves
  total_lt : queueTotal q < 2 ^ 40

theorem QueueInv.perm {leaves : List (Byte × BitVec 32)} {q q' : List QItem} (h : QueueInv leaves q)
    (hp : q.Perm q') : QueueInv leaves q' where
  sound x hx := h.sound x (hp.mem_iff.2 hx)
  leaves_perm := (hp.symm.flatMap_right _).trans h.leaves_perm
  total_lt := by
    rw [queueTotal, ← (hp.map _).sum_eq]
    exact h.total_lt

theorem sound_merged {id : Nat} {x y : QItem} (hx : x.Sound) (hy : y.Sound) (hid : 256 ≤ id)
    (hsum : (x.key + y.key).toNat = x.key.toNat + y.key.toNat) : (merged id x y).Sound where
  full := ⟨hx.full, hy.full⟩
  sums := ⟨by rw [hsum, hx.freq, hy.freq], hx.sums, hy.sums⟩
  ids := by
    intro k hk
    simp only [merged, HuffTree.internalIds, List.mem_cons, List.mem_append] at hk
    rcases hk with rfl | hk | hk
    · exact hid
    · exact hx.ids k hk
    · exact hy.ids k hk
  freq := rfl

/-- A merge keeps the invariant: the keys of the queue together are below 2^40, so the new key does not overflow
(R154, R157). -/
theorem QueueInv.merge {leaves : List (Byte × BitVec 32)} {id : Nat} {x y : QItem} {rest : List QItem}
    (h : QueueInv leaves (x :: y :: rest)) (hid : 256 ≤ id) : QueueInv leaves (merged id x y :: rest) := by
  have htotal := h.total_lt
  simp only [queueTotal, List.map_cons, List.sum_cons] at htotal
  have hsum : (x.key + y.key).toNat = x.key.toNat + y.key.toNat := BitVec.toNat_add_of_lt (by omega)
  refine ⟨?_, ?_, ?_⟩
  · intro z hz
    rcases List.mem_cons.1 hz with rfl | hz
    · exact sound_merged (h.sound x (by simp)) (h.sound y (by simp)) hid hsum
    · exact h.sound z (by simp [hz])
  · have hleaves := h.leaves_perm
    simp only [queueLeaves, List.flatMap_cons, ← List.append_assoc] at hleaves
    exact hleaves
  · have hkey : (merged id x y).key = x.key + y.key := rfl
    simp only [queueTotal, List.map_cons, List.sum_cons, hkey, hsum]
    omega

/-- Merging until one pair is left ends with the tree of a pair that meets the invariant alone (R154). -/
theorem exists_item_of_mergeAll {leaves : List (Byte × BitVec 32)} {n id : Nat} {x : QItem} {q : List QItem}
    (hn : q.length = n) (hid : 256 ≤ id) (h : QueueInv leaves (x :: q)) :
    ∃ z, mergeAll n id x q = z.tree ∧ QueueInv leaves [z] := by
  induction n generalizing id x q with
  | zero =>
    cases List.eq_nil_of_length_eq_zero hn
    exact ⟨x, rfl, h⟩
  | succ n ih =>
    cases q with
    | nil => exact absurd hn (by simp)
    | cons y rest =>
      have hperm := enqueue_perm (merged id x y) rest
      have hlen := length_enqueue (merged id x y) rest
      rw [mergeAll]
      cases hq : enqueue (merged id x y) rest with
      | nil => rw [hq] at hlen; exact absurd hlen (by simp)
      | cons z zs =>
        rw [hq] at hperm hlen
        simp only [List.length_cons, Nat.add_right_cancel_iff] at hn hlen
        exact ih (hlen.trans hn) (by omega) ((h.merge hid).perm hperm.symm)

/-! ## The alphabet -/

theorem leafQueue_perm (m : Memory) (bank : BitVec 2) (alphabet : List Nat) :
    (leafQueue m bank alphabet).Perm (alphabet.map (leafItem m bank)) := by
  induction alphabet with
  | nil => exact List.Perm.refl _
  | cons sym rest ih => exact (enqueue_perm _ _).trans (ih.cons _)

theorem mem_alphabet {m : Memory} {bank : BitVec 2} {sym : Nat} :
    sym ∈ m.alphabet bank ↔ sym < 256 ∧ m.freq bank sym ≠ 0#32 := by
  simp [Memory.alphabet, Config.nsym]

theorem length_alphabet_le (m : Memory) (bank : BitVec 2) : (m.alphabet bank).length ≤ 256 :=
  (List.length_filter_le _ _).trans_eq (by simp [Config.nsym])

theorem nodup_alphabet (m : Memory) (bank : BitVec 2) : (m.alphabet bank).Nodup :=
  List.nodup_range.filter _

/-- The leaves of an alphabet: each symbol with its count (R152). -/
def alphabetLeaves (m : Memory) (bank : BitVec 2) : List (Byte × BitVec 32) :=
  (m.alphabet bank).map fun sym => (BitVec.ofNat 8 sym, m.freq bank sym)

theorem nodup_alphabetLeaves (m : Memory) (bank : BitVec 2) : ((alphabetLeaves m bank).map Prod.fst).Nodup := by
  rw [alphabetLeaves, List.map_map]
  refine (nodup_alphabet m bank).map_on fun a ha b hb hab => ?_
  have ha' := (mem_alphabet.1 ha).1
  have hb' := (mem_alphabet.1 hb).1
  have := congrArg BitVec.toNat hab
  simp only [Function.comp, BitVec.toNat_ofNat] at this
  omega

theorem count_ne_zero_of_mem_alphabetLeaves {m : Memory} {bank : BitVec 2} {p : Byte × BitVec 32}
    (hp : p ∈ alphabetLeaves m bank) : p.2 ≠ 0#32 := by
  obtain ⟨sym, hsym, rfl⟩ := List.mem_map.1 hp
  exact (mem_alphabet.1 hsym).2

theorem toNat_key_leafItem (m : Memory) (bank : BitVec 2) (sym : Nat) :
    (leafItem m bank sym).key.toNat = (m.freq bank sym).toNat :=
  BitVec.toNat_setWidth_of_le (by decide)

theorem sound_leafItem (m : Memory) (bank : BitVec 2) (sym : Nat) : (leafItem m bank sym).Sound where
  full := trivial
  sums := trivial
  ids := by simp [leafItem, HuffTree.internalIds]
  freq := (toNat_key_leafItem m bank sym).symm

/-- At most 256 counts below 2^32 have a sum below 2^40 (R157). -/
theorem queueTotal_leafItems_lt (m : Memory) (bank : BitVec 2) :
    queueTotal ((m.alphabet bank).map (leafItem m bank)) < 2 ^ 40 := by
  have hsum : queueTotal ((m.alphabet bank).map (leafItem m bank)) ≤ (m.alphabet bank).length • (2 ^ 32 - 1) := by
    rw [queueTotal, ← List.length_map (leafItem m bank), ← List.length_map fun x : QItem => x.key.toNat]
    refine List.sum_le_card_nsmul _ _ fun k hk => ?_
    obtain ⟨x, hx, rfl⟩ := List.mem_map.1 hk
    obtain ⟨sym, -, rfl⟩ := List.mem_map.1 hx
    have := (m.freq bank sym).isLt
    rw [toNat_key_leafItem]
    omega
  have hlen := length_alphabet_le m bank
  rw [smul_eq_mul] at hsum
  omega

/-- The invariant holds of the queue HBUILD starts from (R152). -/
theorem leafQueue_inv (m : Memory) (bank : BitVec 2) :
    QueueInv (alphabetLeaves m bank) (leafQueue m bank (m.alphabet bank)) := by
  refine QueueInv.perm ⟨fun x hx => ?_, ?_, queueTotal_leafItems_lt m bank⟩ (leafQueue_perm m bank _).symm
  · obtain ⟨sym, -, rfl⟩ := List.mem_map.1 hx
    exact sound_leafItem m bank sym
  · rw [queueLeaves, List.flatMap_map]
    exact .of_eq List.map_eq_flatMap.symm

/-! ## The tree -/

theorem built_of_full {t : HuffTree} (hfull : t.full) (hsums : t.sums) (hids : ∀ id ∈ t.internalIds, 256 ≤ id)
    (hlen : 2 ≤ t.leaves.length) (hnodup : (t.leaves.map Prod.fst).Nodup) (hcounts : ∀ p ∈ t.leaves, p.2 ≠ 0#32) :
    t.built := by
  cases t with
  | leaf sym f => exact absurd hlen (by simp [HuffTree.leaves])
  | single id f l => exact hfull.elim
  | node id f l r => exact ⟨hids id (by simp [HuffTree.internalIds]), hfull.1, hfull.2, hsums, hnodup, hcounts⟩

/-- The tree of an alphabet has the shape of R156 and R158. -/
theorem built_of_buildTree {m : Memory} {bank : BitVec 2} {root : HuffTree} (h : buildTree m bank = some root) :
    root.built := by
  have hinv := leafQueue_inv m bank
  have hitem : ∀ x ∈ leafQueue m bank (m.alphabet bank), ∃ sym ∈ m.alphabet bank, leafItem m bank sym = x := fun x hx =>
    List.mem_map.1 ((leafQueue_perm m bank _).mem_iff.1 hx)
  have hlen : (alphabetLeaves m bank).length = (leafQueue m bank (m.alphabet bank)).length := by
    rw [(leafQueue_perm m bank _).length_eq, alphabetLeaves, List.length_map, List.length_map]
  unfold buildTree at h
  generalize leafQueue m bank (m.alphabet bank) = q at h hinv hitem hlen
  match q with
  | [] => cases h
  | [x] =>
    obtain ⟨sym, hsym, rfl⟩ := hitem x (by simp)
    cases h
    exact ⟨rfl, _, _, rfl, rfl, (mem_alphabet.1 hsym).2⟩
  | x :: y :: rest =>
    obtain ⟨z, hz, hend⟩ := exists_item_of_mergeAll (n := rest.length + 1) rfl (Nat.le_refl 256) hinv
    cases h
    rw [hz]
    have hsound := hend.sound z (by simp)
    have hleaves : z.tree.leaves.Perm (alphabetLeaves m bank) := by simpa [queueLeaves] using hend.leaves_perm
    refine built_of_full hsound.full hsound.sums hsound.ids ?_ ?_ ?_
    · rw [hleaves.length_eq, hlen]
      simp
    · exact (hleaves.map _).nodup_iff.2 (nodup_alphabetLeaves m bank)
    · exact fun p hp => count_ne_zero_of_mem_alphabetLeaves (hleaves.mem_iff.1 hp)

end Sys2Proof.Machine
end

section
/-! PROOFS. The two resets (R51, R280, R282, R283). -/

namespace Sys2Proof.Machine

/-- FREQ and LUT read as 0 where nothing is written (R51). -/
theorem Memory.blank_of_cleared {a : Nat} (h : (0x1000 ≤ a ∧ a < 0x1C00) ∨ (0x4000 ≤ a ∧ a < 0x7000)) :
    Memory.blank a = some 0#8 :=
  if_pos h

/-- Outside FREQ and LUT nothing is written after a hard reset (R50, R51). -/
theorem Memory.blank_of_unwritten {a : Nat} (hfreq : ¬ (0x1000 ≤ a ∧ a < 0x1C00)) (hlut : ¬ (0x4000 ≤ a ∧ a < 0x7000)) :
    Memory.blank a = none :=
  if_neg (not_or.2 ⟨hfreq, hlut⟩)

/-- The two clears of a soft reset (R282). -/
theorem read_clear_tables (m : Memory) (a : Nat) :
    ((m.clear Config.freqBase 0xC00).clear Config.lutBase 0x3000).read a =
      if (0x1000 ≤ a ∧ a < 0x1C00) ∨ (0x4000 ≤ a ∧ a < 0x7000) then some 0#8 else m.read a := by
  simp only [Memory.read_clear, Config.freqBase, Config.lutBase]
  by_cases hlut : 0x4000 ≤ a ∧ a < 0x7000
  · rw [if_pos hlut, if_pos (.inr hlut), Memory.blank_of_cleared (.inr hlut)]
  · by_cases hfreq : 0x1000 ≤ a ∧ a < 0x1C00
    · rw [if_neg hlut, if_pos hfreq, if_pos (.inl hfreq), Memory.blank_of_cleared (.inl hfreq)]
    · rw [if_neg hlut, if_neg hfreq, if_neg (not_or.2 ⟨hfreq, hlut⟩)]

/-- Where DOUT is not set free, a soft reset clears FREQ and LUT and keeps every other byte (R282, R283). -/
theorem read_softResetMem (s : State) {a : Nat} (h : dctPending s.pending = false ∨ ¬ (0x600 ≤ a ∧ a < 0x800)) :
    (softResetMem s).read a =
      if (0x1000 ≤ a ∧ a < 0x1C00) ∨ (0x4000 ≤ a ∧ a < 0x7000) then some 0#8 else s.mem.read a := by
  rw [← read_clear_tables]
  unfold softResetMem
  by_cases hdct : dctPending s.pending = true
  · have hout := h.resolve_left (by simp [hdct])
    rw [if_pos hdct, Memory.read_splice_outside]
    simpa [freeBlock, Config.doutBase, Config.nblk] using hout
  · rw [if_neg hdct]

theorem read_softResetMem_cleared (s : State) {a : Nat}
    (ha : (0x1000 ≤ a ∧ a < 0x1C00) ∨ (0x4000 ≤ a ∧ a < 0x7000)) : (softResetMem s).read a = some 0#8 := by
  rw [read_softResetMem s (.inr (by omega)), if_pos ha]

theorem dctPending_eq_false {pending : Option Word}
    (h : ∀ w mode, pending = some w → decode w ≠ .ok (.fdct mode) ∧ decode w ≠ .ok (.idct mode)) :
    dctPending pending = false := by
  cases pending with
  | none => rfl
  | some w =>
    unfold dctPending
    simp only
    split
    · exact absurd ‹_› (h w _ rfl).1
    · exact absurd ‹_› (h w _ rfl).2
    · rfl

/-- Settles O50, by what a read finds after a soft reset. -/
theorem softResetResetsTheRegisters : Obligations.SoftResetResetsTheRegisters := by
  intro s v hv
  refine ⟨softResetMem s, ?_, fun a ha => read_softResetMem_cleared s ha, fun a hfreq hlut hdout => ?_,
    fun hpending a hlow hhigh => ?_⟩
  · exact hostEvent_write_of_busWrite (by decide) (writeCtrl_reset v s hv)
  · rw [read_softResetMem s (.inr hdout), if_neg (not_or.2 ⟨hfreq, hlut⟩)]
  · rw [read_softResetMem s (.inl (dctPending_eq_false hpending)), if_neg (by omega)]

/-- Settles O51: the memory after a hard reset is empty, so a read finds what a byte never written reads as. -/
theorem hardResetResetsEverything : Obligations.HardResetResetsEverything := fun _ =>
  ⟨[], rfl, fun _ ha => Memory.blank_of_cleared ha, fun _ hfreq hlut => Memory.blank_of_unwritten hfreq hlut⟩

end Sys2Proof.Machine
end

section
/-! PROOFS. The code tables (R42, R160): what an entry reads as after a bank is written or cleared, that the walk of a
built tree writes entries as R42 says, and that every step keeps the tables and the tree store. -/

namespace Sys2Proof.Machine

/-! ## Entries of a table -/

/-- Every byte of a LUT bank lies in the range R66 gives LUT. -/
theorem lutBank_bounds {bank : BitVec 2} (hbank : bankOk bank = true) :
    0x4000 ≤ lutBank bank ∧ lutBank bank + 0x1000 ≤ 0x7000 := by
  have hlt : bank.toNat < 3 := of_decide_eq_true hbank
  simp only [lutBank, Config.lutBase]
  omega

/-- An entry depends on its first twelve bytes only (R42). -/
theorem lutEntry_congr {m m' : Memory} {bank : BitVec 2} {sym : Nat}
    (h : ∀ j < 12, m'.read (lutBank bank + 16 * sym + j) = m.read (lutBank bank + 16 * sym + j)) :
    m'.lutEntry bank sym = m.lutEntry bank sym := by
  have hword : ∀ j, j + 3 < 12 → m'.readWord (lutBank bank + 16 * sym + j) =
      m.readWord (lutBank bank + 16 * sym + j) := by
    intro j hj
    unfold Memory.readWord
    simp only [Nat.add_assoc (lutBank bank + 16 * sym)]
    rw [h j (by omega), h (j + 1) (by omega), h (j + 2) (by omega), h (j + 3) hj]
  have hlow := hword 0 (by omega)
  rw [Nat.add_zero] at hlow
  unfold Memory.lutEntry
  simp only [hlow, hword 4 (by omega), hword 8 (by omega)]

/-- An entry as its first twelve bytes (R42). -/
theorem lutEntry_of_bytes {m : Memory} {bank : BitVec 2} {sym : Nat} (f : Nat → Byte)
    (h : ∀ j < 12, m.read (lutBank bank + 16 * sym + j) = some (f j)) :
    m.lutEntry bank sym = ⟨wordOfBytes (f 4) (f 5) (f 6) (f 7) ++ wordOfBytes (f 0) (f 1) (f 2) (f 3),
      (wordOfBytes (f 8) (f 9) (f 10) (f 11)).extractLsb' 0 7, (wordOfBytes (f 8) (f 9) (f 10) (f 11)).getLsbD 31⟩ := by
  have hword : ∀ j, j + 3 < 12 → m.readWord (lutBank bank + 16 * sym + j) =
      some (wordOfBytes (f j) (f (j + 1)) (f (j + 2)) (f (j + 3))) := by
    intro j hj
    unfold Memory.readWord
    simp only [Nat.add_assoc (lutBank bank + 16 * sym)]
    rw [h j (by omega), h (j + 1) (by omega), h (j + 2) (by omega), h (j + 3) hj]
  have hlow := hword 0 (by omega)
  rw [Nat.add_zero] at hlow
  unfold Memory.lutEntry
  simp only [hlow, hword 4 (by omega), hword 8 (by omega), Option.getD_some, Nat.zero_add, Nat.reduceAdd]

/-- An entry all of whose bytes are 0 is without a code (R42). -/
theorem lutEntry_of_zero {m : Memory} {bank : BitVec 2} {sym : Nat}
    (h : ∀ j < 12, m.read (lutBank bank + 16 * sym + j) = some 0#8) : m.lutEntry bank sym = LutEntry.empty :=
  lutEntry_of_bytes (fun _ => 0#8) h

theorem lenv_len (e : LutEntry) : e.lenv.extractLsb' 0 7 = e.len := by
  unfold LutEntry.lenv
  apply BitVec.eq_of_getLsbD_eq
  intro i hi
  simp only [BitVec.getLsbD_extractLsb', BitVec.getLsbD_append, Nat.zero_add, hi, decide_true, Bool.true_and, if_true]

theorem lenv_valid (e : LutEntry) : e.lenv.getLsbD 31 = e.valid := by
  unfold LutEntry.lenv bit
  simp only [BitVec.getLsbD_append]
  simp

/-- An entry of a table after the table is written to its bank (R42, R160). -/
theorem lutEntry_writeLut (m : Memory) (bank : BitVec 2) (table : List LutEntry) {sym : Nat} {e : LutEntry}
    (he : table[sym]? = some e) : (m.writeLut bank table).lutEntry bank sym = e := by
  have hsym : sym < table.length := (List.getElem?_eq_some_iff.1 he).1
  have h : ∀ j < 12, (m.writeLut bank table).read (lutBank bank + 16 * sym + j) = some (e.bytes.getD j 0#8) := by
    intro j hj
    have hchunk := Memory.read_splice_chunks m (lutBank bank) LutEntry.bytes 16 length_lutEntry_bytes table sym j hsym
      (by omega)
    have hlen : j < e.bytes.length := by
      rw [length_lutEntry_bytes]
      omega
    rw [he, Option.bind_some, ← Nat.add_assoc, List.getElem?_eq_getElem hlen] at hchunk
    rw [List.getD_eq_getElem _ _ hlen]
    exact hchunk
  rw [lutEntry_of_bytes _ h]
  simp only [LutEntry.bytes, bytesOfWord, List.cons_append, List.nil_append, List.getD_cons_zero, List.getD_cons_succ,
    wordOfBytes_bytes, halves_append, lenv_len, lenv_valid]

/-! ## The walk -/

theorem ok_empty : LutEntry.empty.ok := ⟨rfl, rfl⟩

/-- A code of `len` bits at depth `len` (R160, R161). -/
theorem ok_leaf {code : BitVec 64} {len : Nat} (hcode : code.toNat < 2 ^ len) (hlow : 1 ≤ len)
    (hhigh : len ≤ Config.maxCodeLen) : LutEntry.ok ⟨code, BitVec.ofNat 7 len, true⟩ := by
  have hlen : (BitVec.ofNat 7 len).toNat = len :=
    Nat.mod_eq_of_lt (by simp only [Config.maxCodeLen] at hhigh; omega)
  simp only [LutEntry.ok, if_true, hlen]
  exact ⟨hlow, hhigh, hcode⟩

theorem toNat_left_code_lt {code : BitVec 64} {len : Nat} (h : code.toNat < 2 ^ len) :
    (code <<< 1).toNat < 2 ^ (len + 1) := by
  rw [BitVec.toNat_shiftLeft, Nat.shiftLeft_eq, pow_succ]
  exact (Nat.mod_le _ _).trans_lt (by omega)

theorem toNat_right_code_lt {code : BitVec 64} {len : Nat} (h : code.toNat < 2 ^ len) :
    (code <<< 1 ||| 1#64).toNat < 2 ^ (len + 1) := by
  rw [BitVec.toNat_or]
  exact Nat.or_lt_two_pow (toNat_left_code_lt h) (Nat.one_lt_two_pow (Nat.succ_ne_zero len))

/-- Below the root, the walk writes only entries as R42 says. -/
theorem walk_entries_ok {t : HuffTree} {code : BitVec 64} {len : Nat} {table table' : List LutEntry}
    (h : walk t code len table = .ok table') (hcode : code.toNat < 2 ^ len) (hlen : 1 ≤ len)
    (htable : ∀ e ∈ table, e.ok) : ∀ e ∈ table', e.ok := by
  induction t generalizing code len table table' with
  | leaf sym f =>
    simp only [walk] at h
    split at h <;> cases h
    intro e he
    rcases List.mem_or_eq_of_mem_set he with he | rfl
    · exact htable e he
    · exact ok_leaf hcode hlen (Nat.le_of_not_lt ‹_›)
  | single id f l ih => exact ih h (toNat_left_code_lt hcode) (by omega) htable
  | node id f l r ihl ihr =>
    simp only [walk] at h
    split at h
    · cases h
    · rename_i hl
      exact ihr h (toNat_right_code_lt hcode) (by omega) (ihl hl (toNat_left_code_lt hcode) (by omega) htable)

/-- Every leaf of a built tree lies below its root, so the table has no code of length 0 (R156, R158, R160). -/
theorem codeTable_entries_ok {root : HuffTree} {table : List LutEntry} (hbuilt : root.built)
    (h : codeTable root = .ok table) : ∀ e ∈ table, e.ok := by
  have hblank : ∀ e ∈ List.replicate Config.nsym LutEntry.empty, e.ok := fun e he =>
    List.eq_of_mem_replicate he ▸ ok_empty
  unfold codeTable at h
  cases root with
  | leaf sym f => exact hbuilt.elim
  | single id f l => exact walk_entries_ok (t := l) h (toNat_left_code_lt (by decide)) (Nat.le_refl 1) hblank
  | node id f l r =>
    simp only [walk] at h
    split at h
    · cases h
    · rename_i hl
      exact walk_entries_ok h (toNat_right_code_lt (by decide)) (Nat.le_refl 1)
        (walk_entries_ok hl (toNat_left_code_lt (by decide)) (Nat.le_refl 1) hblank)

/-! ## The tables' invariant -/

/-- Where no byte of LUT changes, the invariant stays. -/
theorem LutInv.of_reads {s t : State} (hs : LutInv s)
    (h : ∀ a, 0x4000 ≤ a → a < 0x7000 → t.mem.read a = s.mem.read a) : LutInv t := by
  intro bank hbank sym hsym
  obtain ⟨hlow, hhigh⟩ := lutBank_bounds hbank
  simp only [Config.nsym] at hsym
  rw [lutEntry_congr fun j hj => h _ (by omega) (by omega)]
  exact hs bank hbank sym hsym

/-- The invariant holds where LUT is 0, as after a reset (R51). -/
theorem lutInv_of_zero {s : State} (h : ∀ a, 0x4000 ≤ a → a < 0x7000 → s.mem.read a = some 0#8) : LutInv s := by
  intro bank hbank sym hsym
  obtain ⟨hlow, hhigh⟩ := lutBank_bounds hbank
  simp only [Config.nsym] at hsym
  rw [lutEntry_of_zero fun j hj => h _ (by omega) (by omega)]
  exact ok_empty

theorem lutBank_disjoint {b b' : BitVec 2} (h : b ≠ b') :
    lutBank b + 0x1000 ≤ lutBank b' ∨ lutBank b' + 0x1000 ≤ lutBank b := by
  have hne : b.toNat ≠ b'.toNat := fun he => h (BitVec.eq_of_toNat_eq he)
  simp only [lutBank]
  omega

/-- Where one bank's entries are as R42 says afterwards and no other byte of LUT changes, the invariant stays. -/
theorem LutInv.of_bank {s t : State} (hs : LutInv s) (b : BitVec 2) (hb : ∀ sym < 256, (t.mem.lutEntry b sym).ok)
    (h : ∀ a, 0x4000 ≤ a → a < 0x7000 → t.mem.read a ≠ s.mem.read a → lutBank b ≤ a ∧ a < lutBank b + 0x1000) :
    LutInv t := by
  intro bank hbank sym hsym
  by_cases heq : bank = b
  · rw [heq]
    exact hb sym hsym
  · obtain ⟨hlow, hhigh⟩ := lutBank_bounds hbank
    have hdisjoint := lutBank_disjoint heq
    simp only [Config.nsym] at hsym
    rw [lutEntry_congr fun j hj => by_contra fun hne => ?_]
    · exact hs bank hbank sym hsym
    · have := h _ (by omega) (by omega) hne
      omega

theorem lutEntry_clear {m : Memory} {bank : BitVec 2} {sym : Nat} (hbank : bankOk bank = true) (hsym : sym < 256) :
    (m.clear (lutBank bank) 0x1000).lutEntry bank sym = LutEntry.empty := by
  obtain ⟨hlow, hhigh⟩ := lutBank_bounds hbank
  refine lutEntry_of_zero fun j hj => ?_
  rw [Memory.read_clear, if_pos (by omega), Memory.blank_of_cleared (.inr ⟨by omega, by omega⟩)]

/-! ## Every step -/

theorem Effect.read_lut_eq {s t : State} {i : Instr} (h : Effect s i t) (hclear : ∀ bank, i ≠ .hclear bank)
    (htable : i ≠ .htable) {a : Nat} (hlow : 0x4000 ≤ a) (hhigh : a < 0x7000) : t.mem.read a = s.mem.read a := by
  by_contra hne
  rcases h.bounds_of_read_ne hne with ⟨mode, hi, hin⟩ | ⟨bank, hi, hin⟩ | ⟨tree, hi, hin⟩ | ⟨hi, hin⟩ | ⟨hi, hin⟩
  · omega
  · exact hclear bank hi
  · exact htable hi
  · simp only [Config.rawBase] at hin
    omega
  · simp only [Config.outBase] at hin
    omega

/-- HCLEAR and HTABLE write one bank of LUT, and no other command writes LUT (R150, R160). -/
theorem Effect.lutInv {s t : State} {i : Instr} (h : Effect s i t) (hs : LutInv s) (htree : TreeInv s) : LutInv t := by
  have hread := h.read_lut_eq
  cases h with
  | raised => exact hs.of_reads fun _ _ _ => rfl
  | hclear bank hbank =>
    refine hs.of_bank bank (fun sym hsym => ?_) fun a hlow hhigh hne => ?_
    · exact (lutEntry_clear hbank hsym).symm ▸ ok_empty
    · have hlt := bank.isLt
      have := bounds_of_read_hclear_ne hne
      simp only [freqBank, Config.freqBase] at this
      omega
  | htable tree table ht htable =>
    have hlen := length_codeTable htable
    refine hs.of_bank tree.bank (fun sym hsym => ?_) fun a _ _ => bounds_of_read_writeLut_ne hlen
    have he : table[sym]? = some table[sym] := List.getElem?_eq_getElem (by omega)
    rw [complete_mem, lutEntry_writeLut _ _ _ he]
    exact codeTable_entries_ok (htree tree ht).2 htable _ (List.getElem_mem _)
  | _ => exact hs.of_reads fun _ hlow hhigh => hread (by simp) (by simp) hlow hhigh

/-- HBUILD leaves a built tree, and no other command writes the tree store (R152, R165). -/
theorem Effect.treeInv {s t : State} {i : Instr} (h : Effect s i t) (hs : TreeInv s) : TreeInv t := by
  have htree := h.frame.tree
  cases h with
  | hbuild bank root hbank hroot =>
    intro tree heq
    cases heq
    exact ⟨hbank, built_of_buildTree hroot⟩
  | raised => exact hs
  | _ =>
    intro tree heq
    exact hs tree (htree.resolve_right (by simp) ▸ heq)

theorem HostEffect.lutInv {s t : State} (h : HostEffect s t) (hs : LutInv s) : LutInv t := by
  cases h with
  | softReset v => exact lutInv_of_zero fun a hlow hhigh => read_softResetMem_cleared s (.inr ⟨hlow, hhigh⟩)
  | hardReset => exact lutInv_of_zero fun a hlow hhigh => Memory.blank_of_cleared (.inr ⟨hlow, hhigh⟩)
  | bufferWord off v hoff =>
    refine hs.of_reads fun a hlow hhigh => Memory.read_splice_outside _ _ _ _ ?_
    rw [length_bytesOfWord]
    omega
  | _ => exact hs.of_reads fun _ _ _ => rfl

theorem HostEffect.treeInv {s t : State} (h : HostEffect s t) (hs : TreeInv s) : TreeInv t := by
  cases h with
  | softReset v => intro tree heq; cases heq
  | hardReset => intro tree heq; cases heq
  | _ => exact hs

/-- Settles O60: the tables need the tree's shape, since a tree that is a leaf would give a code of length 0. -/
theorem stepKeepsTablesAndTree : Obligations.StepKeepsTablesAndTree := by
  intro s t hlut htree hstep
  exact step_keeps (P := fun s => LutInv s ∧ TreeInv s) (fun _ _ _ hs => hs)
    (fun _ _ _ hs h => ⟨h.lutInv hs.1 hs.2, h.treeInv hs.2⟩) (fun _ _ hs h => ⟨h.lutInv hs.1, h.treeInv hs.2⟩)
    ⟨hlut, htree⟩ hstep

/-- Settles O57: each invariant holds where its lengths are 0, nothing is pending and LUT is 0. -/
theorem resetMeetsTheInvariants : Obligations.ResetMeetsTheInvariants := by
  have hstream : StreamInv State.reset := streamInv_of_reset rfl rfl rfl rfl rfl rfl rfl rfl rfl
  have hlut : LutInv State.reset := lutInv_of_zero fun a hlow hhigh => Memory.blank_of_cleared (.inr ⟨hlow, hhigh⟩)
  have htree : TreeInv State.reset := by
    intro t ht
    cases ht
  refine ⟨⟨rfl, rfl, rfl, rfl, rfl, rfl, rfl, rfl, rfl, rfl, rfl, rfl, rfl, rfl, rfl, rfl, rfl, rfl, rfl, rfl,
    fun a ha => Memory.blank_of_cleared ha, fun a hfreq hlut => Memory.blank_of_unwritten hfreq hlut⟩,
    reset_mem_wf, hstream.writer, hstream.out, hstream.reader, hstream.engine, hlut, htree⟩

end Sys2Proof.Machine
end

section
/-! PROOFS. Reading what was never written (R50, R211). RDBITS reaches a byte without a value where the data bits of the
readable bytes before it do not suffice, or where they end with the last bit of a 0xFF. -/

namespace Sys2Proof.Machine

/-! ## FDCT and IDCT -/

theorem execFdct_unwritten {s : State} {k : Nat} (mode : DctMode) (hk : k < 64)
    (h : s.mem.readF64 (0x200 + 8 * k) = none) : exec (.fdct mode) s = .fault (.unwrittenRead (.fdct mode)) := by
  have hdin : s.mem.din = none := Option.eq_none_iff_forall_ne_some.2 fun f hf => by
    obtain ⟨hlen, hread⟩ := (Memory.readF64s_eq_some _ _ _ _).1 hf
    exact absurd (h.symm.trans (hread k hk)).symm (by simpa [hlen, Config.nblk] using hk)
  simp only [exec, execFdct, hdin]

theorem execIdct_unwritten {s : State} {k : Nat} (mode : DctMode) (hk : k < 64)
    (h : s.mem.readWord (0x400 + 4 * k) = none) : exec (.idct mode) s = .fault (.unwrittenRead (.idct mode)) := by
  have hqin : s.mem.qin = none := Option.eq_none_iff_forall_ne_some.2 fun q hq => by
    obtain ⟨hlen, hread⟩ := (Memory.readWords_eq_some _ _ _ _).1 hq
    exact absurd (h.symm.trans (hread k hk)).symm (by simpa [hlen, Config.nblk] using hk)
  simp only [exec, execIdct, hqin]

/-! ## The reader's loop -/

/-- From byte `p` on the source holds `bytes`, and then, before RLEN, a byte without a value (R211). -/
structure SourceStops (s : State) (p : Nat) (bytes : List Byte) : Prop where
  holds : ∀ j < bytes.length, s.srcByte (p + j) = bytes[j]?
  stops : s.srcByte (p + bytes.length) = none
  within : p + bytes.length < s.rlen

theorem SourceStops.head {s : State} {p : Nat} {b : Byte} {bytes : List Byte} (h : SourceStops s p (b :: bytes)) :
    s.srcByte p = some b := by
  simpa using h.holds 0 (by simp)

theorem SourceStops.tail {s : State} {p : Nat} {b : Byte} {bytes : List Byte} (h : SourceStops s p (b :: bytes)) :
    SourceStops s (p + 1) bytes where
  holds j hj := by simpa [Nat.add_right_comm, ← Nat.add_assoc] using h.holds (j + 1) (by simpa using hj)
  stops := by simpa [Nat.add_right_comm, ← Nat.add_assoc] using h.stops
  within := by simpa [Nat.add_right_comm, ← Nat.add_assoc] using h.within

/-- The bits that the loop still needs reach past `bytes`, or end with the last bit of a 0xFF at its end (R211). -/
def ReachesPast (n : Nat) (bytes : List Byte) (used : Nat) : Prop :=
  (dataBits bytes used).length < n ∨ ((dataBits bytes used).length = n ∧ bytes.getLast? = some 0xFF#8)

theorem length_dataBits (bytes : List Byte) (used : Nat) :
    (dataBits bytes used).length = 8 * (destuff bytes).length - used := by
  have hbits : ∀ l : List Byte, (l.flatMap byteBits).length = 8 * l.length := by
    intro l
    simp [List.length_flatMap, byteBits, Nat.mul_comm]
  rw [dataBits, List.length_drop, hbits]

theorem length_destuff_pos (b : Byte) (bytes : List Byte) : 0 < (destuff (b :: bytes)).length := by
  cases bytes with
  | nil => simp [destuff]
  | cons c rest =>
    rw [destuff]
    split <;> simp

theorem destuff_pair_other {b c : Byte} (rest : List Byte) (h : ¬ (b = 0xFF#8 ∧ c = 0x00#8)) :
    destuff (b :: c :: rest) = b :: destuff (c :: rest) := by
  rw [destuff, if_neg h]

/-- After the last bit of a readable byte the loop stops at the byte without a value, or goes on with what de-stuffing
leaves (R211, R212). -/
theorem nextPos_of_sourceStops {s : State} {p : Nat} {b : Byte} {bytes : List Byte}
    (h : SourceStops s p (b :: bytes)) :
    nextPos s b p = .error .unwritten ∨ ∃ p' rest, nextPos s b p = .ok p' ∧ SourceStops s p' rest ∧
      destuff (b :: bytes) = b :: destuff rest ∧
      ((b :: bytes).getLast? = some 0xFF#8 → rest.getLast? = some 0xFF#8) := by
  by_cases hff : b = 0xFF#8
  · subst hff
    cases bytes with
    | nil =>
      left
      have hstop : s.srcByte (p + 1) = none := h.stops
      have hin : p + 1 < s.rlen := h.within
      simp [nextPos, hin, hstop]
    | cons c rest =>
      right
      have hin : p + 1 < s.rlen := (Nat.le_add_right _ _).trans_lt h.tail.within
      by_cases hc : c = 0x00#8
      · subst hc
        refine ⟨p + 2, rest, by simp [nextPos, hin, h.tail.head], h.tail.tail, by simp [destuff], ?_⟩
        cases rest with
        | nil => simp
        | cons d ds => simp [List.getLast?_cons_cons]
      · exact ⟨p + 1, c :: rest, by simp [nextPos, hin, h.tail.head, hc], h.tail,
          destuff_pair_other rest fun hp => hc hp.2, by simp [List.getLast?_cons_cons]⟩
  · right
    refine ⟨p + 1, bytes, nextPos_data s b p fun hp => hff hp.1, h.tail, ?_, ?_⟩
    · cases bytes with
      | nil => rfl
      | cons c rest => exact destuff_pair_other rest fun hp => hff hp.1
    · cases bytes with
      | nil => simp [hff]
      | cons c rest => simp [List.getLast?_cons_cons]

/-- The loop stops at a byte without a value where it reaches one (R50, R211). -/
theorem readLoop_unwritten {s : State} {n p : Nat} {b : BitVec 3} {val : Word} {bytes : List Byte}
    (h : SourceStops s p bytes) (hn : ReachesPast n bytes b.toNat) : readLoop s n p b val = .error .unwritten := by
  have hb := b.isLt
  induction n generalizing p b val bytes with
  | zero =>
    obtain ⟨hlen, hlast⟩ := hn.resolve_left (Nat.not_lt_zero _)
    cases bytes with
    | nil => simp at hlast
    | cons c rest =>
      have := length_destuff_pos c rest
      rw [length_dataBits] at hlen
      omega
  | succ n ih =>
    have hin : ¬ s.rlen ≤ p := by
      have := h.within
      omega
    rw [readLoop, if_neg hin]
    cases bytes with
    | nil =>
      have hstop : s.srcByte p = none := h.stops
      rw [hstop]
    | cons c rest =>
      have hpos := length_destuff_pos c rest
      rw [ReachesPast, length_dataBits] at hn
      rw [h.head]
      simp only
      by_cases hlast : b = 7#3
      · rw [if_pos hlast]
        rcases nextPos_of_sourceStops h with hstop | ⟨p', rest', hnext, hrest, hdestuff, hff⟩
        · rw [hstop]
        · rw [hnext]
          refine ih hrest ?_ (by decide)
          rw [hdestuff, hlast, List.length_cons] at hn
          rw [ReachesPast, length_dataBits]
          simp only [BitVec.toNat_ofNat, Nat.reducePow, Nat.reduceMod, Nat.zero_mod] at hn ⊢
          exact hn.imp (by omega) fun hend => ⟨by omega, hff hend.2⟩
      · rw [if_neg hlast]
        have hsucc := toNat_add_one_of_ne_seven hlast
        refine ih h ?_ (b + 1#3).isLt
        rw [ReachesPast, length_dataBits, hsucc]
        have hne : b.toNat ≠ 7 := fun h7 => hlast (BitVec.eq_of_toNat_eq h7)
        exact hn.imp (by omega) fun hend => ⟨by omega, hend.2⟩

/-- A byte past the readable ones that the premises of O12 leave without a value (R50). -/
theorem srcByte_eq_none {s : State} {p : Nat} (hrin : s.rsrc = .rin → s.mem.read (0xC000 + p) = none)
    (hout : s.rsrc = .out → s.outLen ≤ p ∨ s.mem.read (0xA000 + p) = none) : s.srcByte p = none := by
  unfold State.srcByte
  split
  · rename_i hsrc
    exact ite_eq_right_iff.2 fun _ => hrin hsrc
  · rename_i hsrc
    refine ite_eq_right_iff.2 fun hlt => (hout hsrc).resolve_left ?_
    omega

theorem execRdbits_unwritten {s : State} {n : BitVec 6} (hlow : 1 ≤ n.toNat) (hhigh : n.toNat ≤ 32)
    (h : readLoop s n.toNat s.rp s.rb 0#32 = .error .unwritten) :
    exec (.rdbits n) s = .fault (.unwrittenRead (.rdbits n)) := by
  have hcount : countOk n = true := by simp [countOk, Config.maxBits, hlow, hhigh]
  simp [exec, execRdbits, hcount, h]

/-- Settles O12. -/
theorem unwrittenReadsAreFaults : Obligations.UnwrittenReadsAreFaults := by
  refine ⟨fun s mode k hk h => execFdct_unwritten mode hk h, fun s mode k hk h => execIdct_unwritten mode hk h, ?_⟩
  intro s n bytes hlow hhigh hstarts next bits hnext hrin hout hreach
  have hstops : SourceStops s s.rp bytes := ⟨hstarts.2, srcByte_eq_none hrin hout, hnext⟩
  exact execRdbits_unwritten hlow hhigh (readLoop_unwritten hstops hreach)

end Sys2Proof.Machine
end

section
/-! PROOFS. The host's accesses, target by target: what a register read shows (R20 to R35, R241, R250), what a register
write does, and what reads and writes of the buffers and of the reserved offsets do (R42 to R44, R66 to R68). -/

namespace Sys2Proof.Machine

/-! ## Registers -/

theorem extract_statusWord (s : State) :
    s.statusWord.extractLsb' 4 4 = 0#4 ∧ s.statusWord.extractLsb' 8 4 = s.errCode ∧
      s.statusWord.extractLsb' 12 4 = 0#4 ∧ s.statusWord.extractLsb' 16 8 = s.errOp ∧
      s.statusWord.extractLsb' 24 7 = 0#7 := by
  unfold State.statusWord
  simp (disch := omega) only [BitVec.extractLsb'_append_eq_of_le, BitVec.extractLsb'_append_eq_of_add_le,
    Nat.reduceSub, BitVec.extractLsb'_eq_self, and_self]

theorem getLsbD_statusWord (s : State) :
    s.statusWord.getLsbD 0 = s.busy ∧ s.statusWord.getLsbD 1 = s.done ∧ s.statusWord.getLsbD 2 = s.errFlag ∧
      s.statusWord.getLsbD 3 = s.dropped ∧ s.statusWord.getLsbD 31 = s.irq := by
  unfold State.statusWord bit
  simp only [BitVec.getLsbD_append]
  simp

/-- Settles O48, field by field of the word. -/
theorem statusWordShowsTheFlags : Obligations.StatusWordShowsTheFlags := by
  intro s
  obtain ⟨hbusy, hdone, herr, hdropped, hirq⟩ := getLsbD_statusWord s
  obtain ⟨hlow, hcode, hmid, hop, hhigh⟩ := extract_statusWord s
  refine ⟨s.statusWord, readsAs_of_busRead (by decide) rfl, hbusy, hdone, herr, hdropped, hlow, ?_, hmid, ?_,
    hhigh, hirq⟩
  · rw [hcode, State.errCode]
    rcases s.error with _ | ⟨code, op⟩
    · rfl
    · cases code <;> rfl
  · exact hop

/-- The number of two words side by side. -/
theorem toNat_append_eq {m n : Nat} (x : BitVec m) (y : BitVec n) : (x ++ y).toNat = x.toNat * 2 ^ n + y.toNat := by
  rw [BitVec.toNat_append, ← Nat.shiftLeft_add_eq_or_of_lt y.isLt, Nat.shiftLeft_eq]

theorem toNat_bit (b : Bool) : (bit b).toNat = b.toNat := BitVec.toNat_ofBool b

theorem toNat_ctrlWord (s : State) : s.ctrlWord.toNat = 2 * s.ieDone.toNat + 4 * s.ieErr.toNat := by
  unfold State.ctrlWord
  simp only [toNat_append_eq, toNat_bit, BitVec.toNat_ofNat]
  omega

theorem toNat_wstatWord (s : State) :
    s.wstatWord.toNat = s.nb.toNat + 256 * (s.acc.toNat % 2 ^ s.nb.toNat) := by
  have hacc : s.acc.toNat % 2 ^ s.nb.toNat < 2 ^ 7 := (Nat.mod_le _ _).trans_lt s.acc.isLt
  unfold State.wstatWord
  simp only [toNat_append_eq, BitVec.toNat_ofNat, Nat.mod_eq_of_lt hacc]
  omega

theorem toNat_rposWord (s : State) :
    s.rposWord.toNat = s.rb.toNat + 8 * (s.rp % 2 ^ 14) + 2 ^ 31 * (srcBit s.rsrc).toNat := by
  unfold State.rposWord
  simp only [toNat_append_eq, BitVec.toNat_ofNat]
  omega

theorem leafCount_eq (t : HuffTree) : t.leafCount = t.leaves.length := by
  induction t with
  | leaf sym f => rfl
  | single id f l ih => exact ih
  | node id f l r ihl ihr => simp [HuffTree.leafCount, HuffTree.leaves, ihl, ihr]

theorem treeinfoWord_of_none {s : State} (h : s.tree = none) : s.treeinfoWord = 0#32 := by
  simp only [State.treeinfoWord, h]

theorem toNat_treeinfoWord_of_some {s : State} {t : BuiltTree} (h : s.tree = some t) :
    s.treeinfoWord.toNat = 1 + 2 * t.bank.toNat + 256 * (t.root.leaves.length % 512) := by
  simp only [State.treeinfoWord, h, toNat_append_eq, BitVec.toNat_ofNat, leafCount_eq]
  omega

/-- Settles O49, register by register. -/
theorem registerReadsShowTheState : Obligations.RegisterReadsShowTheState := by
  intro s
  refine ⟨⟨s.ctrlWord, readsAs_of_busRead (by decide) rfl, toNat_ctrlWord s⟩, readsAs_of_busRead (by decide) rfl,
    readsAs_of_busRead (by decide) rfl, readsAs_of_busRead (by decide) rfl, readsAs_of_busRead (by decide) rfl,
    ⟨s.wstatWord, readsAs_of_busRead (by decide) rfl, toNat_wstatWord s⟩, readsAs_of_busRead (by decide) rfl,
    readsAs_of_busRead (by decide) rfl, readsAs_of_busRead (by decide) rfl,
    ⟨s.rposWord, readsAs_of_busRead (by decide) rfl, ?_⟩, readsAs_of_busRead (by decide) rfl,
    ⟨s.treeinfoWord, readsAs_of_busRead (by decide) rfl, ?_⟩⟩
  · rw [toNat_rposWord]
    cases s.rsrc <;> rfl
  · cases htree : s.tree with
    | none => rw [treeinfoWord_of_none htree]; rfl
    | some t => exact toNat_treeinfoWord_of_some htree

/-- Settles O56, register by register. -/
theorem registerWritesTakeTheirValues : Obligations.RegisterWritesTakeTheirValues := by
  intro s v
  refine ⟨fun hv => hostEvent_write_of_busWrite (by decide) (writeCtrl_enables v s hv),
    ⟨_, _, _, hostEvent_write_of_busWrite (t := writeStatus v s) (by decide) rfl, ?_, rfl, ?_⟩, fun herr => ?_,
    hostEvent_write_of_busWrite (by decide) rfl, ?_⟩
  · cases v.getLsbD 1 <;> simp
  · cases v.getLsbD 3 <;> simp
  · exact hostEvent_write_of_busWrite (by decide) (acceptCommand_pending v s (by simp [State.errFlag, herr]))
  · exact hostEvent_write_of_busWrite (by decide) (congrArg (fun n => { s with rinLen := n }) Nat.min_def)

end Sys2Proof.Machine
end

section
/-! PROOFS. Reads and writes of the buffers and of the reserved offsets (R42 to R44, R62, R66 to R68). Every target but
`reserved` stands in one region of the map, and no two regions overlap. -/

namespace Sys2Proof.Machine

/-! ## Targets -/

theorem memoryMap_targets : ∀ r ∈ memoryMap, r.target ≠ .reserved ∧ ∀ q ∈ memoryMap, r.target = q.target → r = q := by
  decide

/-- A target stands at the offsets of its region and at no other (R66). -/
theorem targetOf_eq_iff {r : Region} {off : Nat} (hr : r ∈ memoryMap) : targetOf off = r.target ↔ r.has off := by
  obtain ⟨hreserved, hunique⟩ := memoryMap_targets r hr
  refine ⟨fun h => ?_, targetOf_eq hr⟩
  obtain ⟨q, hq, hoff, htarget⟩ := exists_region_of_targetOf (off := off) (h ▸ hreserved)
  rw [hunique q hq (h.symm.trans htarget)]
  exact hoff

theorem targetOf_eq_lut_iff {a : Nat} : targetOf a = .lut ↔ 0x4000 ≤ a ∧ a < 0x7000 :=
  targetOf_eq_iff (r := ⟨Config.lutBase, 12288, .lut⟩) (by decide)

theorem targetOf_eq_raw_iff {a : Nat} : targetOf a = .raw ↔ 0x8000 ≤ a ∧ a < 0x9000 :=
  targetOf_eq_iff (r := ⟨Config.rawBase, 4096, .raw⟩) (by decide)

theorem targetOf_eq_out_iff {a : Nat} : targetOf a = .out ↔ 0xA000 ≤ a ∧ a < 0xC000 :=
  targetOf_eq_iff (r := ⟨Config.outBase, 8192, .out⟩) (by decide)

/-- Between two regions every offset is reserved (R66). -/
theorem targetOf_of_gap {low high off : Nat} (hgap : ∀ r ∈ memoryMap, r.base + r.size ≤ low ∨ high ≤ r.base)
    (hlow : low ≤ off) (hhigh : off < high) : targetOf off = .reserved :=
  targetOf_reserved fun r hr hoff => by
    obtain ⟨hbase, hend⟩ := hoff
    have := hgap r hr
    omega

theorem targetOf_reserved_of_bounds {off : Nat} (hoff : off < 0x10000)
    (h : (0x03C ≤ off ∧ off < 0x200) ∨ (0x500 ≤ off ∧ off < 0x600) ∨ (0x800 ≤ off ∧ off < 0x1000) ∨
      (0x1C00 ≤ off ∧ off < 0x4000) ∨ (0x7000 ≤ off ∧ off < 0x8000) ∨ (0x9000 ≤ off ∧ off < 0xA000) ∨ 0xE000 ≤ off) :
    targetOf off = .reserved := by
  rcases h with h | h | h | h | h | h | h
  · exact targetOf_of_gap (by decide) h.1 h.2
  · exact targetOf_of_gap (by decide) h.1 h.2
  · exact targetOf_of_gap (by decide) h.1 h.2
  · exact targetOf_of_gap (by decide) h.1 h.2
  · exact targetOf_of_gap (by decide) h.1 h.2
  · exact targetOf_of_gap (by decide) h.1 h.2
  · exact targetOf_of_gap (by decide) h hoff

/-! ## Reads -/

theorem busRead_of_reserved {s : State} {off : Nat} (h : targetOf off = .reserved) : s.busRead off = 0#32 := by
  simp only [State.busRead, h]

theorem busRead_of_lut {s : State} {off : Nat} (h : targetOf off = .lut) :
    s.busRead off = s.bufferWord off &&& lutMask off := by
  simp only [State.busRead, h]

theorem busRead_of_bufferTarget {s : State} {off : Nat}
    (h : targetOf off ∈ [.din, .qin, .dout, .freq, .rin, .raw, .out]) : s.busRead off = s.bufferWord off := by
  simp only [List.mem_cons, List.not_mem_nil, or_false] at h
  rcases h with h | h | h | h | h | h | h <;> simp only [State.busRead, h]

/-- In the buffers but LUT a read returns the word as it stands there (R62). -/
theorem busRead_of_buffer {s : State} {off : Nat}
    (h : (0x200 ≤ off ∧ off < 0x500) ∨ (0x600 ≤ off ∧ off < 0x800) ∨ (0x1000 ≤ off ∧ off < 0x1C00) ∨
      (0xC000 ≤ off ∧ off < 0xE000) ∨ (0x8000 ≤ off ∧ off < 0x9000) ∨ (0xA000 ≤ off ∧ off < 0xC000)) :
    s.busRead off = s.bufferWord off := by
  have hin (r : Region) (hr : r ∈ memoryMap) (hoff : r.has off)
      (htarget : r.target ∈ [.din, .qin, .dout, .freq, .rin, .raw, .out]) : s.busRead off = s.bufferWord off :=
    busRead_of_bufferTarget (targetOf_eq hr hoff ▸ htarget)
  rcases h with h | h | h | h | h | h
  · by_cases hdin : off < 0x400
    · exact hin ⟨Config.dinBase, 512, .din⟩ (by decide) ⟨h.1, hdin⟩ (by decide)
    · exact hin ⟨Config.qinBase, 256, .qin⟩ (by decide) ⟨Nat.le_of_not_lt hdin, h.2⟩ (by decide)
  · exact hin ⟨Config.doutBase, 512, .dout⟩ (by decide) h (by decide)
  · exact hin ⟨Config.freqBase, 3072, .freq⟩ (by decide) h (by decide)
  · exact hin ⟨Config.rinBase, 8192, .rin⟩ (by decide) h (by decide)
  · exact hin ⟨Config.rawBase, 4096, .raw⟩ (by decide) h (by decide)
  · exact hin ⟨Config.outBase, 8192, .out⟩ (by decide) h (by decide)

theorem extract_wordOfBytes (b0 b1 b2 b3 : Byte) :
    (wordOfBytes b0 b1 b2 b3).extractLsb' 0 8 = b0 ∧ (wordOfBytes b0 b1 b2 b3).extractLsb' 8 8 = b1 ∧
      (wordOfBytes b0 b1 b2 b3).extractLsb' 16 8 = b2 ∧ (wordOfBytes b0 b1 b2 b3).extractLsb' 24 8 = b3 := by
  unfold wordOfBytes
  simp (disch := omega) only [BitVec.extractLsb'_append_eq_of_le, BitVec.extractLsb'_append_eq_of_add_le,
    Nat.reduceSub, BitVec.extractLsb'_eq_self, and_self]

/-- The byte at offset `a + j` is byte `j` of the word at `a` (R62). -/
theorem extract_bufferWord (s : State) (a : Nat) {j : Nat} (hj : j < 4) :
    (s.bufferWord a).extractLsb' (8 * j) 8 = s.visibleByte (a + j) := by
  obtain ⟨h0, h1, h2, h3⟩ := extract_wordOfBytes (s.visibleByte a) (s.visibleByte (a + 1)) (s.visibleByte (a + 2))
    (s.visibleByte (a + 3))
  match j, hj with
  | 0, _ => exact h0
  | 1, _ => exact h1
  | 2, _ => exact h2
  | 3, _ => exact h3

/-- A byte with a value is visible: in RAW below RAWLEN, in OUT below OUTLEN, and elsewhere always (R43, R44). -/
theorem visibleByte_eq {s : State} {a : Nat} {b : Byte} (hread : s.mem.read a = some b)
    (hraw : 0x8000 ≤ a → a < 0x9000 → a < 0x8000 + s.rawLen)
    (hout : 0xA000 ≤ a → a < 0xC000 → a < 0xA000 + s.outLen) : s.visibleByte a = b := by
  unfold State.visibleByte
  rw [hread]
  split
  · rename_i htarget
    obtain ⟨hlow, hhigh⟩ := targetOf_eq_raw_iff.1 htarget
    have hlen := hraw hlow hhigh
    exact if_pos (by rw [Config.rawBase]; omega)
  · rename_i htarget
    obtain ⟨hlow, hhigh⟩ := targetOf_eq_out_iff.1 htarget
    have hlen := hout hlow hhigh
    exact if_pos (by rw [Config.outBase]; omega)
  · rfl

/-! ## LUT words -/

/-- Every byte of LUT has a value (R51), and a read finds it. -/
theorem read_lut_eq_visibleByte (s : State) {a : Nat} (hlow : 0x4000 ≤ a) (hhigh : a < 0x7000) :
    s.mem.read a = some (s.visibleByte a) := by
  have hvalue : ∃ b, s.mem.read a = some b := by
    unfold Memory.read
    rw [Memory.blank_of_cleared (.inr ⟨hlow, hhigh⟩)]
    cases s.mem.lookup a with
    | none => exact ⟨0#8, rfl⟩
    | some b => exact ⟨b, rfl⟩
  obtain ⟨b, hb⟩ := hvalue
  rw [visibleByte_eq hb (fun _ _ => by omega) (fun _ _ => by omega)]
  exact hb

theorem readWord_lut_eq_bufferWord (s : State) {a : Nat} (hlow : 0x4000 ≤ a) (hhigh : a + 4 ≤ 0x7000) :
    s.mem.readWord a = some (s.bufferWord a) := by
  unfold Memory.readWord State.bufferWord
  rw [read_lut_eq_visibleByte s hlow (by omega), read_lut_eq_visibleByte s (by omega) (by omega),
    read_lut_eq_visibleByte s (by omega) (by omega), read_lut_eq_visibleByte s (by omega) (by omega)]

/-- An entry as the three words the host finds (R42). -/
theorem lutEntry_eq_bufferWords (s : State) {bank : BitVec 2} {sym : Nat} (hbank : bankOk bank = true)
    (hsym : sym < 256) :
    s.mem.lutEntry bank sym =
      ⟨s.bufferWord (lutBank bank + 16 * sym + 4) ++ s.bufferWord (lutBank bank + 16 * sym),
        (s.bufferWord (lutBank bank + 16 * sym + 8)).extractLsb' 0 7,
        (s.bufferWord (lutBank bank + 16 * sym + 8)).getLsbD 31⟩ := by
  obtain ⟨hlow, hhigh⟩ := lutBank_bounds hbank
  unfold Memory.lutEntry
  simp only
  rw [readWord_lut_eq_bufferWord s (by omega) (by omega), readWord_lut_eq_bufferWord s (by omega) (by omega),
    readWord_lut_eq_bufferWord s (by omega) (by omega)]
  rfl

/-- The mask of a LENV word keeps VALID and LEN (R42). -/
theorem and_lenvMask (w : Word) :
    w &&& 0x8000007F#32 = w.extractLsb' 31 1 ++ 0#24 ++ w.extractLsb' 0 7 := by
  have hparts : w = w.extractLsb' 31 1 ++ w.extractLsb' 7 24 ++ w.extractLsb' 0 7 := by
    rw [BitVec.extractLsb'_append_extractLsb'_eq_extractLsb' (show 31 = 7 + 24 from rfl),
      BitVec.extractLsb'_append_extractLsb'_eq_extractLsb' (show 7 = 0 + 7 from rfl)]
    exact BitVec.extractLsb'_eq_self.symm
  calc w &&& 0x8000007F#32
      = (w.extractLsb' 31 1 ++ w.extractLsb' 7 24 ++ w.extractLsb' 0 7) &&&
          (BitVec.allOnes 1 ++ 0#24 ++ BitVec.allOnes 7) := congrArg (· &&& 0x8000007F#32) hparts
    _ = w.extractLsb' 31 1 ++ 0#24 ++ w.extractLsb' 0 7 := by
        rw [BitVec.and_append, BitVec.and_append, BitVec.and_allOnes, BitVec.and_allOnes, BitVec.and_zero]

theorem toNat_and_lenvMask (w : Word) :
    (w &&& 0x8000007F#32).toNat = (w.extractLsb' 0 7).toNat + (if w.getLsbD 31 then 2 ^ 31 else 0) := by
  have hbit : (w.extractLsb' 31 1).toNat = (w.getLsbD 31).toNat := by
    rw [BitVec.extractLsb'_toNat, Nat.shiftRight_eq_div_pow, BitVec.getLsbD, Nat.toNat_testBit, pow_one]
  rw [and_lenvMask, toNat_append_eq, toNat_append_eq, hbit]
  cases w.getLsbD 31 <;> simp; omega

/-- A read of a LUT word returns the word that stands there with its reserved bits 0 (R42, R67). -/
theorem readsAs_lut {s : State} {a : Nat} {v : Word} (hlow : 0x4000 ≤ a) (hhigh : a < 0x7000) (halign : a % 4 = 0)
    (h : s.bufferWord a &&& lutMask a = v) : s.readsAs (BitVec.ofNat 16 a) v := by
  have hoff : (BitVec.ofNat 16 a).toNat = a := Nat.mod_eq_of_lt (by omega)
  refine readsAs_of_busRead (by rw [hoff]; exact halign) ?_
  rw [hoff, busRead_of_lut (targetOf_eq_lut_iff.2 ⟨hlow, hhigh⟩), h]

/-- The four words of an entry as a read returns them (R42). -/
theorem readsAs_lutEntry (s : State) {bank : BitVec 2} {sym : Nat} (hbank : bank ≠ 3#2) (hsym : sym < 256) :
    let a := 0x4000 + 0x1000 * bank.toNat + 16 * sym
    let e := s.mem.lutEntry bank sym
    s.readsAs (BitVec.ofNat 16 a) (e.code.extractLsb' 0 32) ∧
    s.readsAs (BitVec.ofNat 16 (a + 4)) (e.code.extractLsb' 32 32) ∧
    (∃ v, s.readsAs (BitVec.ofNat 16 (a + 8)) v ∧ v.toNat = e.len.toNat + (if e.valid then 2 ^ 31 else 0)) ∧
    s.readsAs (BitVec.ofNat 16 (a + 12)) 0#32 := by
  intro a e
  have hok : bankOk bank = true := by
    revert bank
    decide
  have he := lutEntry_eq_bufferWords s hok hsym
  have hbounds := lutBank_bounds hok
  have hlow : 0x4000 ≤ a := by omega
  have hhigh : a + 16 ≤ 0x7000 := by
    simp only [lutBank, Config.lutBase] at hbounds
    omega
  have halign : a % 16 = 0 := by omega
  change e = ⟨s.bufferWord (a + 4) ++ s.bufferWord a, (s.bufferWord (a + 8)).extractLsb' 0 7,
    (s.bufferWord (a + 8)).getLsbD 31⟩ at he
  clear_value a e
  subst he
  refine ⟨readsAs_lut hlow (by omega) (by omega) ?_, readsAs_lut (by omega) (by omega) (by omega) ?_,
    ⟨_, readsAs_lut (by omega) (by omega) (by omega) rfl, ?_⟩, readsAs_lut (by omega) (by omega) (by omega) ?_⟩
  · rw [lutMask, if_pos (by omega), BitVec.extractLsb'_append_eq_right]
    exact BitVec.and_allOnes
  · rw [lutMask, if_pos (by omega), BitVec.extractLsb'_append_eq_left]
    exact BitVec.and_allOnes
  · rw [lutMask, if_neg (by omega), if_pos (by omega), toNat_and_lenvMask]
  · rw [lutMask, if_neg (by omega), if_neg (by omega), BitVec.and_zero]

/-! ## Writes -/

/-- A write to a target that is not one of the nine that take a value is ignored (R66, R67). -/
theorem busWrite_ignored {s : State} {off : Nat} {v : Word}
    (h : targetOf off ∉ [.ctrl, .status, .cmd, .opa, .rinlen, .din, .qin, .freq, .rin]) : s.busWrite off v = s := by
  unfold State.busWrite
  split <;> simp_all

theorem busWrite_ignored_of_bounds {s : State} {off : Nat} {v : Word}
    (h : off < 0x008 ∨ (0x018 ≤ off ∧ off < 0x02C) ∨ (0x030 ≤ off ∧ off < 0x200) ∨ (0x500 ≤ off ∧ off < 0x1000) ∨
      (0x1C00 ≤ off ∧ off < 0xC000) ∨ 0xE000 ≤ off) : s.busWrite off v = s := by
  refine busWrite_ignored fun htarget => ?_
  obtain ⟨r, hr, ⟨hlow, hhigh⟩, heq⟩ := exists_region_of_targetOf (off := off) fun hres => by
    rw [hres] at htarget
    exact absurd htarget (by decide)
  have hregion : ∀ q ∈ memoryMap, q.target ∈ [.ctrl, .status, .cmd, .opa, .rinlen, .din, .qin, .freq, .rin] →
      (0x008 ≤ q.base ∧ q.base + q.size ≤ 0x018) ∨ (0x02C ≤ q.base ∧ q.base + q.size ≤ 0x030) ∨
        (0x200 ≤ q.base ∧ q.base + q.size ≤ 0x500) ∨ (0x1000 ≤ q.base ∧ q.base + q.size ≤ 0x1C00) ∨
        (0xC000 ≤ q.base ∧ q.base + q.size ≤ 0xE000) := by decide
  have := hregion r hr (heq ▸ htarget)
  omega

/-! ## The map -/

/-- Settles O54: a read by its target's range, LUT word by word, and a write by the regions that take a value. -/
theorem legalAccessesFollowTheMap : Obligations.LegalAccessesFollowTheMap := by
  refine ⟨fun s off halign => ⟨s.busRead off.toNat, readsAs_of_busRead halign rfl, fun hres => ?_, fun hid => ?_,
    fun hversion => ?_, fun j hj b hread hbuffer => ?_⟩, fun s bank sym hbank hsym => ?_, fun s off v halign hoff => ?_⟩
  · exact busRead_of_reserved (targetOf_reserved_of_bounds off.isLt hres)
  · rw [hid]
    rfl
  · rw [hversion]
    rfl
  · rw [busRead_of_buffer (by omega), extract_bufferWord s _ hj]
    exact visibleByte_eq hread (by omega) (by omega)
  · exact readsAs_lutEntry s hbank hsym
  · exact hostEvent_write_of_busWrite halign (busWrite_ignored_of_bounds hoff)

end Sys2Proof.Machine
end

section
/-! PROOFS. When the host's accesses wait and who moves (R65, R231, R238, R254, R265), malformed accesses (R61), and
words written to the four buffers that a host write stores to (R62, R63, R71). -/

namespace Sys2Proof.Machine

/-! ## Waiting -/

/-- What does not wait: an access to CTRL or STATUS, and a read of ID or VERSION (R65, R231). -/
theorem Target.held_eq_false_iff (write : Bool) (t : Target) :
    t.held write = false ↔ t = .ctrl ∨ t = .status ∨ write = false ∧ (t = .id ∨ t = .version) := by
  cases t <;> simp [Target.held]

theorem targetOf_eq_id_iff {off : Nat} : targetOf off = .id ↔ 0x000 ≤ off ∧ off < 0x004 :=
  targetOf_eq_iff (r := ⟨0x0000, 4, .id⟩) (by decide)

theorem targetOf_eq_version_iff {off : Nat} : targetOf off = .version ↔ 0x004 ≤ off ∧ off < 0x008 :=
  targetOf_eq_iff (r := ⟨0x0004, 4, .version⟩) (by decide)

theorem targetOf_eq_ctrl_iff {off : Nat} : targetOf off = .ctrl ↔ 0x008 ≤ off ∧ off < 0x00C :=
  targetOf_eq_iff (r := ⟨0x0008, 4, .ctrl⟩) (by decide)

theorem targetOf_eq_status_iff {off : Nat} : targetOf off = .status ↔ 0x00C ≤ off ∧ off < 0x010 :=
  targetOf_eq_iff (r := ⟨0x000C, 4, .status⟩) (by decide)

/-- The accesses that do not wait, by their offsets: below 0x010, and a write not to ID or VERSION (R65, R231). -/
theorem held_targetOf_eq_false_iff (write : Bool) (off : Nat) :
    (targetOf off).held write = false ↔ (write = true → 0x008 ≤ off) ∧ off < 0x010 := by
  rw [Target.held_eq_false_iff, targetOf_eq_ctrl_iff, targetOf_eq_status_iff, targetOf_eq_id_iff,
    targetOf_eq_version_iff]
  cases write
  · simp only [true_and, reduceCtorEq, false_implies]
    omega
  · simp only [reduceCtorEq, false_and, or_false, true_implies]
    omega

/-- Settles O53, by the four targets whose accesses do not wait and the ranges where they stand. -/
theorem heldAccessesAreAllButTheControlRegisters : Obligations.HeldAccessesAreAllButTheControlRegisters :=
  ⟨fun _ off _ => ⟨(held_targetOf_eq_false_iff false off.toNat).trans (by simp),
    (held_targetOf_eq_false_iff true off.toNat).trans (by simp)⟩, rfl⟩

/-! ## Who moves -/

/-- Settles O7, one step lemma for each case of who moves. -/
theorem hostEventsAreTakenInOrder : Obligations.HostEventsAreTakenInOrder :=
  ⟨fun s e rest => step_host s e rest, fun s w e rest turns => step_host_turn s w e rest turns,
    fun s w e rest hpending hhost hheld => step_engine s w hpending (.inr (.inl ⟨e, rest, hhost, hheld⟩)), step_idle⟩

/-! ## Malformed accesses -/

theorem legalAccess_eq_false_iff {width : Width} {off : BitVec 16} :
    legalAccess width off = false ↔ width ≠ .w32 ∨ off.toNat % 4 ≠ 0 := by
  simp only [legalAccess, Bool.and_eq_false_iff, decide_eq_false_iff_not]

/-- Settles O52: the bus looks at the form of the access before anything else. -/
theorem malformedAccessesAreBusErrors : Obligations.MalformedAccessesAreBusErrors := by
  intro s width off v hform
  have hlegal := legalAccess_eq_false_iff.2 hform
  exact ⟨by simp [hostEvent, hlegal], by simp [hostEvent, hlegal]⟩

/-! ## Written words -/

theorem Memory.read_writeWord (m : Memory) (a : Nat) (w : Word) {j : Nat} (hj : j < 4) :
    (m.writeWord a w).read (a + j) = some (w.extractLsb' (8 * j) 8) := by
  rw [Memory.writeWord, Memory.read_splice, length_bytesOfWord, if_pos (by omega), Nat.add_sub_cancel_left]
  match j, hj with
  | 0, _ => rfl
  | 1, _ => rfl
  | 2, _ => rfl
  | 3, _ => rfl

theorem Memory.read_writeWord_outside (m : Memory) (w : Word) {a base : Nat} (h : ¬ (base ≤ a ∧ a < base + 4)) :
    (m.writeWord base w).read a = m.read a :=
  Memory.read_splice_outside m base (bytesOfWord w) a h

theorem busWrite_of_writableTarget {s : State} {off : Nat} {v : Word} (h : targetOf off ∈ [.din, .qin, .freq, .rin]) :
    s.busWrite off v = { s with mem := s.mem.writeWord off v } := by
  simp only [List.mem_cons, List.not_mem_nil, or_false] at h
  rcases h with h | h | h | h <;> simp only [State.busWrite, h]

/-- A write to DIN, QIN, FREQ or RIN stores the word (R38, R39, R41, R45). -/
theorem busWrite_of_bounds {s : State} {off : Nat} {v : Word}
    (h : (0x200 ≤ off ∧ off < 0x500) ∨ (0x1000 ≤ off ∧ off < 0x1C00) ∨ (0xC000 ≤ off ∧ off < 0xE000)) :
    s.busWrite off v = { s with mem := s.mem.writeWord off v } := by
  have hin (r : Region) (hr : r ∈ memoryMap) (hoff : r.has off) (htarget : r.target ∈ [.din, .qin, .freq, .rin]) :
      s.busWrite off v = { s with mem := s.mem.writeWord off v } :=
    busWrite_of_writableTarget (targetOf_eq hr hoff ▸ htarget)
  rcases h with h | h | h
  · by_cases hdin : off < 0x400
    · exact hin ⟨Config.dinBase, 512, .din⟩ (by decide) ⟨h.1, hdin⟩ (by decide)
    · exact hin ⟨Config.qinBase, 256, .qin⟩ (by decide) ⟨Nat.le_of_not_lt hdin, h.2⟩ (by decide)
  · exact hin ⟨Config.freqBase, 3072, .freq⟩ (by decide) h (by decide)
  · exact hin ⟨Config.rinBase, 8192, .rin⟩ (by decide) h (by decide)

/-- A word whose four bytes are visible is the word a read finds (R62). -/
theorem bufferWord_eq_of_visibleByte {s : State} {a : Nat} {v : Word}
    (h : ∀ j < 4, s.visibleByte (a + j) = v.extractLsb' (8 * j) 8) : s.bufferWord a = v := by
  have h0 := h 0 (by omega)
  rw [Nat.add_zero] at h0
  rw [State.bufferWord, h0, h 1 (by omega), h 2 (by omega), h 3 (by omega)]
  exact wordOfBytes_bytes v

/-- Settles O55, by the four bytes that the write stores. -/
theorem bufferWordsReadBack : Obligations.BufferWordsReadBack := by
  intro s off v halign hbounds
  have hbyte {j : Nat} (hj : j < 4) := Memory.read_writeWord s.mem off.toNat v hj
  refine ⟨s.mem.writeWord off.toNat v, hostEvent_write_of_busWrite halign (busWrite_of_bounds hbounds),
    fun t ht => readsAs_of_busRead halign ?_, fun j => hbyte, fun a => Memory.read_writeWord_outside s.mem v⟩
  rw [busRead_of_buffer (by omega)]
  exact bufferWord_eq_of_visibleByte fun j hj => visibleByte_eq (ht ▸ hbyte hj) (by omega) (by omega)

end Sys2Proof.Machine
end

section
/-! PROOFS. Decoding and encoding (R90 to R101). The word of a command is its OP and its operand fields; a row's pattern
is the OP and the complement of its mask is the place of the fields. So a word matches a row exactly where it is the
encoding of the command that the row reads from it, and the words that match some row are the encodings of the terms of
`Instr`. What the engine does with a word that is no command, and with a bad count, follows. -/

namespace Sys2Proof

/-! ## The rows of the opcode table (R93) -/

theorem Row.selects_iff {r : Row} {w : Word} : r.selects w = true ↔ w &&& r.mask = r.pattern := beq_iff_eq

theorem opField_mask : ∀ r ∈ opcodeTable, opField r.mask = 0xFF#8 := by decide

theorem row_eq_of_opField_eq :
    ∀ r ∈ opcodeTable, ∀ r' ∈ opcodeTable, opField r.pattern = opField r'.pattern → r = r' := by decide

/-- The mask of every row covers OP, so a word that matches a row has the row's OP. -/
theorem opField_eq_of_match {r : Row} {w : Word} (hr : r ∈ opcodeTable) (h : w &&& r.mask = r.pattern) :
    opField w = opField r.pattern := by
  have hand : opField (w &&& r.mask) = opField w &&& opField r.mask := BitVec.extractLsb'_and
  rw [← h, hand, opField_mask r hr]
  exact BitVec.and_allOnes.symm

/-- Settles O2: no two rows have the same OP. -/
theorem opcodeRowsDoNotOverlap : Obligations.OpcodeRowsDoNotOverlap := fun _ r₁ r₂ hr₁ hr₂ h₁ h₂ =>
  row_eq_of_opField_eq r₁ hr₁ r₂ hr₂ ((opField_eq_of_match hr₁ h₁).symm.trans (opField_eq_of_match hr₂ h₂))

/-! ## Fields at their places (R90, R92) -/

/-- A field taken out of a word and put back at its place is the word without the other bits. -/
theorem setWidth_extractLsb'_shiftLeft (w : Word) (start len : Nat) :
    (w.extractLsb' start len).setWidth 32 <<< start = w &&& (BitVec.allOnes len).setWidth 32 <<< start := by
  ext k hk
  by_cases hlow : k < start
  · simp [hlow]
  · simp [hlow, Nat.add_sub_of_le (Nat.le_of_not_lt hlow), BitVec.getLsbD_eq_getElem hk, Bool.and_comm]

theorem modeBits_modeField (w : Word) : modeBits (modeField w) = w &&& 0x00100000#32 := by
  have hbit : ∀ x : BitVec 1, modeBits (if x = 1#1 then .fast else .ref) = x.setWidth 32 <<< 20 := by decide
  exact (hbit _).trans (setWidth_extractLsb'_shiftLeft w 20 1)

theorem srcBits_srcField (w : Word) : srcBits (srcField w) = w &&& 0x00200000#32 := by
  have hbit : ∀ x : BitVec 1, srcBits (if x = 1#1 then .out else .rin) = x.setWidth 32 <<< 21 := by decide
  exact (hbit _).trans (setWidth_extractLsb'_shiftLeft w 21 1)

theorem bankBits_bankField (w : Word) : bankBits (bankField w) = w &&& 0x00030000#32 :=
  setWidth_extractLsb'_shiftLeft w 16 2

theorem cntBits_cntField (w : Word) : cntBits (cntField w) = w &&& 0x00003F00#32 :=
  setWidth_extractLsb'_shiftLeft w 8 6

/-- A field above OP reads back. -/
theorem extractLsb'_or_shiftLeft {len start : Nat} (op : Byte) (field : BitVec len) (hlow : 8 ≤ start)
    (hhigh : start + len ≤ 32) :
    (op.setWidth 32 ||| field.setWidth 32 <<< start).extractLsb' start len = field := by
  ext k hk
  have hin : start + k < 32 := by omega
  have hop : op.getLsbD (start + k) = false := BitVec.getLsbD_of_ge _ _ (by omega)
  simp [hin, hop, BitVec.getLsbD_eq_getElem hk]

/-! ## Matching is encoding -/

/-- The operand fields of the command that a row reads from a word are the word's bits outside the row's mask. -/
theorem fieldBits_instr {r : Row} (hr : r ∈ opcodeTable) (w : Word) :
    (r.id.instr w).fieldBits = w &&& ~~~r.mask := by
  have hnone : 0#32 = w &&& ~~~0xFFFFFFFF#32 := BitVec.and_zero.symm
  simp only [opcodeTable, List.mem_cons, List.not_mem_nil, or_false] at hr
  rcases hr with rfl | rfl | rfl | rfl | rfl | rfl | rfl | rfl | rfl | rfl | rfl | rfl | rfl
  exacts [hnone, modeBits_modeField w, modeBits_modeField w, bankBits_bankField w, bankBits_bankField w, hnone, hnone,
    cntBits_cntField w, hnone, hnone, hnone, srcBits_srcField w, cntBits_cntField w]

theorem op_instr {r : Row} (hr : r ∈ opcodeTable) (w : Word) : (r.id.instr w).op.setWidth 32 = r.pattern := by
  simp only [opcodeTable, List.mem_cons, List.not_mem_nil, or_false] at hr
  rcases hr with rfl | rfl | rfl | rfl | rfl | rfl | rfl | rfl | rfl | rfl | rfl | rfl | rfl <;> rfl

theorem or_and_not_eq_iff {n : Nat} {w pattern mask : BitVec n} (hp : pattern &&& mask = pattern) :
    pattern ||| (w &&& ~~~mask) = w ↔ w &&& mask = pattern := by
  constructor
  · intro h
    rw [← h, BitVec.and_or_distrib_right, hp, BitVec.and_assoc, BitVec.not_and_self]
    simp
  · rintro rfl
    rw [← BitVec.and_or_distrib_left, BitVec.or_not_self, BitVec.and_allOnes]

theorem pattern_and_mask : ∀ r ∈ opcodeTable, r.pattern &&& r.mask = r.pattern := by decide

/-- A word matches a row exactly where it is the encoding of the command that the row reads from it. -/
theorem encode_instr_eq_iff {r : Row} (hr : r ∈ opcodeTable) (w : Word) :
    encode (r.id.instr w) = w ↔ w &&& r.mask = r.pattern := by
  rw [encode, op_instr hr, fieldBits_instr hr]
  exact or_and_not_eq_iff (pattern_and_mask r hr)

theorem exists_rowId_instr_encode : (i : Instr) → ∃ id : RowId, id.instr (encode i) = i
  | .nop => ⟨.nop, rfl⟩
  | .fdct .ref => ⟨.fdct, rfl⟩
  | .fdct .fast => ⟨.fdct, rfl⟩
  | .idct .ref => ⟨.idct, rfl⟩
  | .idct .fast => ⟨.idct, rfl⟩
  | .hclear bank => ⟨.hclear, congrArg Instr.hclear (extractLsb'_or_shiftLeft Op.hclear bank (by decide) (by decide))⟩
  | .hbuild bank => ⟨.hbuild, congrArg Instr.hbuild (extractLsb'_or_shiftLeft Op.hbuild bank (by decide) (by decide))⟩
  | .htable => ⟨.htable, rfl⟩
  | .catmag => ⟨.catmag, rfl⟩
  | .wrbits cnt => ⟨.wrbits, congrArg Instr.wrbits (extractLsb'_or_shiftLeft Op.wrbits cnt (by decide) (by decide))⟩
  | .wflush => ⟨.wflush, rfl⟩
  | .wfinal => ⟨.wfinal, rfl⟩
  | .wreset => ⟨.wreset, rfl⟩
  | .rreset .rin => ⟨.rreset, rfl⟩
  | .rreset .out => ⟨.rreset, rfl⟩
  | .rdbits cnt => ⟨.rdbits, congrArg Instr.rdbits (extractLsb'_or_shiftLeft Op.rdbits cnt (by decide) (by decide))⟩

theorem exists_row_of_id (id : RowId) : ∃ r ∈ opcodeTable, r.id = id := by cases id <;> decide

/-- The encoding of every term matches a row, which reads the term back. -/
theorem exists_row_of_encode (i : Instr) :
    ∃ r ∈ opcodeTable, encode i &&& r.mask = r.pattern ∧ r.id.instr (encode i) = i := by
  obtain ⟨id, hi⟩ := exists_rowId_instr_encode i
  obtain ⟨r, hr, rfl⟩ := exists_row_of_id id
  exact ⟨r, hr, (encode_instr_eq_iff hr _).1 (congrArg encode hi), hi⟩

/-! ## Decoding (R93 to R97) -/

theorem decode_of_match {r : Row} {w : Word} (hr : r ∈ opcodeTable) (h : w &&& r.mask = r.pattern) :
    decode w = if (r.id.instr w).wellFormed then .ok (r.id.instr w) else .error .reservedBank := by
  have hfind : opcodeTable.find? (·.selects w) = some r := by
    cases hfind : opcodeTable.find? (·.selects w) with
    | none => exact absurd (Row.selects_iff.2 h) (List.find?_eq_none.1 hfind r hr)
    | some r' =>
      rw [opcodeRowsDoNotOverlap w r' r (List.mem_of_find?_eq_some hfind) hr
        (Row.selects_iff.1 (List.find?_some (p := fun r : Row => r.selects w) hfind)) h]
  simp only [decode, hfind]

theorem decode_of_no_match {w : Word} (h : ∀ r ∈ opcodeTable, w &&& r.mask ≠ r.pattern) :
    decode w = if opAssigned w then .error .unusedBitSet else .error .unassignedOp := by
  have hfind : opcodeTable.find? (·.selects w) = none :=
    List.find?_eq_none.2 fun r hr hselects => h r hr (Row.selects_iff.1 hselects)
  simp only [decode, hfind]

theorem decode_encode (i : Instr) :
    decode (encode i) = if i.wellFormed then .ok i else .error .reservedBank := by
  obtain ⟨r, hr, hmatch, hi⟩ := exists_row_of_encode i
  rw [decode_of_match hr hmatch, hi]

/-- A word is the encoding of a term or matches no row. -/
theorem exists_encode_eq_or_no_match (w : Word) :
    (∃ i, encode i = w) ∨ ∀ r ∈ opcodeTable, w &&& r.mask ≠ r.pattern :=
  or_iff_not_imp_right.2 fun h => by
    push Not at h
    obtain ⟨r, hr, hmatch⟩ := h
    exact ⟨r.id.instr w, (encode_instr_eq_iff hr w).2 hmatch⟩

/-- Settles O1: a word that matches a row is the encoding of the term that the row reads from it. -/
theorem decodeInvertsEncode : Obligations.DecodeInvertsEncode := by
  intro w i
  constructor
  · intro h
    rcases exists_encode_eq_or_no_match w with ⟨j, rfl⟩ | hno
    · rw [decode_encode] at h
      split at h
      next hj =>
        cases h
        exact ⟨hj, rfl⟩
      next => cases h
    · rw [decode_of_no_match hno] at h
      split at h <;> cases h
  · rintro ⟨hi, rfl⟩
    rw [decode_encode, if_pos hi]

/-- Settles O3: each word is the encoding of its command. -/
theorem exampleWordsDecode : Obligations.ExampleWordsDecode := by
  refine ⟨?_, ?_, ?_, ?_, ?_, ?_, ?_, ?_, ?_, ?_, ?_, ?_, ?_, ?_⟩ <;>
    exact (decodeInvertsEncode _ _).2 ⟨rfl, rfl⟩

/-! ## Words that are no command (R94 to R96) -/

theorem bankOk_eq_false_iff : ∀ bank : BitVec 2, bankOk bank = false ↔ bank = 3#2 := by decide

theorem wellFormed_eq_false_iff (i : Instr) : i.wellFormed = false ↔ i = .hclear 3#2 ∨ i = .hbuild 3#2 := by
  cases i <;> simp [Instr.wellFormed, bankOk_eq_false_iff]

theorem opAssigned_iff (w : Word) :
    opAssigned w = true ↔ opField w ∈ opcodeTable.map fun r => opField r.pattern := by
  simp [opAssigned]

/-- The OP of the encoding of a term is assigned, since its row has that OP. -/
theorem opAssigned_encode (i : Instr) : opAssigned (encode i) = true := by
  obtain ⟨r, hr, hmatch, -⟩ := exists_row_of_encode i
  exact (opAssigned_iff _).2 (List.mem_map.2 ⟨r, hr, (opField_eq_of_match hr hmatch).symm⟩)

theorem decode_eq_unassignedOp_iff (w : Word) : decode w = .error .unassignedOp ↔ ¬ opAssigned w = true := by
  rcases exists_encode_eq_or_no_match w with ⟨i, rfl⟩ | hno
  · rw [decode_encode]
    split <;> simp [opAssigned_encode]
  · rw [decode_of_no_match hno]
    split <;> simp [*]

theorem decode_eq_unusedBitSet_iff (w : Word) :
    decode w = .error .unusedBitSet ↔ opAssigned w = true ∧ ∀ r ∈ opcodeTable, w &&& r.mask ≠ r.pattern := by
  rcases exists_encode_eq_or_no_match w with ⟨i, rfl⟩ | hno
  · obtain ⟨r, hr, hmatch, -⟩ := exists_row_of_encode i
    have hsome : ¬ ∀ r ∈ opcodeTable, encode i &&& r.mask ≠ r.pattern := fun hno => hno r hr hmatch
    rw [decode_encode]
    split <;> simp [hsome]
  · rw [decode_of_no_match hno]
    split
    next hop => exact iff_of_true rfl ⟨hop, hno⟩
    next hop => exact iff_of_false (by simp) fun h => hop h.1

theorem decode_eq_reservedBank_iff (w : Word) :
    decode w = .error .reservedBank ↔ w = encode (.hclear 3#2) ∨ w = encode (.hbuild 3#2) := by
  constructor
  · intro h
    rcases exists_encode_eq_or_no_match w with ⟨i, rfl⟩ | hno
    · rw [decode_encode] at h
      split at h
      next => cases h
      next hi =>
        have hbank := (wellFormed_eq_false_iff i).1 (Bool.eq_false_of_not_eq_true hi)
        exact hbank.imp (congrArg encode) (congrArg encode)
    · rw [decode_of_no_match hno] at h
      split at h <;> cases h
  · rintro (rfl | rfl) <;> exact decode_encode _

/-- Settles O4, one lemma for each reason. -/
theorem illegalWordsAreRejectedByName : Obligations.IllegalWordsAreRejectedByName := fun w =>
  ⟨(decode_eq_unassignedOp_iff w).trans (not_congr (opAssigned_iff w)),
    (decode_eq_unusedBitSet_iff w).trans (and_congr_left' (opAssigned_iff w)), decode_eq_reservedBank_iff w⟩

end Sys2Proof

namespace Sys2Proof.Machine

/-! ## Errors of illegal words and of bad counts (R94 to R97, R243) -/

theorem perform_of_reject {w : Word} {reason : DecodeReject} (h : decode w = .error reason) (s : State) :
    perform w s = .next (raise .illegalCommand (opField w) s) := by
  rw [perform, h]

/-- Settles O6, by the two step lemmas of the engine. -/
theorem illegalWordRaisesIllegalCommand : Obligations.IllegalWordRaisesIllegalCommand := by
  intro s w reason hpending hdecode
  have hperform := perform_of_reject hdecode
  exact ⟨fun hfirst => (step_engine s w hpending hfirst).trans (hperform s),
    fun e rest turns hhost hheld hturns =>
      (step_engine_turn s w e rest turns hpending hhost hheld hturns).trans (hperform _)⟩

/-- Settles O14: the two words are the encodings of the two ill-formed terms. -/
theorem reservedBankRaisesIllegalCommand : Obligations.ReservedBankRaisesIllegalCommand := fun s =>
  ⟨perform_of_reject (decode_encode (.hclear 3#2)) s, perform_of_reject (decode_encode (.hbuild 3#2)) s, rfl, rfl⟩

theorem countOk_eq_false {n : BitVec 6} (h : n.toNat = 0 ∨ 33 ≤ n.toNat) : countOk n = false := by
  have hmax : Config.maxBits = 32 := rfl
  simp only [countOk, Bool.and_eq_false_iff, decide_eq_false_iff_not]
  omega

/-- Settles O25: every count is well formed, and the count is looked at before anything else. -/
theorem badCountRaisesInvalidBitCount : Obligations.BadCountRaisesInvalidBitCount := by
  intro s n hbad
  have hcount := countOk_eq_false hbad
  refine ⟨decode_encode (.wrbits n), decode_encode (.rdbits n), ?_, ?_⟩
  · simp [exec, execWrbits, hcount, raise, complete, Op.wrbits]
  · simp [exec, execRdbits, hcount, raise, complete, Op.rdbits]

end Sys2Proof.Machine
end

section
/-! PROOFS. FDCT and IDCT on their buffers (R139 to R141): DOUT takes the transform of the input block, whatever else
the state holds. -/

namespace Sys2Proof.Machine

/-! ## Writing DOUT -/

/-- A command that completes with `block` in DOUT pins every entry of DOUT and changes no other byte. -/
theorem exists_mem_of_exec_writeDout {i : Instr} {s : State} {block : List F64} (hlen : block.length = 64)
    (h : exec i s = .next (complete { s with mem := s.mem.writeDout block })) :
    ∃ m, exec i s = .next { s with mem := m, done := true, pending := none } ∧
      (∀ k < 64, m.readF64 (0x600 + 8 * k) = block[k]? ∧ block[k]? ≠ none) ∧
      (∀ a, a < 0x600 ∨ 0x800 ≤ a → m.read a = s.mem.read a) := by
  refine ⟨_, h, fun k hk => ⟨Memory.readF64_writeDout _ _ _ (hlen ▸ hk), ?_⟩, fun a ha => ?_⟩
  · rw [Ne, List.getElem?_eq_none_iff]
    omega
  · by_contra hne
    have := bounds_of_read_writeDout_ne hlen hne
    omega

/-- Settles O10: the premise says that DIN is `f`. -/
theorem fdctWritesTheTransformOfDin : Obligations.FdctWritesTheTransformOfDin := by
  intro s mode f hlen hread
  have hdin : s.mem.din = some f := (Memory.readF64s_eq_some _ _ _ _).2 ⟨hlen, hread⟩
  exact exists_mem_of_exec_writeDout (length_fdct mode f) (execFdct_next mode s f hdin)

/-- Settles O11: the premise says that QIN is `q`. -/
theorem idctWritesTheTransformOfQin : Obligations.IdctWritesTheTransformOfQin := by
  intro s mode q hlen hread
  have hqin : s.mem.qin = some q := (Memory.readWords_eq_some _ _ _ _).2 ⟨hlen, hread⟩
  exact exists_mem_of_exec_writeDout (length_idct mode q) (execIdct_next mode s q hqin)

/-! ## Reading DIN and QIN -/

theorem Memory.readWord_congr {m m' : Memory} {a : Nat} (h : ∀ j < 4, m.read (a + j) = m'.read (a + j)) :
    m.readWord a = m'.readWord a := by
  have h0 := h 0 (by omega)
  rw [Nat.add_zero] at h0
  unfold Memory.readWord
  rw [h0, h 1 (by omega), h 2 (by omega), h 3 (by omega)]

theorem Memory.readF64_congr {m m' : Memory} {a : Nat} (h : ∀ j < 8, m.read (a + j) = m'.read (a + j)) :
    m.readF64 a = m'.readF64 a := by
  have hlow := Memory.readWord_congr fun j (hj : j < 4) => h j (by omega)
  have hhigh : m.readWord (a + 4) = m'.readWord (a + 4) := Memory.readWord_congr fun j hj => by
    rw [Nat.add_assoc]
    exact h (4 + j) (by omega)
  simp only [Memory.readF64, hlow, hhigh]

/-- DIN depends on the bytes of its own range only (R38). -/
theorem Memory.din_congr {m m' : Memory} (h : ∀ a, 0x200 ≤ a → a < 0x400 → m.read a = m'.read a) : m.din = m'.din := by
  refine Option.ext fun f => ?_
  have hentry : ∀ k < Config.nblk, m.readF64 (Config.dinBase + 8 * k) = m'.readF64 (Config.dinBase + 8 * k) := by
    simp only [Config.nblk, Config.dinBase]
    exact fun k hk => Memory.readF64_congr fun j hj => h _ (by omega) (by omega)
  rw [Memory.din, Memory.din, Memory.readF64s_eq_some, Memory.readF64s_eq_some]
  exact and_congr_right fun _ => forall₂_congr fun k hk => by rw [hentry k hk]

/-- QIN depends on the bytes of its own range only (R39). -/
theorem Memory.qin_congr {m m' : Memory} (h : ∀ a, 0x400 ≤ a → a < 0x500 → m.read a = m'.read a) : m.qin = m'.qin := by
  refine Option.ext fun q => ?_
  have hentry : ∀ k < Config.nblk, m.readWord (Config.qinBase + 4 * k) = m'.readWord (Config.qinBase + 4 * k) := by
    simp only [Config.nblk, Config.qinBase]
    exact fun k hk => Memory.readWord_congr fun j hj => h _ (by omega) (by omega)
  rw [Memory.qin, Memory.qin, Memory.readWords_eq_some, Memory.readWords_eq_some]
  exact and_congr_right fun _ => forall₂_congr fun k hk => by rw [hentry k hk]

/-! ## Determinism (R139) -/

/-- After a block is written, the bytes of DOUT are the block's, whatever memory held before. -/
theorem Memory.read_writeDout_congr (m m' : Memory) {block : List F64} (hlen : block.length = 64) {a : Nat}
    (hlow : 0x600 ≤ a) (hhigh : a < 0x800) : (m.writeDout block).read a = (m'.writeDout block).read a := by
  have hin : Config.doutBase ≤ a ∧ a < Config.doutBase + (block.flatMap bytesOfF64).length := by
    rw [length_chunks bytesOfF64 8 length_bytesOfF64, hlen]
    exact ⟨hlow, hhigh⟩
  rw [Memory.writeDout, Memory.writeDout, Memory.read_splice, Memory.read_splice, if_pos hin, if_pos hin]

theorem exists_din_of_exec {mode : DctMode} {s t : State} (h : exec (.fdct mode) s = .next t) :
    ∃ f, s.mem.din = some f ∧ t.mem = s.mem.writeDout (fdct mode f) := by
  simp only [exec, execFdct] at h
  split at h <;> cases h
  exact ⟨_, ‹_›, rfl⟩

theorem exists_qin_of_exec {mode : DctMode} {s t : State} (h : exec (.idct mode) s = .next t) :
    ∃ q, s.mem.qin = some q ∧ t.mem = s.mem.writeDout (idct mode q) := by
  simp only [exec, execIdct] at h
  split at h <;> cases h
  exact ⟨_, ‹_›, rfl⟩

/-- Settles O39: both states hold the same block, and DOUT takes its transform in both. -/
theorem dctDependsOnItsInputOnly : Obligations.DctDependsOnItsInputOnly := by
  intro mode s s' t t'
  constructor
  · intro hexec hexec' hsame a hlow hhigh
    obtain ⟨f, hf, ht⟩ := exists_din_of_exec hexec
    obtain ⟨f', hf', ht'⟩ := exists_din_of_exec hexec'
    obtain rfl : f = f' := Option.some.inj (hf.symm.trans ((Memory.din_congr hsame).trans hf'))
    rw [ht, ht']
    exact Memory.read_writeDout_congr _ _ (length_fdct mode f) hlow hhigh
  · intro hexec hexec' hsame a hlow hhigh
    obtain ⟨q, hq, ht⟩ := exists_qin_of_exec hexec
    obtain ⟨q', hq', ht'⟩ := exists_qin_of_exec hexec'
    obtain rfl : q = q' := Option.some.inj (hq.symm.trans ((Memory.qin_congr hsame).trans hq'))
    rw [ht, ht']
    exact Memory.read_writeDout_congr _ _ (length_idct mode q) hlow hhigh

end Sys2Proof.Machine
end

section
/-! PROOFS. The DCT's conversion of integers (R124): an integer of at most 53 bits is rounded to itself. -/

namespace Sys2Proof.Binary64

open Sys2Proof.Machine (binary64Value)

/-- A significand of at most 53 bits is not rounded where the scale of the result is not above its own. -/
theorem roundSig_eq_unrounded {m k : ℕ} (h : roundScale m k + 1074 ≤ k) : (roundSig m k : ℚ) = unrounded m k := by
  rw [roundSig, if_pos h, unrounded, eq_div_iff (by positivity)]
  push_cast
  rw [mul_assoc, ← pow_add, Nat.sub_add_cancel h]

theorem covered_pack (s : Bool) {mag : ℕ} (h : mag ≤ 2023 * 2 ^ 52) : covered (pack s mag) = true := by
  rw [covered, decide_eq_true_eq, toNat_pack s (by omega)]
  split_ifs <;> omega

/-- Everything up to `2 ^ 1000` is finite (R126). -/
theorem isFinite_of_covered {x : F64} (h : covered x = true) : isFinite x = true := by
  rw [covered, decide_eq_true_eq] at h
  rw [isFinite_iff, expField]
  omega

/-- An integer of at most 53 bits with a sign is rounded to itself, far below `2 ^ 1000`. -/
theorem pack_roundMag_of_integer (s : Bool) {m : ℕ} (hlt : m < 2 ^ 53) :
    covered (pack s (roundMag m 2148)) = true ∧ binary64Value (pack s (roundMag m 2148)) = withSign s m := by
  obtain rfl | hm := eq_or_ne m 0
  · have hzero : roundMag 0 2148 = 0 := by simp only [roundMag, if_true]
    rw [hzero, binary64Value_pack_zero, Nat.cast_zero, withSign_zero]
    exact ⟨covered_pack s (Nat.zero_le _), rfl⟩
  have hscale : roundScale m 2148 + 1074 ≤ 2148 := by
    have hlog : Nat.log2 m < 53 := (Nat.log2_lt hm).2 hlt
    unfold roundScale
    omega
  have hsig := roundSig_le m 2148
  have hmag : roundMag m 2148 = roundScale m 2148 * 2 ^ 52 + roundSig m 2148 := by
    rw [roundMag_eq hm, infBits]
    omega
  have hexact : (roundSig m 2148 : ℚ) * 2 ^ roundScale m 2148 / 2 ^ 1074 = m := by
    rw [roundSig_eq_unrounded hscale, ← exact_eq_unrounded, mul_div_assoc, div_self (by positivity), mul_one]
  rw [hmag]
  refine ⟨covered_pack s (by omega), ?_⟩
  rw [binary64Value_pack s hsig (le_roundSig hm) (by omega), hexact]

theorem natAbs_toInt_le (q : Word) : q.toInt.natAbs ≤ 2 ^ 31 := by
  have hlow := BitVec.le_toInt q
  have hhigh := BitVec.toInt_lt (x := q)
  omega

/-- Settles O46: a QIN value has at most 32 bits. -/
theorem integerConversionIsExact : Obligations.IntegerConversionIsExact := by
  intro q
  obtain ⟨hcovered, hvalue⟩ := pack_roundMag_of_integer (decide (q.toInt < 0))
    (lt_of_le_of_lt (natAbs_toInt_le q) (by norm_num))
  refine ⟨isFinite_of_covered hcovered, hcovered, ?_⟩
  rw [ofInt32, hvalue, withSign_natAbs]

end Sys2Proof.Binary64
end

section
/-! PROOFS. The datapaths and their flowgraphs (R133 to R137): the entries of a block, of a row pass and of a column
pass, and the double sum as two nested loops. -/

namespace Sys2Proof.Machine

/-! ## Entries of a block -/

theorem getElem?_eq_entry {w : List F64} {k : Nat} (h : k < w.length) : w[k]? = some (entry w k) := by
  rw [entry, List.getD_eq_getElem _ _ h, List.getElem?_eq_getElem h]

theorem getElem?_blockOf (g : Nat → Nat → F64) {k : Nat} (hk : k < 64) :
    (blockOf g)[k]? = some (g (k / 8) (k % 8)) := by
  rw [blockOf, List.getElem?_map, List.getElem?_range hk, Option.map_some]

theorem getElem?_blockOf_row (g : Nat → Nat → F64) {r c : Nat} (hr : r < 8) (hc : c < 8) :
    (blockOf g)[8 * r + c]? = some (g r c) := by
  rw [getElem?_blockOf g (by omega), show (8 * r + c) / 8 = r by omega, show (8 * r + c) % 8 = c by omega]

theorem entry_blockOf (g : Nat → Nat → F64) {k : Nat} (hk : k < 64) : entry (blockOf g) k = g (k / 8) (k % 8) := by
  rw [entry, List.getD_eq_getElem?_getD, getElem?_blockOf g hk, Option.getD_some]

theorem entry_blockOf_row (g : Nat → Nat → F64) {r c : Nat} (hr : r < 8) (hc : c < 8) :
    entry (blockOf g) (8 * r + c) = g r c := by
  rw [entry, List.getD_eq_getElem?_getD, getElem?_blockOf_row g hr hc, Option.getD_some]

theorem entry_map_ofInt32 (q : List Word) (k : Nat) :
    entry (q.map Binary64.ofInt32) k = Binary64.ofInt32 (q.getD k 0#32) :=
  List.getD_map q 0#32 Binary64.ofInt32

/-! ## The double sum (R133, R134) -/

theorem sumFrom_eq_foldl (t : Nat → F64) (acc : F64) (n : Nat) :
    sumFrom t acc n = (List.range n).foldl (fun acc k => Binary64.add acc (t k)) acc := by
  induction n with
  | zero => rfl
  | succ n ih => rw [sumFrom, ih, List.range_succ, List.foldl_append, List.foldl_cons, List.foldl_nil]

/-- A loop over `8 * m` entries is a loop over `m` rows of eight. -/
theorem foldl_range_rows {β : Type} (f : β → Nat → Nat → β) (acc : β) (m : Nat) :
    (List.range (8 * m)).foldl (fun acc k => f acc (k / 8) (k % 8)) acc =
      (List.range m).foldl (fun acc x => (List.range 8).foldl (fun acc y => f acc x y) acc) acc := by
  induction m with
  | zero => rfl
  | succ m ih =>
    rw [Nat.mul_succ, List.range_add, List.foldl_append, ih, List.range_succ (n := m), List.foldl_append,
      List.foldl_cons, List.foldl_nil, List.foldl_map]
    refine List.foldl_ext _ _ _ fun acc y hy => ?_
    have hlt := List.mem_range.1 hy
    rw [show (8 * m + y) / 8 = m by omega, show (8 * m + y) % 8 = y by omega]

/-- The double sum runs the inner index inside the outer one, from +0.0. -/
theorem doubleSum_eq_foldl (t : Nat → Nat → F64) :
    doubleSum t = (List.range 8).foldl (fun acc x => (List.range 8).foldl (fun acc y => Binary64.add acc (t x y)) acc)
      0#64 := by
  rw [doubleSum, sumFrom_eq_foldl]
  exact foldl_range_rows (fun acc x y => Binary64.add acc (t x y)) 0#64 8

/-! ## The butterflies (R135, R136) -/

theorem isFwd8Bits_fwd8 (d : Vec8) :
    IsFwd8Bits (fun k => d.toList.getD k 0#64) fun k => (fwd8 d).toList.getD k 0#64 :=
  ⟨_, _, _, _, _, _, _, _, _, _, _, _, _, _, _, _, _, _, _, _, _, _, rfl, rfl, rfl, rfl, rfl, rfl, rfl, rfl, rfl, rfl,
    rfl, rfl, rfl, rfl, rfl, rfl, rfl, rfl, rfl, rfl, rfl, rfl, rfl, rfl, rfl, rfl, rfl, rfl, rfl, rfl⟩

theorem isInv8Bits_inv8 (i : Vec8) :
    IsInv8Bits (fun k => i.toList.getD k 0#64) fun k => (inv8 i).toList.getD k 0#64 :=
  ⟨_, _, _, _, _, _, _, _, _, _, _, _, _, _, _, _, _, _, _, _, rfl, rfl, rfl, rfl, rfl, rfl, rfl, rfl, rfl, rfl, rfl,
    rfl, rfl, rfl, rfl, rfl, rfl, rfl, rfl, rfl, rfl, rfl, rfl, rfl, rfl, rfl, rfl, rfl⟩

/-- A relation between eight inputs and eight outputs looks at nothing else. -/
def OfFirstEight {α : Type} (pass : (Nat → α) → (Nat → α) → Prop) : Prop :=
  ∀ d d' o o' : Nat → α, (∀ k < 8, d k = d' k) → (∀ k < 8, o k = o' k) → pass d o → pass d' o'

theorem ofFirstEight_isFwd8Bits : OfFirstEight IsFwd8Bits := by
  intro d d' o o' hd ho h
  simpa only [IsFwd8Bits, IsFwd8, hd, ho, Nat.reduceLT] using h

theorem ofFirstEight_isInv8Bits : OfFirstEight IsInv8Bits := by
  intro d d' o o' hd ho h
  simpa only [IsInv8Bits, IsInv8, hd, ho, Nat.reduceLT] using h

/-! ## Row and column passes (R137) -/

theorem getD_vecAt (w : List F64) (a step : Nat) {k : Nat} (hk : k < 8) :
    (vecAt w a step).toList.getD k 0#64 = entry w (a + k * step) := by
  interval_cases k <;> simp [vecAt, Vec8.toList]

/-- Eight vectors one after another are the rows of a block. -/
theorem flatMap_toList_eq_blockOf (g : Nat → Vec8) :
    ((List.range 8).flatMap fun r => (g r).toList) = blockOf fun r k => (g r).toList.getD k 0#64 :=
  rfl

theorem entry_rowPass (butterfly : Vec8 → Vec8) (w : List F64) {r k : Nat} (hr : r < 8) (hk : k < 8) :
    entry (rowPass butterfly w) (8 * r + k) = (butterfly (vecAt w (8 * r) 1)).toList.getD k 0#64 := by
  rw [rowPass, flatMap_toList_eq_blockOf, entry_blockOf_row _ hr hk]

theorem entry_colPass (butterfly : Vec8 → Vec8) (w : List F64) {c k : Nat} (hc : c < 8) (hk : k < 8) :
    entry (colPass butterfly w) (8 * k + c) = (butterfly (vecAt w c 8)).toList.getD k 0#64 := by
  rw [colPass, transpose, entry_blockOf_row _ hk hc, flatMap_toList_eq_blockOf, entry_blockOf_row _ hc hk]

/-- A row pass and then a column pass of a butterfly, on a block whose entries are `w'`. -/
theorem isRowsThenColumns_passes {pass : (Nat → F64) → (Nat → F64) → Prop} {butterfly : Vec8 → Vec8}
    (hpass : ∀ d : Vec8, pass (fun k => d.toList.getD k 0#64) fun k => (butterfly d).toList.getD k 0#64)
    (height : OfFirstEight pass) {w : List F64} {w' : Nat → F64} (hw : ∀ k < 64, entry w k = w' k) :
    IsRowsThenColumns pass w' (entry (colPass butterfly (rowPass butterfly w))) := by
  refine ⟨entry (rowPass butterfly w), fun r hr => ?_, fun c hc => ?_⟩
  · refine height _ _ _ _ (fun k hk => ?_) (fun k hk => ?_) (hpass (vecAt w (8 * r) 1))
    · rw [getD_vecAt _ _ _ hk, Nat.mul_one, hw _ (by omega)]
    · rw [entry_rowPass _ _ hr hk]
  · refine height _ _ _ _ (fun k hk => ?_) (fun k hk => ?_) (hpass (vecAt (rowPass butterfly w) c 8))
    · rw [getD_vecAt _ _ _ hk, Nat.add_comm, Nat.mul_comm]
    · rw [entry_colPass _ _ hc hk]

/-- Settles O41: the datapaths are written as these sums and passes. -/
theorem datapathsAreTheirFlowgraphs : Obligations.DatapathsAreTheirFlowgraphs := by
  refine ⟨fun f u v _ hcovered hu hv => ?_, fun q x y _ hx hy => ?_, fun f _ hcovered => ?_, fun q _ => ?_⟩
  · rw [fdct, if_pos hcovered, fdctRefBits, getElem?_blockOf_row _ hu hv, doubleSum_eq_foldl]
    rfl
  · rw [idct, idctRefBits, getElem?_blockOf_row _ hx hy, doubleSum_eq_foldl]
    simp only [entry_map_ofInt32]
  · refine ⟨_, isRowsThenColumns_passes isFwd8Bits_fwd8 ofFirstEight_isFwd8Bits fun _ _ => rfl, fun u v hu hv => ?_⟩
    rw [fdct, if_pos hcovered, fdctFastBits, getElem?_blockOf_row _ hu hv]
  · refine ⟨_, isRowsThenColumns_passes isInv8Bits_inv8 ofFirstEight_isInv8Bits (w := blockOf fun u v => Binary64.mul
      (Binary64.mul (entry (q.map Binary64.ofInt32) (8 * u + v)) (romPSC u)) (romPSC v)) fun k hk => ?_, fun k hk => ?_⟩
    · rw [entry_blockOf _ hk, Nat.div_add_mod, entry_map_ofInt32]
    · rw [getElem?_eq_entry (by rwa [length_idct]), idct, idctFastBits]

end Sys2Proof.Machine
end

section
/-! PROOFS. Zeros (R128): a sum of zeros and a product with a zero are zeros, so every datapath keeps blocks of
zeros. -/

namespace Sys2Proof.Binary64

/-! ## Changing the sign -/

theorem sign_neg (x : F64) : sign (neg x) = !sign x := by
  simp [sign, neg]

/-- The sign bit is no part of a field below it. -/
theorem extractLsb'_neg (x : F64) {start len : ℕ} (h : start + len ≤ 63) :
    (neg x).extractLsb' start len = x.extractLsb' start len := by
  apply BitVec.eq_of_getLsbD_eq
  intro i hi
  have hbelow : start + i < 63 := by omega
  simp only [neg, BitVec.getLsbD_extractLsb', BitVec.getLsbD_xor, BitVec.getLsbD_shiftLeft, hbelow, decide_true,
    Bool.not_true, Bool.and_false, Bool.false_and, Bool.xor_false]

theorem expField_eq_extract (x : F64) : expField x = (x.extractLsb' 52 11).toNat := by
  rw [BitVec.extractLsb'_toNat, Nat.shiftRight_eq_div_pow, expField]

theorem fraction_eq_extract (x : F64) : fraction x = (x.extractLsb' 0 52).toNat := by
  rw [BitVec.extractLsb'_toNat, Nat.shiftRight_zero, fraction]

theorem expField_neg (x : F64) : expField (neg x) = expField x := by
  rw [expField_eq_extract, expField_eq_extract, extractLsb'_neg x (by omega)]

theorem fraction_neg (x : F64) : fraction (neg x) = fraction x := by
  rw [fraction_eq_extract, fraction_eq_extract, extractLsb'_neg x (by omega)]

theorem mant_neg (x : F64) : mant (neg x) = mant x := by
  rw [mant, mant, expField_neg, fraction_neg]

theorem scale_neg (x : F64) : scale (neg x) = scale x := by
  rw [scale, scale, expField_neg]

theorem isFinite_neg (x : F64) : isFinite (neg x) = isFinite x := by
  rw [isFinite, isFinite, expField_neg]

/-! ## Zeros -/

theorem isZero_iff (x : F64) : isZero x = true ↔ x = 0#64 ∨ x = 0x8000000000000000#64 := by
  have hx : x.toNat < 2 ^ 64 := x.isLt
  simp only [isZero, expField, fraction, Bool.and_eq_true, beq_iff_eq, ← BitVec.toNat_inj, BitVec.toNat_ofNat]
  omega

theorem isZero_pack_zero (s : Bool) : isZero (pack s 0) = true := by cases s <;> decide

theorem isZero_neg (x : F64) : isZero (neg x) = isZero x := by
  rw [isZero, isZero, expField_neg, fraction_neg]

theorem mant_of_isZero {x : F64} (h : isZero x = true) : mant x = 0 := by
  simp only [isZero, Bool.and_eq_true, beq_iff_eq] at h
  rw [mant, if_pos h.1, h.2]

theorem signedMant_of_isZero {x : F64} (h : isZero x = true) : signedMant x = 0 := by
  simp [signedMant, mant_of_isZero h]

theorem isFinite_of_isZero {x : F64} (h : isZero x = true) : isFinite x = true := by
  obtain rfl | rfl := (isZero_iff x).1 h <;> decide

theorem isZero_add {a b : F64} (ha : isZero a = true) (hb : isZero b = true) : isZero (add a b) = true := by
  have hsum : exactSum a b = 0 := by simp [exactSum, signedMant_of_isZero, ha, hb]
  rw [add_eq_of_isFinite (isFinite_of_isZero ha) (isFinite_of_isZero hb), if_pos hsum]
  exact isZero_pack_zero _

theorem isZero_sub {a b : F64} (ha : isZero a = true) (hb : isZero b = true) : isZero (sub a b) = true :=
  isZero_add ha ((isZero_neg b).trans hb)

theorem isZero_pack_roundMag_zero (s : Bool) (k : ℕ) : isZero (pack s (roundMag 0 k)) = true := by
  simp only [roundMag, if_true]
  exact isZero_pack_zero s

theorem isZero_mul_left {a b : F64} (ha : isZero a = true) (hb : isFinite b = true) : isZero (mul a b) = true := by
  rw [mul_eq_of_isFinite (isFinite_of_isZero ha) hb, mant_of_isZero ha, Nat.zero_mul]
  exact isZero_pack_roundMag_zero _ _

theorem isZero_mul_right {a b : F64} (ha : isFinite a = true) (hb : isZero b = true) : isZero (mul a b) = true := by
  rw [mul_eq_of_isFinite ha (isFinite_of_isZero hb), mant_of_isZero hb, Nat.mul_zero]
  exact isZero_pack_roundMag_zero _ _

end Sys2Proof.Binary64

namespace Sys2Proof.Machine

open Binary64 (isZero isFinite isZero_add isZero_sub isZero_mul_left isZero_mul_right isFinite_neg)

/-! ## The ROM's constants are finite (R131, R132) -/

theorem isFinite_cosk (k : Nat) : isFinite (cosk k) = true := by
  unfold cosk
  split <;> decide

theorem isFinite_cosLookup (x u : Nat) : isFinite (cosLookup x u) = true := by
  unfold cosLookup
  dsimp only
  split_ifs <;> simp only [isFinite_neg, isFinite_cosk]

theorem isFinite_romH (k : Nat) : isFinite (romH k) = true := by
  unfold romH
  split <;> decide

theorem isFinite_romDSC (k : Nat) : isFinite (romDSC k) = true := by
  unfold romDSC
  split <;> decide

theorem isFinite_romPSC (k : Nat) : isFinite (romPSC k) = true := by
  unfold romPSC
  split <;> decide

/-! ## Blocks of zeros -/

/-- Every entry is +0.0 or −0.0 (R128). -/
def ZeroBlock (w : List F64) : Prop := ∀ x ∈ w, isZero x = true

theorem ZeroBlock.entry {w : List F64} (h : ZeroBlock w) (k : Nat) : isZero (entry w k) = true := by
  rw [Machine.entry, List.getD_eq_getElem?_getD]
  cases hk : w[k]? with
  | none => rfl
  | some x => exact h x (List.mem_of_getElem? hk)

theorem zeroBlock_blockOf {g : Nat → Nat → F64} (h : ∀ r c, isZero (g r c) = true) : ZeroBlock (blockOf g) := by
  intro x hx
  obtain ⟨k, -, rfl⟩ := List.mem_map.1 hx
  exact h _ _

theorem isZero_sumFrom {t : Nat → F64} {acc : F64} (hacc : isZero acc = true) (ht : ∀ k, isZero (t k) = true)
    (n : Nat) : isZero (sumFrom t acc n) = true := by
  induction n with
  | zero => exact hacc
  | succ n ih => exact isZero_add ih (ht n)

theorem isZero_doubleSum {t : Nat → Nat → F64} (ht : ∀ x y, isZero (t x y) = true) : isZero (doubleSum t) = true :=
  isZero_sumFrom rfl (fun _ => ht _ _) 64

theorem ZeroBlock.fdctRefBits {f : List F64} (h : ZeroBlock f) : ZeroBlock (fdctRefBits f) :=
  zeroBlock_blockOf fun u v => isZero_mul_left (isZero_mul_left (isZero_doubleSum fun x y =>
    isZero_mul_left (isZero_mul_left (h.entry _) (isFinite_cosLookup x u)) (isFinite_cosLookup y v))
    (isFinite_romH u)) (isFinite_romH v)

theorem ZeroBlock.idctRefBits {q : List F64} (h : ZeroBlock q) : ZeroBlock (idctRefBits q) :=
  zeroBlock_blockOf fun x y => isZero_doubleSum fun u v => isZero_mul_left (isZero_mul_left (isZero_mul_left
    (isZero_mul_left (h.entry _) (isFinite_romH u)) (isFinite_romH v)) (isFinite_cosLookup x u))
    (isFinite_cosLookup y v)

/-! ## Butterflies of zeros -/

/-- A butterfly takes zeros to zeros. -/
def KeepsZeros (butterfly : Vec8 → Vec8) : Prop := ∀ d : Vec8, ZeroBlock d.toList → ZeroBlock (butterfly d).toList

theorem zeroBlock_toList_iff (d : Vec8) : ZeroBlock d.toList ↔ isZero d.v0 = true ∧ isZero d.v1 = true ∧
    isZero d.v2 = true ∧ isZero d.v3 = true ∧ isZero d.v4 = true ∧ isZero d.v5 = true ∧ isZero d.v6 = true ∧
    isZero d.v7 = true := by
  simp only [ZeroBlock, Vec8.toList, List.forall_mem_cons, List.not_mem_nil, false_imp_iff, implies_true, and_true]

theorem keepsZeros_fwd8 : KeepsZeros fwd8 := by
  intro d hd
  obtain ⟨h0, h1, h2, h3, h4, h5, h6, h7⟩ := (zeroBlock_toList_iff d).1 hd
  have t0 := isZero_add h0 h7
  have t7 := isZero_sub h0 h7
  have t1 := isZero_add h1 h6
  have t6 := isZero_sub h1 h6
  have t2 := isZero_add h2 h5
  have t5 := isZero_sub h2 h5
  have t3 := isZero_add h3 h4
  have t4 := isZero_sub h3 h4
  have e10 := isZero_add t0 t3
  have e13 := isZero_sub t0 t3
  have e11 := isZero_add t1 t2
  have e12 := isZero_sub t1 t2
  have z1 := isZero_mul_left (b := romA1) (isZero_add e12 e13) (by decide)
  have p10 := isZero_add t4 t5
  have p12 := isZero_add t6 t7
  have z5 := isZero_mul_left (b := romA3) (isZero_sub p10 p12) (by decide)
  have z2 := isZero_add (isZero_mul_right (a := romA2) (by decide) p10) z5
  have z4 := isZero_add (isZero_mul_right (a := romA4) (by decide) p12) z5
  have z3 := isZero_mul_left (b := romA1) (isZero_add t5 t6) (by decide)
  have z11 := isZero_add t7 z3
  have z13 := isZero_sub t7 z3
  exact (zeroBlock_toList_iff _).2 ⟨isZero_add e10 e11, isZero_add z11 z4, isZero_add e13 z1, isZero_sub z13 z2,
    isZero_sub e10 e11, isZero_add z13 z2, isZero_sub e13 z1, isZero_sub z11 z4⟩

theorem keepsZeros_inv8 : KeepsZeros inv8 := by
  intro i hi
  obtain ⟨h0, h1, h2, h3, h4, h5, h6, h7⟩ := (zeroBlock_toList_iff i).1 hi
  have b10 := isZero_add h0 h4
  have b11 := isZero_sub h0 h4
  have b13 := isZero_add h2 h6
  have b12 := isZero_sub (isZero_mul_left (b := romB1) (isZero_sub h2 h6) (by decide)) b13
  have c0 := isZero_add b10 b13
  have c3 := isZero_sub b10 b13
  have c1 := isZero_add b11 b12
  have c2 := isZero_sub b11 b12
  have z13 := isZero_add h5 h3
  have z10 := isZero_sub h5 h3
  have z11 := isZero_add h1 h7
  have z12 := isZero_sub h1 h7
  have c7 := isZero_add z11 z13
  have q11 := isZero_mul_left (b := romB1) (isZero_sub z11 z13) (by decide)
  have z5 := isZero_mul_left (b := romB2) (isZero_add z10 z12) (by decide)
  have q10 := isZero_sub (isZero_mul_right (a := romB3) (by decide) z12) z5
  have q12 := isZero_sub z5 (isZero_mul_right (a := romB4) (by decide) z10)
  have c6 := isZero_sub q12 c7
  have c5 := isZero_sub q11 c6
  have c4 := isZero_add q10 c5
  exact (zeroBlock_toList_iff _).2 ⟨isZero_add c0 c7, isZero_add c1 c6, isZero_add c2 c5, isZero_sub c3 c4,
    isZero_add c3 c4, isZero_sub c2 c5, isZero_sub c1 c6, isZero_sub c0 c7⟩

theorem ZeroBlock.vecAt {w : List F64} (h : ZeroBlock w) (a step : Nat) : ZeroBlock (vecAt w a step).toList :=
  (zeroBlock_toList_iff _).2 ⟨h.entry _, h.entry _, h.entry _, h.entry _, h.entry _, h.entry _, h.entry _, h.entry _⟩

theorem zeroBlock_flatMap {g : Nat → Vec8} (h : ∀ r, ZeroBlock (g r).toList) :
    ZeroBlock ((List.range 8).flatMap fun r => (g r).toList) := by
  intro x hx
  obtain ⟨r, -, hr⟩ := List.mem_flatMap.1 hx
  exact h r x hr

theorem ZeroBlock.rowPass {butterfly : Vec8 → Vec8} (hb : KeepsZeros butterfly) {w : List F64} (h : ZeroBlock w) :
    ZeroBlock (rowPass butterfly w) :=
  zeroBlock_flatMap fun _ => hb _ (h.vecAt _ _)

theorem ZeroBlock.colPass {butterfly : Vec8 → Vec8} (hb : KeepsZeros butterfly) {w : List F64} (h : ZeroBlock w) :
    ZeroBlock (colPass butterfly w) := by
  have hcolumns := zeroBlock_flatMap fun c => hb _ (h.vecAt c 8)
  rw [Machine.colPass, transpose]
  exact zeroBlock_blockOf fun _ _ => hcolumns.entry _

theorem ZeroBlock.fdctFastBits {f : List F64} (h : ZeroBlock f) : ZeroBlock (fdctFastBits f) := by
  have hpasses := (h.rowPass keepsZeros_fwd8).colPass keepsZeros_fwd8
  rw [Machine.fdctFastBits]
  exact zeroBlock_blockOf fun u v =>
    isZero_mul_left (isZero_mul_left (hpasses.entry _) (isFinite_romDSC u)) (isFinite_romDSC v)

theorem ZeroBlock.idctFastBits {q : List F64} (h : ZeroBlock q) : ZeroBlock (idctFastBits q) := by
  have hscaled := zeroBlock_blockOf fun u v =>
    isZero_mul_left (isZero_mul_left (h.entry (8 * u + v)) (isFinite_romPSC u)) (isFinite_romPSC v)
  rw [Machine.idctFastBits]
  exact (hscaled.rowPass keepsZeros_inv8).colPass keepsZeros_inv8

/-! ## The four functions (R125, R128) -/

theorem ZeroBlock.all_covered {f : List F64} (h : ZeroBlock f) : f.all Binary64.covered = true := by
  refine List.all_eq_true.2 fun x hx => ?_
  obtain rfl | rfl := (Binary64.isZero_iff x).1 (h x hx) <;> decide

theorem ZeroBlock.fdct {f : List F64} (h : ZeroBlock f) (mode : DctMode) : ZeroBlock (fdct mode f) := by
  cases mode with
  | ref => rw [Machine.fdct, if_pos h.all_covered]; exact h.fdctRefBits
  | fast => rw [Machine.fdct, if_pos h.all_covered]; exact h.fdctFastBits

theorem zeroBlock_idct_zero (mode : DctMode) : ZeroBlock (idct mode (List.replicate 64 0#32)) := by
  have hq : ZeroBlock ((List.replicate 64 0#32).map Binary64.ofInt32) := by
    rw [List.map_replicate]
    intro x hx
    rw [List.eq_of_mem_replicate hx]
    rfl
  cases mode with
  | ref => exact hq.idctRefBits
  | fast => exact hq.idctFastBits

/-- Settles O40: every datapath keeps zeros, and a block of zeros is covered. -/
theorem dctOfZeroIsZero : Obligations.DctOfZeroIsZero := by
  refine ⟨fun mode f _ hf y hy => ?_, fun mode y hy => ?_⟩
  · have hzero : ZeroBlock f := fun x hx => (Binary64.isZero_iff x).2 (hf x hx)
    exact (Binary64.isZero_iff y).1 (hzero.fdct mode y hy)
  · exact (Binary64.isZero_iff y).1 (zeroBlock_idct_zero mode y hy)

end Sys2Proof.Machine
end

section
/-! PROOFS. The butterflies in exact arithmetic (R135, R136). A product of two cosines is a sum of two, so a gain times
a cosine, and a cosine over `cos(uπ/16)`, are sums of cosines of even multiples of π/16. After that an output of a
flowgraph and its transform are the same linear combination of the inputs. -/

namespace Sys2Proof.Machine

/-! ## Cosines of multiples of π/16 -/

theorem cosPi_zero : cosPi 0 = 1 := by simp [cosPi]

theorem cosPi_add_sixteen (k : Nat) : cosPi (k + 16) = -cosPi k := by
  rw [cosPi, cosPi, ← Real.cos_add_pi]
  congr 1
  push_cast
  ring

theorem cosPi_eq_neg_of_add_eq {k j : Nat} (h : k + j = 16) : cosPi k = -cosPi j := by
  have hsum : (k : ℝ) + j = 16 := by exact_mod_cast h
  rw [cosPi, cosPi, ← Real.cos_pi_sub]
  congr 1
  linear_combination Real.pi / 16 * hsum

theorem cosPi_eight : cosPi 8 = 0 := by
  have := cosPi_eq_neg_of_add_eq (k := 8) (j := 8) rfl
  linarith

theorem cosPi_pos {k : Nat} (hk : k < 8) : 0 < cosPi k := by
  have hlt : (k : ℝ) < 8 := by exact_mod_cast hk
  have hpi := Real.pi_pos
  refine Real.cos_pos_of_mem_Ioo ⟨?_, ?_⟩
  · have : 0 ≤ (k : ℝ) * Real.pi / 16 := by positivity
    linarith
  · have := mul_lt_mul_of_pos_right hlt hpi
    linarith

theorem sqrt_two_eq : √2 = 2 * cosPi 4 := by
  rw [cosPi, show ((4 : ℕ) : ℝ) * Real.pi / 16 = Real.pi / 4 by push_cast; ring, Real.cos_pi_div_four]
  ring

theorem exactCos_eq_cosPi (x u : Nat) : exactCos x u = cosPi ((2 * x + 1) * u) := by
  rw [exactCos, cosPi]
  push_cast
  rfl

theorem two_mul_cosPi_mul_cosPi (j k : Nat) : 2 * cosPi j * cosPi (j + k) = cosPi (2 * j + k) + cosPi k := by
  rw [cosPi, cosPi, cosPi, cosPi, Real.two_mul_cos_mul_cos, ← Real.cos_neg (_ - _), add_comm]
  congr 2 <;> push_cast <;> ring

/-- The forward butterfly's gain makes a sum of two even cosines of each cosine (R135). -/
theorem gain_mul_exactCos {u : Nat} (hu : u ≠ 0) (x : Nat) :
    gain u * exactCos x u = cosPi (2 * (x + 1) * u) + cosPi (2 * x * u) := by
  rw [gain, if_neg hu, exactCos_eq_cosPi, show (2 * x + 1) * u = u + 2 * x * u by ring,
    show 2 * (x + 1) * u = 2 * u + 2 * x * u by ring, two_mul_cosPi_mul_cosPi]

theorem exactCos_zero_div {u : Nat} (hu : u < 8) : exactCos 0 u / cosPi u = 1 := by
  rw [exactCos_eq_cosPi, Nat.mul_zero, Nat.zero_add, Nat.one_mul, div_self (cosPi_pos hu).ne']

/-- From one `x` to the next, a cosine over `cosPi u` changes by an even cosine (R136). -/
theorem exactCos_succ_div (x : Nat) {u : Nat} (hu : u < 8) :
    exactCos (x + 1) u / cosPi u = 2 * cosPi (2 * (x + 1) * u) - exactCos x u / cosPi u := by
  rw [exactCos_eq_cosPi, exactCos_eq_cosPi, eq_sub_iff_add_eq, ← add_div, div_eq_iff (cosPi_pos hu).ne',
    show (2 * (x + 1) + 1) * u = 2 * u + (2 * x + 1) * u by ring, show 2 * (x + 1) * u = u + (2 * x + 1) * u by ring,
    mul_right_comm, two_mul_cosPi_mul_cosPi]

/-- Even multiples of π/16 in the second quadrant. -/
theorem cosPi_second_quadrant : cosPi 10 = -cosPi 6 ∧ cosPi 12 = -cosPi 4 ∧ cosPi 14 = -cosPi 2 :=
  ⟨cosPi_eq_neg_of_add_eq rfl, cosPi_eq_neg_of_add_eq rfl, cosPi_eq_neg_of_add_eq rfl⟩

/-! ## FWD8 and INV8 -/

theorem fwd8_exact {d o : Nat → ℝ} (h : IsFwd8Exact d o) :
    ∀ u < 8, o u = gain u * ∑ x ∈ Finset.range 8, d x * exactCos x u := by
  simp only [IsFwd8Exact, IsFwd8, exists_and_left, exists_eq_left] at h
  obtain ⟨h0, h4, h2, h6, h5, h3, h1, h7⟩ := h
  intro u hu
  obtain rfl | hpos := Nat.eq_zero_or_pos u
  · simp only [gain, if_true, one_mul, exactCos_eq_cosPi, Nat.mul_zero, cosPi_zero, mul_one, Finset.sum_range_succ,
      Finset.sum_range_zero, h0]
    ring
  · rw [Finset.mul_sum]
    simp only [mul_left_comm (gain u)]
    simp only [gain_mul_exactCos hpos.ne', Finset.sum_range_succ, Finset.sum_range_zero]
    interval_cases u
    all_goals
      simp only [Nat.reduceMul, Nat.reduceAdd, cosPi_add_sixteen, cosPi_zero, cosPi_eight, cosPi_second_quadrant, h1,
        h2, h3, h4, h5, h6, h7]
      ring

theorem inv8_exact {i y : Nat → ℝ} (h : IsInv8Exact i y) :
    ∀ x < 8, y x = ∑ u ∈ Finset.range 8, i u * exactCos x u / cosPi u := by
  simp only [IsInv8Exact, IsInv8, existsAndEq, true_and] at h
  obtain ⟨h0, h7, h1, h6, h2, h5, h4, h3⟩ := h
  intro x hx
  simp only [mul_div_assoc, Finset.sum_range_succ, Finset.sum_range_zero]
  interval_cases x
  all_goals
    simp only [exactCos_zero_div, exactCos_succ_div, Nat.reduceLT]
    simp only [Nat.reduceMul, Nat.reduceAdd, cosPi_add_sixteen, cosPi_zero, cosPi_eight, cosPi_second_quadrant,
      sqrt_two_eq, h0, h1, h2, h3, h4, h5, h6, h7]
    ring

/-- Settles O42: the exact flowgraphs by comparing coefficients, the model's butterflies by their definition. -/
theorem butterfliesAreScaledTransforms : Obligations.ButterfliesAreScaledTransforms :=
  ⟨fun _ _ => fwd8_exact, fun _ _ => inv8_exact, isFwd8Bits_fwd8, isInv8Bits_inv8⟩

end Sys2Proof.Machine
end

section
/-! PROOFS. The ROM (R131, R132). Halving the angle encloses the seven cosines in rational intervals, starting from
`cos(π/2) = 0`; each constant is then within half a unit in its last place of every number of an interval around its
exact value. -/

namespace Sys2Proof.Machine

/-! ## Enclosures -/

/-- `x` lies between two rationals. -/
def Encloses (lo hi : ℚ) (x : ℝ) : Prop := (lo : ℝ) ≤ x ∧ x ≤ hi

theorem Encloses.neg {lo hi : ℚ} {x : ℝ} (h : Encloses lo hi x) : Encloses (-hi) (-lo) (-x) := by
  obtain ⟨hlo, hhi⟩ := h
  constructor <;> push_cast <;> linarith

theorem Encloses.add {lo hi lo' hi' : ℚ} {x y : ℝ} (hx : Encloses lo hi x) (hy : Encloses lo' hi' y) :
    Encloses (lo + lo') (hi + hi') (x + y) := by
  obtain ⟨hlo, hhi⟩ := hx
  obtain ⟨hlo', hhi'⟩ := hy
  constructor <;> push_cast <;> linarith

theorem Encloses.sub {lo hi lo' hi' : ℚ} {x y : ℝ} (hx : Encloses lo hi x) (hy : Encloses lo' hi' y) :
    Encloses (lo - hi') (hi - lo') (x - y) := by
  obtain ⟨hlo, hhi⟩ := hx
  obtain ⟨hlo', hhi'⟩ := hy
  constructor <;> push_cast <;> linarith

theorem Encloses.two_mul {lo hi : ℚ} {x : ℝ} (h : Encloses lo hi x) : Encloses (2 * lo) (2 * hi) (2 * x) := by
  obtain ⟨hlo, hhi⟩ := h
  constructor <;> push_cast <;> linarith

theorem Encloses.half {lo hi : ℚ} {x : ℝ} (h : Encloses lo hi x) : Encloses (lo / 2) (hi / 2) (x / 2) := by
  obtain ⟨hlo, hhi⟩ := h
  constructor <;> push_cast <;> linarith

theorem Encloses.one_div_four_mul {lo hi : ℚ} {x : ℝ} (h : Encloses lo hi x) (hpos : 0 < lo) :
    Encloses (1 / (4 * hi)) (1 / (4 * lo)) (1 / (4 * x)) := by
  obtain ⟨hlo, hhi⟩ := h
  have hlo' : (0 : ℝ) < lo := by exact_mod_cast hpos
  have hx : 0 < x := hlo'.trans_le hlo
  constructor <;> push_cast <;> gcongr

/-! ## The cosines -/

theorem sq_cosPi (k : Nat) : cosPi k ^ 2 = (1 + cosPi (2 * k)) / 2 := by
  have h := two_mul_cosPi_mul_cosPi k 0
  rw [Nat.add_zero, Nat.add_zero, cosPi_zero] at h
  linarith

/-- Half the angle: a cosine in the first quadrant from that of twice the angle. -/
theorem encloses_cosPi_of_double {k : Nat} (hk : k < 8) {l h lo hi : ℚ} (hdouble : Encloses l h (cosPi (2 * k)))
    (hlo : lo ^ 2 ≤ (1 + l) / 2) (hhi : (1 + h) / 2 ≤ hi ^ 2) (hpos : 0 ≤ hi) : Encloses lo hi (cosPi k) := by
  obtain ⟨hl, hh⟩ := hdouble
  have hsq := sq_cosPi k
  have hlo' : (lo : ℝ) ^ 2 ≤ (1 + l) / 2 := by exact_mod_cast hlo
  have hhi' : (1 + h) / 2 ≤ (hi : ℝ) ^ 2 := by exact_mod_cast hhi
  exact ⟨le_of_sq_le_sq (by linarith) (cosPi_pos hk).le, le_of_sq_le_sq (by linarith) (by exact_mod_cast hpos)⟩

/-- The first 22 decimals of cos(kπ/16). -/
def cosDecimals : Nat → Nat
  | 0 => 10000000000000000000000
  | 1 => 9807852804032304491261
  | 2 => 9238795325112867561281
  | 3 => 8314696123025452370787
  | 4 => 7071067811865475244008
  | 5 => 5555702330196022247428
  | 6 => 3826834323650897717284
  | _ => 1950903220161282678482

/-- Each cosine comes from that of twice the angle; the cosines of 4, 2 and 6 are kept to more places on the way. -/
theorem encloses_cosPi {k : Nat} (hk : k < 8) :
    Encloses (cosDecimals k / 10 ^ 22) ((cosDecimals k + 1) / 10 ^ 22) (cosPi k) := by
  have h8 : Encloses 0 0 (cosPi (2 * 4)) := by simp [Encloses, cosPi_eight]
  have h4 : Encloses (70710678118654752440084436 / 10 ^ 26) (70710678118654752440084437 / 10 ^ 26) (cosPi (2 * 2)) :=
    encloses_cosPi_of_double (by norm_num) h8 (by norm_num) (by norm_num) (by norm_num)
  have h12 := h4.neg
  rw [← cosPi_second_quadrant.2.1] at h12
  have h2 : Encloses (923879532511286756128183 / 10 ^ 24) (923879532511286756128184 / 10 ^ 24) (cosPi (2 * 1)) :=
    encloses_cosPi_of_double (by norm_num) h4 (by norm_num) (by norm_num) (by norm_num)
  have h6 : Encloses (382683432365089771728459 / 10 ^ 24) (382683432365089771728460 / 10 ^ 24) (cosPi (2 * 3)) :=
    encloses_cosPi_of_double (by norm_num) h12 (by norm_num) (by norm_num) (by norm_num)
  have h10 := h6.neg
  have h14 := h2.neg
  rw [← cosPi_second_quadrant.1] at h10
  rw [← cosPi_second_quadrant.2.2] at h14
  have hhalf {j : Nat} {l h : ℚ} (hj : j < 8) (hdouble : Encloses l h (cosPi (2 * j)))
      (hlo : (cosDecimals j / 10 ^ 22 : ℚ) ^ 2 ≤ (1 + l) / 2)
      (hhi : (1 + h) / 2 ≤ ((cosDecimals j + 1) / 10 ^ 22) ^ 2) :
      Encloses (cosDecimals j / 10 ^ 22) ((cosDecimals j + 1) / 10 ^ 22) (cosPi j) :=
    encloses_cosPi_of_double hj hdouble hlo hhi (by positivity)
  interval_cases k
  · norm_num [Encloses, cosDecimals, cosPi_zero]
  · exact hhalf hk h2 (by norm_num [cosDecimals]) (by norm_num [cosDecimals])
  · exact hhalf hk h4 (by norm_num [cosDecimals]) (by norm_num [cosDecimals])
  · exact hhalf hk h6 (by norm_num [cosDecimals]) (by norm_num [cosDecimals])
  · exact hhalf hk h8 (by norm_num [cosDecimals]) (by norm_num [cosDecimals])
  · exact hhalf hk h10 (by norm_num [cosDecimals]) (by norm_num [cosDecimals])
  · exact hhalf hk h12 (by norm_num [cosDecimals]) (by norm_num [cosDecimals])
  · exact hhalf hk h14 (by norm_num [cosDecimals]) (by norm_num [cosDecimals])

/-! ## Nearest encodings -/

/-- Half a unit in the last place of `c`. -/
abbrev halfUlp (c : F64) : ℚ := 2 ^ Binary64.scale c / 2 ^ 1075

/-- Every number of the interval is within half a unit in the last place of `c`. -/
abbrev NearestOn (c : F64) (lo hi : ℚ) : Prop := binary64Value c - halfUlp c ≤ lo ∧ hi ≤ binary64Value c + halfUlp c

theorem nearest_iff (c : F64) (x : ℝ) : nearest c x ↔ |((binary64Value c : ℚ) : ℝ) - x| ≤ (halfUlp c : ℝ) := by
  rw [nearest, halfUlp]
  push_cast
  rfl

theorem nearest_of_encloses {c : F64} {x : ℝ} {lo hi : ℚ} (h : Encloses lo hi x) (hc : NearestOn c lo hi) :
    nearest c x := by
  obtain ⟨hlo, hhi⟩ := h
  obtain ⟨hclo, hchi⟩ := hc
  have hclo' : ((binary64Value c : ℚ) : ℝ) - (halfUlp c : ℝ) ≤ lo := by exact_mod_cast hclo
  have hchi' : (hi : ℝ) ≤ ((binary64Value c : ℚ) : ℝ) + (halfUlp c : ℝ) := by exact_mod_cast hchi
  rw [nearest_iff, abs_le]
  constructor <;> linarith

theorem binary64Value_neg (x : F64) : binary64Value (Binary64.neg x) = -binary64Value x := by
  rw [Binary64.binary64Value_eq, Binary64.binary64Value_eq, Binary64.sign_neg, Binary64.mant_neg, Binary64.scale_neg]
  cases Binary64.sign x <;> simp [Binary64.withSign]

theorem nearest.neg {c : F64} {x : ℝ} (h : nearest c x) : nearest (Binary64.neg c) (-x) := by
  rw [nearest, binary64Value_neg, Binary64.scale_neg, Rat.cast_neg, neg_sub_neg, abs_sub_comm]
  exact h

/-! ## Cosine lookups (R132) -/

theorem nearest_cosk {k : Nat} (hk : k < 8) : nearest (cosk k) (cosPi k) := by
  have hrom : ∀ k < 8, NearestOn (cosk k) (cosDecimals k / 10 ^ 22) ((cosDecimals k + 1) / 10 ^ 22) := by decide +kernel
  exact nearest_of_encloses (encloses_cosPi hk) (hrom k hk)

theorem cosPi_periodic : Function.Periodic cosPi 32 := fun k => by
  rw [show k + 32 = k + 16 + 16 by rfl, cosPi_add_sixteen, cosPi_add_sixteen, neg_neg]

/-- The angle of a lookup is never π/2 or 3π/2, since `2 * x + 1` is odd (R132). -/
theorem lookup_angle_ne : ∀ x < 8, ∀ u < 8, (2 * x + 1) * u % 32 ≠ 8 ∧ (2 * x + 1) * u % 32 ≠ 24 := by decide

theorem nearest_cosLookup {x u : Nat} (hx : x < 8) (hu : u < 8) : nearest (cosLookup x u) (exactCos x u) := by
  obtain ⟨hne8, hne24⟩ := lookup_angle_ne x hx u hu
  have hlt : (2 * x + 1) * u % 32 < 32 := Nat.mod_lt _ (by norm_num)
  rw [exactCos_eq_cosPi, ← cosPi_periodic.map_mod_nat, cosLookup]
  generalize (2 * x + 1) * u % 32 = a at *
  split_ifs with h7 h16 h23
  · exact nearest_cosk (by omega)
  · rw [cosPi_eq_neg_of_add_eq (show a + (16 - a) = 16 by omega)]
    exact (nearest_cosk (by omega)).neg
  · rw [show a = a - 16 + 16 by omega, cosPi_add_sixteen, Nat.add_sub_cancel]
    exact (nearest_cosk (by omega)).neg
  · rw [show a = a - 16 + 16 by omega, cosPi_add_sixteen, cosPi_eq_neg_of_add_eq (show a - 16 + (32 - a) = 16 by omega),
      neg_neg, show 32 - (a - 16 + 16) = 32 - a by omega]
    exact nearest_cosk (by omega)

/-! ## The constants of the datapaths (R131) -/

theorem normC_zero : normC 0 = cosPi 4 := by
  rw [normC, if_pos rfl, sqrt_two_eq, div_eq_iff (mul_pos two_pos (cosPi_pos (by norm_num))).ne']
  have h := sq_cosPi 4
  rw [cosPi_eight] at h
  linarith

theorem nearest_romH {k : Nat} (hk : k < 8) : nearest (romH k) (normC k / 2) := by
  obtain rfl | hpos := Nat.eq_zero_or_pos k
  · rw [normC_zero]
    exact nearest_of_encloses (encloses_cosPi (by norm_num)).half (by decide +kernel)
  · have hone : Encloses 1 1 (normC k) := by simp [Encloses, normC, hpos.ne']
    have hrom : ∀ k < 8, 0 < k → NearestOn (romH k) (1 / 2) (1 / 2) := by decide +kernel
    exact nearest_of_encloses hone.half (hrom k hk hpos)

/-- The scale of DSC[0] and PSC[0], C(0)/2 (R137). -/
theorem one_div_two_mul_sqrt_two : 1 / (2 * √2) = cosPi 4 / 2 := by
  rw [← normC_zero, normC, if_pos rfl]
  field_simp

theorem nearest_romDSC {k : Nat} (hk : k < 8) :
    nearest (romDSC k) (if k = 0 then 1 / (2 * √2) else 1 / (4 * cosPi k)) := by
  split_ifs with h0
  · rw [h0, one_div_two_mul_sqrt_two]
    exact nearest_of_encloses (encloses_cosPi (by norm_num)).half (by decide +kernel)
  · have hpos : ∀ k < 8, (0 : ℚ) < cosDecimals k / 10 ^ 22 := by decide +kernel
    have hrom : ∀ k < 8, k ≠ 0 → NearestOn (romDSC k) (1 / (4 * ((cosDecimals k + 1) / 10 ^ 22)))
        (1 / (4 * (cosDecimals k / 10 ^ 22))) := by decide +kernel
    exact nearest_of_encloses ((encloses_cosPi hk).one_div_four_mul (hpos k hk)) (hrom k hk h0)

theorem nearest_romPSC {k : Nat} (hk : k < 8) :
    nearest (romPSC k) (if k = 0 then 1 / (2 * √2) else cosPi k / 2) := by
  split_ifs with h0
  · rw [h0, one_div_two_mul_sqrt_two]
    exact nearest_of_encloses (encloses_cosPi (by norm_num)).half (by decide +kernel)
  · have hrom : ∀ k < 8, k ≠ 0 → NearestOn (romPSC k) (cosDecimals k / 10 ^ 22 / 2)
        ((cosDecimals k + 1) / 10 ^ 22 / 2) := by decide +kernel
    exact nearest_of_encloses (encloses_cosPi hk).half (hrom k hk h0)

/-- Settles O43, constant by constant. -/
theorem romConstantsAreNearest : Obligations.RomConstantsAreNearest := by
  have h2 := encloses_cosPi (k := 2) (by norm_num)
  have h4 := encloses_cosPi (k := 4) (by norm_num)
  have h6 := encloses_cosPi (k := 6) (by norm_num)
  refine ⟨fun x u hx hu => nearest_cosLookup hx hu,
    fun k hk => ⟨nearest_cosk hk, nearest_romH hk, nearest_romDSC hk, nearest_romPSC hk⟩,
    ?_, ?_, ?_, ?_, sqrt_two_eq ▸ ?_, ?_, ?_, ?_⟩
  · exact nearest_of_encloses h4 (by decide +kernel)
  · exact nearest_of_encloses (h2.sub h6) (by decide +kernel)
  · exact nearest_of_encloses h6 (by decide +kernel)
  · exact nearest_of_encloses (h2.add h6) (by decide +kernel)
  · exact nearest_of_encloses h4.two_mul (by decide +kernel)
  · exact nearest_of_encloses h2.two_mul (by decide +kernel)
  · exact nearest_of_encloses (h2.sub h6).two_mul (by decide +kernel)
  · exact nearest_of_encloses (h2.add h6).two_mul (by decide +kernel)

end Sys2Proof.Machine
end

section
/-! PROOFS. The merges of HBUILD (R152 to R158). The queue is kept in order, so each merge takes its two least pairs; a
code word of `d` bits needs a frequency of at least the Fibonacci number `d + 2`, so none is longer than 64 (R162). -/

namespace Sys2Proof.Machine

/-! ## The order of the queue (R153) -/

theorem before_iff {a b : QItem} :
    a.before b = true ↔ a.key.toNat < b.key.toNat ∨ (a.key.toNat = b.key.toNat ∧ a.id < b.id) := by
  simp [QItem.before, BitVec.lt_def, BitVec.toNat_inj]

theorem before_trans {a b c : QItem} (hab : a.before b = true) (hbc : b.before c = true) : a.before c = true := by
  rw [before_iff] at *
  omega

theorem before_of_not_before {a b : QItem} (hid : a.id ≠ b.id) (h : ¬ a.before b = true) : b.before a = true := by
  rw [before_iff] at *
  omega

theorem key_le_of_before {a b : QItem} (h : a.before b = true) : a.key.toNat ≤ b.key.toNat := by
  rw [before_iff] at h
  omega

/-- Inserting a pair with an id of its own keeps the queue in order (R153). -/
theorem pairwise_before_enqueue {x : QItem} {q : List QItem} (hq : q.Pairwise fun a b => a.before b = true)
    (hid : ∀ y ∈ q, x.id ≠ y.id) : (enqueue x q).Pairwise fun a b => a.before b = true := by
  induction q with
  | nil => exact List.pairwise_singleton _ _
  | cons y ys ih =>
    obtain ⟨hy, hys⟩ := List.pairwise_cons.1 hq
    rw [enqueue]
    split
    · rename_i hxy
      exact List.pairwise_cons.2 ⟨List.forall_mem_cons.2 ⟨hxy, fun z hz => before_trans hxy (hy z hz)⟩, hq⟩
    · rename_i hxy
      refine List.pairwise_cons.2 ⟨fun z hz => ?_, ih hys fun z hz => hid z (List.mem_cons_of_mem y hz)⟩
      rcases List.mem_cons.1 ((enqueue_perm x ys).mem_iff.1 hz) with rfl | hz
      · exact before_of_not_before (hid y List.mem_cons_self) hxy
      · exact hy z hz

/-- The queue HBUILD starts from is in order (R152, R153). -/
theorem pairwise_before_leafQueue (m : Memory) (bank : BitVec 2) {syms : List Nat} (hsyms : syms.Nodup) :
    (leafQueue m bank syms).Pairwise fun a b => a.before b = true := by
  induction syms with
  | nil => exact List.Pairwise.nil
  | cons sym rest ih =>
    obtain ⟨hsym, hrest⟩ := List.nodup_cons.1 hsyms
    refine pairwise_before_enqueue (ih hrest) fun y hy hid => hsym ?_
    obtain ⟨sym', hsym', rfl⟩ := List.mem_map.1 ((leafQueue_perm m bank rest).mem_iff.1 hy)
    exact (show sym = sym' from hid) ▸ hsym'

/-! ## The trees of the queue before a merge (R154) -/

/-- The two trees are the two least of the forest, the lesser first (R153, R154). -/
def LeastTwo (l r : HuffTree) (forest : List HuffTree) : Prop :=
  l ∈ forest ∧ r ∈ forest ∧ l.before r ∧ ∀ c ∈ forest, c ≠ l → c ≠ r → r.before c

/-- What `HuffTree.forestBefore` is of a tree, of a whole queue. -/
def queueForest (next : Nat) (q : List QItem) : List HuffTree := q.flatMap fun x => x.tree.forestBefore next

/-- The nodes of all trees of a queue. -/
def queueNodes (q : List QItem) : List HuffTree := q.flatMap fun x => x.tree.nodes

/-- The ids of the internal nodes of all trees of a queue. -/
def queueIds (q : List QItem) : List Nat := q.flatMap fun x => x.tree.internalIds

theorem LeastTwo.perm {l r : HuffTree} {forest forest' : List HuffTree} (h : LeastTwo l r forest)
    (hp : forest.Perm forest') : LeastTwo l r forest' := by
  obtain ⟨hl, hr, hlr, hleast⟩ := h
  exact ⟨hp.mem_iff.1 hl, hp.mem_iff.1 hr, hlr, fun c hc => hleast c (hp.mem_iff.2 hc)⟩

theorem forestBefore_of_ids_lt {t : HuffTree} {next : Nat} (h : ∀ id ∈ t.internalIds, id < next) :
    t.forestBefore next = [t] := by
  cases t with
  | leaf sym f => rfl
  | single id f l => exact if_pos (h id List.mem_cons_self)
  | node id f l r => exact if_pos (h id List.mem_cons_self)

theorem id_mem_internalIds {t : HuffTree} {id : Nat} {f : BitVec 40} {l r : HuffTree}
    (h : HuffTree.node id f l r ∈ t.nodes) : id ∈ t.internalIds := by
  induction t with
  | leaf sym f => simp [HuffTree.nodes] at h
  | single id' f' l' ih =>
    simp only [HuffTree.nodes, List.mem_cons, reduceCtorEq, false_or] at h
    exact List.mem_cons_of_mem _ (ih h)
  | node id' f' l' r' ihl ihr =>
    simp only [HuffTree.nodes, List.mem_cons, List.mem_append, HuffTree.node.injEq] at h
    simp only [HuffTree.internalIds, List.mem_cons, List.mem_append]
    rcases h with ⟨hid, -⟩ | h | h
    · exact .inl hid
    · exact .inr (.inl (ihl h))
    · exact .inr (.inr (ihr h))

theorem queueForest_eq_trees {q : List QItem} {next : Nat} (h : ∀ id ∈ queueIds q, id < next) :
    queueForest next q = q.map QItem.tree := by
  rw [queueForest, List.map_eq_flatMap]
  exact List.flatMap_congr fun x hx => forestBefore_of_ids_lt fun id hid => h id (List.mem_flatMap.2 ⟨x, hx, hid⟩)

/-- A merge leaves the forests before earlier merges as they were. -/
theorem queueForest_merged {k next : Nat} (hk : k ≤ next) (x y : QItem) (rest : List QItem) :
    queueForest k (merged next x y :: rest) = queueForest k (x :: y :: rest) := by
  have hnew : (merged next x y).tree.forestBefore k = x.tree.forestBefore k ++ y.tree.forestBefore k :=
    if_neg (Nat.not_lt.2 hk)
  simp only [queueForest, List.flatMap_cons, hnew, List.append_assoc]

/-! ## What every merge keeps -/

/-- The queue after `k` merges on an alphabet with the leaves `leaves`: in order, its pairs named by their ids, the
internal ids 256 to 255 + k used, every merge of the two least pairs, and no frequency too small for its depth. -/
structure MergeInv (leaves : List (Byte × BitVec 32)) (k : Nat) (q : List QItem) : Prop extends QueueInv leaves q where
  sorted : q.Pairwise fun a b => a.before b = true
  named : ∀ x ∈ q, x.tree.nodeId = x.id
  id_lt : ∀ x ∈ q, x.id < 256 + k
  last : k ≠ 0 → ∃ x ∈ q, x.id + 1 = 256 + k
  ids_perm : (queueIds q).Perm ((List.range k).map (256 + ·))
  least : ∀ id f l r, HuffTree.node id f l r ∈ queueNodes q → LeastTwo l r (queueForest id q)
  deep : ∀ x ∈ q, ∀ p ∈ x.tree.codeWords,
    Nat.fib (p.2.length + 2) ≤ x.key.toNat ∧ ∀ y ∈ q, Nat.fib (p.2.length + 1) ≤ y.key.toNat

section
variable {leaves : List (Byte × BitVec 32)} {k : Nat} {x y : QItem} {q rest : List QItem}

theorem MergeInv.queueIds_lt (h : MergeInv leaves k q) : ∀ id ∈ queueIds q, id < 256 + k := by
  intro id hid
  obtain ⟨j, hj, rfl⟩ := List.mem_map.1 (h.ids_perm.mem_iff.1 hid)
  exact Nat.add_lt_add_left (List.mem_range.1 hj) 256

theorem MergeInv.before_tree (h : MergeInv leaves k q) (hx : x ∈ q) (hy : y ∈ q) (hxy : x.before y = true) :
    x.tree.before y.tree := by
  rw [HuffTree.before, (h.sound x hx).freq, (h.sound y hy).freq, h.named x hx, h.named y hy]
  exact before_iff.1 hxy

theorem QueueInv.toNat_key_merged (h : QueueInv leaves (x :: y :: rest)) {id : Nat} (hid : 256 ≤ id) :
    (merged id x y).key.toNat = x.key.toNat + y.key.toNat := by
  have hsums := ((h.merge hid).sound _ List.mem_cons_self).sums
  rw [← (h.sound x (by simp)).freq, ← (h.sound y (by simp)).freq]
  exact hsums.1

/-- What the order says of a queue's first two pairs. -/
theorem MergeInv.front_sorted (h : MergeInv leaves k (x :: y :: rest)) : x.before y = true ∧
    (∀ z ∈ rest, y.before z = true) ∧ rest.Pairwise fun a b => a.before b = true := by
  obtain ⟨hx, hsorted⟩ := List.pairwise_cons.1 h.sorted
  exact ⟨hx y List.mem_cons_self, List.pairwise_cons.1 hsorted⟩

/-- The two pairs at the front of the queue are its least (R154). -/
theorem MergeInv.leastTwo_front (h : MergeInv leaves k (x :: y :: rest)) :
    LeastTwo x.tree y.tree ((x :: y :: rest).map QItem.tree) := by
  obtain ⟨hxy, hy, -⟩ := h.front_sorted
  refine ⟨by simp, by simp, h.before_tree (by simp) (by simp) hxy, fun c hc hcx hcy => ?_⟩
  simp only [List.map_cons, List.mem_cons, hcx, hcy, false_or] at hc
  obtain ⟨z, hz, rfl⟩ := List.mem_map.1 hc
  exact h.before_tree (by simp) (by simp [hz]) (hy z hz)

theorem MergeInv.least_merged (h : MergeInv leaves k (x :: y :: rest)) :
    ∀ id f l r, HuffTree.node id f l r ∈ queueNodes (merged (256 + k) x y :: rest) →
      LeastTwo l r (queueForest id (merged (256 + k) x y :: rest)) := by
  intro id f l r hnode
  have hcases : HuffTree.node id f l r = (merged (256 + k) x y).tree ∨
      HuffTree.node id f l r ∈ queueNodes (x :: y :: rest) := by
    simpa [queueNodes, merged, HuffTree.nodes, or_assoc] using hnode
  rcases hcases with hnew | hold
  · cases hnew
    rw [queueForest_merged (Nat.le_refl _), queueForest_eq_trees h.queueIds_lt]
    exact h.leastTwo_front
  · obtain ⟨z, hz, hin⟩ := List.mem_flatMap.1 hold
    have hlt := h.queueIds_lt id (List.mem_flatMap.2 ⟨z, hz, id_mem_internalIds hin⟩)
    rw [queueForest_merged hlt.le]
    exact h.least id f l r hold

/-- The merge adds a bit to the code words of its two trees, and the key of each to the other's (R154, R162). -/
theorem MergeInv.fib_le_of_front (h : MergeInv leaves k (x :: y :: rest)) {p : Byte × List Bool}
    (hp : p ∈ x.tree.codeWords ∨ p ∈ y.tree.codeWords) :
    Nat.fib (p.2.length + 2) ≤ y.key.toNat ∧ Nat.fib (p.2.length + 3) ≤ x.key.toNat + y.key.toNat := by
  have hxy : x.key.toNat ≤ y.key.toNat := key_le_of_before h.front_sorted.1
  have hfib : Nat.fib (p.2.length + 3) = Nat.fib (p.2.length + 1) + Nat.fib (p.2.length + 2) := Nat.fib_add_two
  rcases hp with hp | hp
  · obtain ⟨hown, hall⟩ := h.deep x (by simp) p hp
    have := hall y (by simp)
    omega
  · obtain ⟨hown, hall⟩ := h.deep y (by simp) p hp
    have := hall x (by simp)
    omega

theorem MergeInv.deep_merged (h : MergeInv leaves k (x :: y :: rest)) :
    ∀ z ∈ merged (256 + k) x y :: rest, ∀ p ∈ z.tree.codeWords, Nat.fib (p.2.length + 2) ≤ z.key.toNat ∧
      ∀ w ∈ merged (256 + k) x y :: rest, Nat.fib (p.2.length + 1) ≤ w.key.toNat := by
  have hkey := h.toNat_key_merged (Nat.le_add_right 256 k)
  obtain ⟨-, hy, -⟩ := h.front_sorted
  intro z hz p hp
  rcases List.mem_cons.1 hz with rfl | hz
  · obtain ⟨p', hp', hlen⟩ : ∃ p' : Byte × List Bool,
        (p' ∈ x.tree.codeWords ∨ p' ∈ y.tree.codeWords) ∧ p.2.length = p'.2.length + 1 := by
      simp only [merged, HuffTree.codeWords, List.mem_append, List.mem_map] at hp
      rcases hp with ⟨p', hp', rfl⟩ | ⟨p', hp', rfl⟩
      · exact ⟨p', .inl hp', rfl⟩
      · exact ⟨p', .inr hp', rfl⟩
    obtain ⟨hleast, hsum⟩ := h.fib_le_of_front hp'
    rw [hlen, hkey]
    refine ⟨hsum, List.forall_mem_cons.2 ⟨?_, fun w hw => hleast.trans (key_le_of_before (hy w hw))⟩⟩
    exact hkey.symm ▸ hleast.trans (Nat.le_add_left _ _)
  · obtain ⟨hown, hall⟩ := h.deep z (by simp [hz]) p hp
    refine ⟨hown, List.forall_mem_cons.2 ⟨?_, fun w hw => hall w (by simp [hw])⟩⟩
    have := hall x (by simp)
    omega

theorem MergeInv.ids_perm_merged (h : MergeInv leaves k (x :: y :: rest)) :
    (queueIds (merged (256 + k) x y :: rest)).Perm ((List.range (k + 1)).map (256 + ·)) := by
  have hids : queueIds (merged (256 + k) x y :: rest) = (256 + k) :: queueIds (x :: y :: rest) := by
    simp [queueIds, merged, HuffTree.internalIds]
  rw [hids, List.range_succ, List.map_append]
  exact (h.ids_perm.cons _).trans (List.perm_append_singleton _ _).symm

/-- Every merge keeps the invariant (R154, R155). -/
theorem MergeInv.merge_enqueue (h : MergeInv leaves k (x :: y :: rest)) :
    MergeInv leaves (k + 1) (enqueue (merged (256 + k) x y) rest) := by
  have hperm := (enqueue_perm (merged (256 + k) x y) rest).symm
  have hmem : ∀ {z}, z ∈ enqueue (merged (256 + k) x y) rest → z ∈ merged (256 + k) x y :: rest := hperm.mem_iff.2
  obtain ⟨-, -, hrest⟩ := h.front_sorted
  have hlt : ∀ z ∈ rest, z.id < 256 + k := fun z hz => h.id_lt z (by simp [hz])
  constructor
  case toQueueInv => exact (h.toQueueInv.merge (Nat.le_add_right 256 k)).perm hperm
  case sorted => exact pairwise_before_enqueue hrest fun z hz => (hlt z hz).ne'
  case named =>
    intro z hz
    rcases List.mem_cons.1 (hmem hz) with rfl | hz
    · rfl
    · exact h.named z (by simp [hz])
  case id_lt =>
    intro z hz
    rcases List.mem_cons.1 (hmem hz) with rfl | hz
    · exact Nat.lt_succ_self _
    · exact (hlt z hz).trans (Nat.lt_succ_self _)
  case last => exact fun _ => ⟨_, hperm.mem_iff.1 List.mem_cons_self, rfl⟩
  case ids_perm => exact (hperm.symm.flatMap_right _).trans h.ids_perm_merged
  case least =>
    intro id f l r hnode
    exact (h.least_merged id f l r ((hperm.symm.flatMap_right _).mem_iff.1 hnode)).perm (hperm.flatMap_right _)
  case deep =>
    intro z hz p hp
    obtain ⟨hown, hall⟩ := h.deep_merged z (hmem hz) p hp
    exact ⟨hown, fun w hw => hall w (hmem hw)⟩

/-- Merging until one pair is left ends with the tree of a pair that meets the invariant alone (R154). -/
theorem MergeInv.exists_last (n : Nat) (hn : q.length = n) (h : MergeInv leaves k (x :: q)) :
    ∃ z, mergeAll n (256 + k) x q = z.tree ∧ MergeInv leaves (k + n) [z] := by
  induction n generalizing k x q with
  | zero =>
    cases List.eq_nil_of_length_eq_zero hn
    exact ⟨x, rfl, h⟩
  | succ n ih =>
    cases q with
    | nil => exact absurd hn (by simp)
    | cons y rest =>
      have hmerge := h.merge_enqueue
      have hlen := length_enqueue (merged (256 + k) x y) rest
      rw [mergeAll]
      cases hq : enqueue (merged (256 + k) x y) rest with
      | nil => rw [hq] at hlen; exact absurd hlen (by simp)
      | cons z zs =>
        rw [hq] at hmerge hlen
        simp only [List.length_cons, Nat.add_right_cancel_iff] at hn hlen
        rw [show k + (n + 1) = k + 1 + n by omega]
        exact ih (hlen.trans hn) hmerge

theorem MergeInv.mergesLeast (h : MergeInv leaves k [x]) : x.tree.mergesLeast := by
  intro id f l r hnode
  have hleast := h.least id f l r (List.mem_append_left [] hnode)
  rwa [queueForest, List.flatMap_singleton] at hleast

end

/-- The invariant holds before the first merge: every count is at least 1 (R152). -/
theorem mergeInv_leafQueue (m : Memory) (bank : BitVec 2) :
    MergeInv (alphabetLeaves m bank) 0 (leafQueue m bank (m.alphabet bank)) := by
  have hitem : ∀ x ∈ leafQueue m bank (m.alphabet bank),
      ∃ sym < 256, m.freq bank sym ≠ 0#32 ∧ leafItem m bank sym = x := by
    intro x hx
    obtain ⟨sym, hsym, rfl⟩ := List.mem_map.1 ((leafQueue_perm m bank _).mem_iff.1 hx)
    exact ⟨sym, (mem_alphabet.1 hsym).1, (mem_alphabet.1 hsym).2, rfl⟩
  have hkey : ∀ x ∈ leafQueue m bank (m.alphabet bank), 1 ≤ x.key.toNat := by
    intro x hx
    obtain ⟨sym, -, hfreq, rfl⟩ := hitem x hx
    rw [toNat_key_leafItem]
    exact Nat.pos_of_ne_zero fun h => hfreq (BitVec.eq_of_toNat_eq h)
  constructor
  case toQueueInv => exact leafQueue_inv m bank
  case sorted => exact pairwise_before_leafQueue m bank (nodup_alphabet m bank)
  case named =>
    intro x hx
    obtain ⟨sym, hlt, -, rfl⟩ := hitem x hx
    exact Nat.mod_eq_of_lt hlt
  case id_lt =>
    intro x hx
    obtain ⟨sym, hlt, -, rfl⟩ := hitem x hx
    exact hlt
  case last => exact fun h => absurd rfl h
  case ids_perm =>
    refine .of_eq (List.flatMap_eq_nil_iff.2 fun x hx => ?_)
    obtain ⟨sym, -, -, rfl⟩ := hitem x hx
    rfl
  case least =>
    intro id f l r hnode
    obtain ⟨x, hx, hin⟩ := List.mem_flatMap.1 hnode
    obtain ⟨sym, -, -, rfl⟩ := hitem x hx
    simp [leafItem, HuffTree.nodes] at hin
  case deep =>
    intro x hx p hp
    have hpath : p.2 = [] := by
      obtain ⟨sym, -, -, rfl⟩ := hitem x hx
      rw [List.mem_singleton.1 hp]
    rw [hpath]
    exact ⟨hkey x hx, hkey⟩

/-! ## HBUILD's tree (R152) -/

theorem length_leafQueue (m : Memory) (bank : BitVec 2) :
    (leafQueue m bank (m.alphabet bank)).length = (m.alphabet bank).length := by
  rw [(leafQueue_perm m bank _).length_eq, List.length_map]

theorem alphabet_singleton_or_two_le {m : Memory} {bank : BitVec 2} (h : ∃ sym < 256, m.freq bank sym ≠ 0#32) :
    (∃ sym, m.alphabet bank = [sym]) ∨ 2 ≤ (m.alphabet bank).length := by
  obtain ⟨sym, hsym⟩ := h
  have hpos := List.length_pos_of_mem (mem_alphabet.2 hsym)
  rw [← List.length_eq_one_iff]
  omega

theorem alphabet_eq_nil {m : Memory} {bank : BitVec 2} (h : ∀ sym < 256, m.freq bank sym = 0#32) :
    m.alphabet bank = [] :=
  List.eq_nil_iff_forall_not_mem.2 fun sym hsym => (mem_alphabet.1 hsym).2 (h sym (mem_alphabet.1 hsym).1)

theorem buildTree_of_alphabet_nil {m : Memory} {bank : BitVec 2} (h : m.alphabet bank = []) :
    buildTree m bank = none := by
  rw [buildTree, h]
  rfl

/-- One symbol gives the synthetic root (R156). -/
theorem buildTree_of_alphabet_singleton {m : Memory} {bank : BitVec 2} {sym : Nat} (h : m.alphabet bank = [sym]) :
    buildTree m bank =
      some (.single 256 ((m.freq bank sym).setWidth 40) (.leaf (BitVec.ofNat 8 sym) (m.freq bank sym))) := by
  rw [buildTree, h]
  rfl

/-- Two symbols or more give the tree of the pair that `n - 1` merges leave (R154). -/
theorem buildTree_of_two_le {m : Memory} {bank : BitVec 2} (h : 2 ≤ (m.alphabet bank).length) :
    ∃ z, buildTree m bank = some z.tree ∧ MergeInv (alphabetLeaves m bank) ((m.alphabet bank).length - 1) [z] := by
  have hinv := mergeInv_leafQueue m bank
  have hlen := length_leafQueue m bank
  unfold buildTree
  generalize leafQueue m bank (m.alphabet bank) = q at hinv hlen
  match q with
  | [] | [_] => simp at hlen; omega
  | x :: y :: rest =>
    obtain ⟨z, hz, hend⟩ := hinv.exists_last (rest.length + 1) rfl
    refine ⟨z, congrArg some hz, ?_⟩
    rwa [← hlen, List.length_cons, List.length_cons, Nat.add_sub_cancel, ← Nat.zero_add (rest.length + 1)]

theorem exists_buildTree {m : Memory} {bank : BitVec 2} (h : ∃ sym < 256, m.freq bank sym ≠ 0#32) :
    ∃ root, buildTree m bank = some root := by
  rcases alphabet_singleton_or_two_le h with ⟨sym, hsym⟩ | hlen
  · exact ⟨_, buildTree_of_alphabet_singleton hsym⟩
  · obtain ⟨z, hz, -⟩ := buildTree_of_two_le hlen
    exact ⟨z.tree, hz⟩

/-- A full tree's frequency is the sum of its leaves' counts (R157). -/
theorem freq_eq_sum_counts {t : HuffTree} (hfull : t.full) (hsums : t.sums) :
    t.freq = (t.leaves.map fun p => p.2.toNat).sum := by
  induction t with
  | leaf sym f => simp [HuffTree.freq, HuffTree.leaves]
  | single id f l => exact hfull.elim
  | node id f l r ihl ihr =>
    obtain ⟨hl, hr⟩ := hfull
    obtain ⟨hf, hsl, hsr⟩ := hsums
    rw [HuffTree.leaves, List.map_append, List.sum_append, ← ihl hl hsl, ← ihr hr hsr]
    exact hf

theorem ordered_of_before {t : HuffTree} (h : ∀ id f l r, HuffTree.node id f l r ∈ t.nodes → l.before r) :
    t.ordered := by
  induction t with
  | leaf sym f => trivial
  | single id f l ih => exact ih fun id f l r hin => h id f l r (by simp [HuffTree.nodes, hin])
  | node id f l r ihl ihr =>
    exact ⟨h id f l r (by simp [HuffTree.nodes]), ihl fun id f l r hin => h id f l r (by simp [HuffTree.nodes, hin]),
      ihr fun id f l r hin => h id f l r (by simp [HuffTree.nodes, hin])⟩

/-- A merge always puts the lesser tree on the left (R155). -/
theorem HuffTree.mergesLeast.ordered {t : HuffTree} (h : t.mergesLeast) : t.ordered :=
  ordered_of_before fun id f l r hnode =>
    have ⟨_, _, hlr, _⟩ := h id f l r hnode
    hlr

/-- No code word of HBUILD is longer than 64, since no frequency reaches 2^40 (R157, R162). -/
theorem length_codeWord_le {m : Memory} {bank : BitVec 2} {root : HuffTree} (h : buildTree m bank = some root)
    (hsome : ∃ sym < 256, m.freq bank sym ≠ 0#32) : ∀ p ∈ root.codeWords, p.2.length ≤ 64 := by
  rcases alphabet_singleton_or_two_le hsome with ⟨sym, hsym⟩ | hlen
  · rw [buildTree_of_alphabet_singleton hsym] at h
    cases h
    simp [HuffTree.codeWords]
  · obtain ⟨z, hz, hinv⟩ := buildTree_of_two_le hlen
    cases hz.symm.trans h
    intro p hp
    by_contra hlong
    have hfib : Nat.fib 60 ≤ Nat.fib (p.2.length + 2) := Nat.fib_mono (by omega)
    have hval : 2 ^ 40 < Nat.fib 60 := by norm_num
    have hdeep := (hinv.deep z (by simp) p hp).1
    have hkey := z.key.isLt
    omega

/-! ## HBUILD -/

theorem bankOk_of_ne_three {bank : BitVec 2} (h : bank ≠ 3#2) : bankOk bank = true :=
  Bool.eq_true_of_not_eq_false fun hbank => h ((bankOk_eq_false_iff bank).1 hbank)

theorem exec_hbuild_some {s : State} {bank : BitVec 2} {root : HuffTree} (hbank : bank ≠ 3#2)
    (h : buildTree s.mem bank = some root) :
    exec (.hbuild bank) s = .next (complete { s with tree := some ⟨bank, root⟩ }) := by
  simp only [exec, execHbuild, bankOk_of_ne_three hbank, if_true, h]

theorem exec_hbuild_none {s : State} {bank : BitVec 2} (hbank : bank ≠ 3#2) (h : buildTree s.mem bank = none) :
    exec (.hbuild bank) s = .next (raise .emptyAlphabet Op.hbuild s) := by
  simp only [exec, execHbuild, bankOk_of_ne_three hbank, if_true, h]

/-- Settles O17: an empty alphabet has no tree. -/
theorem hbuildOfNoSymbolsRaisesEmptyAlphabet : Obligations.HbuildOfNoSymbolsRaisesEmptyAlphabet := by
  intro s t ht hzero
  exact exec_hbuild_none ht (buildTree_of_alphabet_nil (alphabet_eq_nil hzero))

/-- Settles O15: the synthetic root of one symbol, or the last pair of the queue. -/
theorem hbuildBuildsATreeOfTheAlphabet : Obligations.HbuildBuildsATreeOfTheAlphabet := by
  intro s t ht hsome
  rcases alphabet_singleton_or_two_le hsome with ⟨sym, hsym⟩ | hlen
  · have hroot := buildTree_of_alphabet_singleton hsym
    refine ⟨_, exec_hbuild_some ht hroot, ?_⟩
    change List.Perm _ ((s.mem.alphabet t).map _) ∧ _ ∧ (2 ≤ (s.mem.alphabet t).length → _)
    rw [hsym]
    exact ⟨.refl _, built_of_buildTree hroot, fun h => absurd h (by simp)⟩
  · obtain ⟨z, hroot, hinv⟩ := buildTree_of_two_le hlen
    have hz := List.mem_singleton_self z
    have hsound := hinv.sound z hz
    have hleaves : z.tree.leaves.Perm (alphabetLeaves s.mem t) := by simpa [queueLeaves] using hinv.leaves_perm
    refine ⟨z.tree, exec_hbuild_some ht hroot, hleaves, built_of_buildTree hroot, fun _ => ⟨?_, hsound.full, ?_⟩⟩
    · obtain ⟨w, hw, hid⟩ := hinv.last (by omega)
      rw [List.mem_singleton.1 hw] at hid
      rw [hinv.named z hz]
      change z.id = 256 + (s.mem.alphabet t).length - 2
      omega
    · rw [freq_eq_sum_counts hsound.full hsound.sums, (hleaves.map _).sum_eq, alphabetLeaves, List.map_map]
      rfl

/-- Settles O16: every merge of the last pair's tree took the two least pairs of an ordered queue. -/
theorem hbuildMergesTheTwoLeastNodes : Obligations.HbuildMergesTheTwoLeastNodes := by
  intro s t ht hsome
  rcases alphabet_singleton_or_two_le hsome with ⟨sym, hsym⟩ | hlen
  · refine ⟨_, _, exec_hbuild_some ht (buildTree_of_alphabet_singleton hsym), rfl, ?_, trivial, ?_⟩
    · intro id f l r hnode
      simp [HuffTree.nodes] at hnode
    · change List.Perm _ ((List.range (max 1 ((s.mem.alphabet t).length - 1))).map _)
      rw [hsym]
      exact .refl _
  · obtain ⟨z, hroot, hinv⟩ := buildTree_of_two_le hlen
    have hleast := hinv.mergesLeast
    refine ⟨_, z.tree, exec_hbuild_some ht hroot, rfl, hleast, hleast.ordered, ?_⟩
    change List.Perm _ ((List.range (max 1 ((s.mem.alphabet t).length - 1))).map _)
    rw [Nat.max_eq_right (by omega)]
    simpa [queueIds] using hinv.ids_perm

end Sys2Proof.Machine
end

section
/-! PROOFS. HTABLE (R160 to R163). The walk writes each leaf the entry of its path, or stops at a path longer than 64;
no path of a tree starts another, and a full tree's meet Kraft's equality. -/

namespace Sys2Proof.Machine

/-! ## Paths and their codes (R161) -/

theorem bitsValue_concat (path : List Bool) (b : Bool) : bitsValue (path ++ [b]) = 2 * bitsValue path + b.toNat := by
  simp [bitsValue]

/-- The code of a path, in the 64 bits of CODE (R42). -/
def pathCode (path : List Bool) : BitVec 64 := BitVec.ofNat 64 (bitsValue path)

theorem pathCode_left (path : List Bool) : pathCode path <<< 1 = pathCode (path ++ [false]) := by
  apply BitVec.eq_of_toNat_eq
  simp only [pathCode, bitsValue_concat, BitVec.toNat_shiftLeft, BitVec.toNat_ofNat, Nat.shiftLeft_eq, Bool.toNat_false]
  omega

theorem pathCode_right (path : List Bool) : pathCode path <<< 1 ||| 1#64 = pathCode (path ++ [true]) := by
  have hlow : (pathCode (path ++ [false])).toNat = 2 ^ 1 * (bitsValue path % 2 ^ 63) := by
    simp only [pathCode, bitsValue_concat, BitVec.toNat_ofNat, Bool.toNat_false]
    omega
  apply BitVec.eq_of_toNat_eq
  rw [pathCode_left, BitVec.toNat_or, hlow, BitVec.toNat_ofNat, Nat.one_mod_two_pow (by decide),
    ← Nat.two_pow_add_eq_or_of_lt (by decide)]
  simp only [pathCode, bitsValue_concat, BitVec.toNat_ofNat, Bool.toNat_true]
  omega

/-- The entry of the leaf at the end of a path. -/
def pathEntry (path : List Bool) : LutEntry := ⟨pathCode path, BitVec.ofNat 7 path.length, true⟩

/-! ## The walk (R160) -/

/-- The walk of the tree at the end of `path`. -/
def walkAt (path : List Bool) (t : HuffTree) (table : List LutEntry) : Except ErrCode (List LutEntry) :=
  walk t (pathCode path) path.length table

/-- No leaf of the tree at the end of `path` lies deeper than 64. -/
def Fits (path : List Bool) (t : HuffTree) : Prop := ∀ p ∈ t.codeWords, (path ++ p.2).length ≤ 64

/-- The table with the entries of the code words below the node at the end of `path`. -/
def setEntries (path : List Bool) (words : List (Byte × List Bool)) (table : List LutEntry) : List LutEntry :=
  words.foldl (fun table p => table.set p.1.toNat (pathEntry (path ++ p.2))) table

theorem setEntries_cons (path : List Bool) (p : Byte × List Bool) (words : List (Byte × List Bool))
    (table : List LutEntry) : setEntries path (p :: words) table =
      setEntries path words (table.set p.1.toNat (pathEntry (path ++ p.2))) := rfl

theorem setEntries_append (path : List Bool) (words words' : List (Byte × List Bool)) (table : List LutEntry) :
    setEntries path (words ++ words') table = setEntries path words' (setEntries path words table) :=
  List.foldl_append

theorem setEntries_map_cons (path : List Bool) (b : Bool) (words : List (Byte × List Bool)) (table : List LutEntry) :
    setEntries path (words.map fun p => (p.1, b :: p.2)) table = setEntries (path ++ [b]) words table := by
  simp [setEntries, List.foldl_map]

variable {path : List Bool} {id : Nat} {f : BitVec 40} {l r t : HuffTree} {table : List LutEntry}

theorem walkAt_single : walkAt path (.single id f l) table = walkAt (path ++ [false]) l table := by
  simp [walkAt, walk, pathCode_left]

theorem walkAt_node : walkAt path (.node id f l r) table =
    (walkAt (path ++ [false]) l table).bind fun table' => walkAt (path ++ [true]) r table' := by
  simp only [walkAt, walk, List.length_append, List.length_singleton]
  rw [pathCode_right, pathCode_left]
  cases walk l (pathCode (path ++ [false])) (path.length + 1) table <;> rfl

theorem fits_single : Fits path (.single id f l) ↔ Fits (path ++ [false]) l := by
  simp only [Fits, HuffTree.codeWords, List.forall_mem_map, List.append_assoc, List.singleton_append]

theorem fits_node : Fits path (.node id f l r) ↔ Fits (path ++ [false]) l ∧ Fits (path ++ [true]) r := by
  simp only [Fits, HuffTree.codeWords, List.forall_mem_append, List.forall_mem_map, List.append_assoc,
    List.singleton_append]

theorem walkAt_of_fits (h : Fits path t) : walkAt path t table = .ok (setEntries path t.codeWords table) := by
  induction t generalizing path table with
  | leaf sym f =>
    have hlen : ¬ Config.maxCodeLen < path.length := by simpa [Fits, HuffTree.codeWords, Config.maxCodeLen] using h
    simp [walkAt, walk, HuffTree.codeWords, setEntries, pathEntry, hlen]
  | single id f l ih => rw [walkAt_single, ih (fits_single.1 h), HuffTree.codeWords, setEntries_map_cons]
  | node id f l r ihl ihr =>
    obtain ⟨hl, hr⟩ := fits_node.1 h
    rw [walkAt_node, ihl hl, Except.bind, ihr hr, HuffTree.codeWords, setEntries_append, setEntries_map_cons,
      setEntries_map_cons]

theorem walkAt_of_not_fits (h : ¬ Fits path t) : walkAt path t table = .error .codeTooLong := by
  induction t generalizing path table with
  | leaf sym f =>
    have hlen : Config.maxCodeLen < path.length := by simpa [Fits, HuffTree.codeWords, Config.maxCodeLen] using h
    simp [walkAt, walk, hlen]
  | single id f l ih => rw [walkAt_single, ih (fits_single.not.1 h)]
  | node id f l r ihl ihr =>
    rw [walkAt_node]
    by_cases hl : Fits (path ++ [false]) l
    · rw [walkAt_of_fits hl, Except.bind, ihr fun hr => h (fits_node.2 ⟨hl, hr⟩)]
    · rw [ihl hl, Except.bind]

/-! ## The table (R160) -/

/-- The entries of a table with every code word of a tree in it. -/
def filledTable (root : HuffTree) : List LutEntry :=
  setEntries [] root.codeWords (List.replicate Config.nsym LutEntry.empty)

theorem codeTable_of_fits {root : HuffTree} (h : ∀ p ∈ root.codeWords, p.2.length ≤ 64) :
    codeTable root = .ok (filledTable root) :=
  walkAt_of_fits (path := []) h

theorem codeTable_of_long {root : HuffTree} (h : ∃ p ∈ root.codeWords, 64 < p.2.length) :
    codeTable root = .error .codeTooLong := by
  obtain ⟨p, hp, hlong⟩ := h
  exact walkAt_of_not_fits (path := []) fun hfits => Nat.not_lt.2 (hfits p hp) hlong

theorem fits_of_codeTable_ok {root : HuffTree} {table : List LutEntry} (h : codeTable root = .ok table) :
    ∀ p ∈ root.codeWords, p.2.length ≤ 64 := by
  by_contra hlong
  push Not at hlong
  rw [codeTable_of_long hlong] at h
  cases h

theorem map_fst_codeWords (t : HuffTree) : t.codeWords.map Prod.fst = t.leaves.map Prod.fst := by
  induction t with
  | leaf sym f => rfl
  | single id f l ih => simpa [HuffTree.codeWords, HuffTree.leaves, Function.comp_def] using ih
  | node id f l r ihl ihr =>
    simpa [HuffTree.codeWords, HuffTree.leaves, Function.comp_def] using congrArg₂ (· ++ ·) ihl ihr

theorem length_setEntries (words : List (Byte × List Bool)) : (setEntries path words table).length = table.length := by
  induction words generalizing table with
  | nil => rfl
  | cons p words ih => rw [setEntries_cons, ih, List.length_set]

/-- A symbol without a code word keeps its entry. -/
theorem getElem?_setEntries_of_not_mem {words : List (Byte × List Bool)} {sym : Nat}
    (h : ∀ p ∈ words, p.1.toNat ≠ sym) : (setEntries path words table)[sym]? = table[sym]? := by
  induction words generalizing table with
  | nil => rfl
  | cons p words ih =>
    obtain ⟨hp, hwords⟩ := List.forall_mem_cons.1 h
    rw [setEntries_cons, ih hwords, List.getElem?_set_ne hp]

/-- A symbol with one code word has its entry. -/
theorem getElem?_setEntries_of_mem {words : List (Byte × List Bool)} {p : Byte × List Bool}
    (hnodup : (words.map Prod.fst).Nodup) (hp : p ∈ words) (hlen : table.length = 256) :
    (setEntries path words table)[p.1.toNat]? = some (pathEntry (path ++ p.2)) := by
  induction words generalizing table with
  | nil => simp at hp
  | cons q words ih =>
    obtain ⟨hq, hwords⟩ := List.nodup_cons.1 hnodup
    rw [setEntries_cons]
    rcases List.mem_cons.1 hp with rfl | hp
    · rw [getElem?_setEntries_of_not_mem fun q hin heq => hq ?_, List.getElem?_set_self (hlen ▸ p.1.isLt)]
      exact BitVec.eq_of_toNat_eq heq ▸ List.mem_map_of_mem hin
    · exact ih hwords hp (by rw [List.length_set, hlen])

variable {root : HuffTree}

theorem getElem?_filledTable_of_mem {p : Byte × List Bool} (hnodup : (root.leaves.map Prod.fst).Nodup)
    (hp : p ∈ root.codeWords) : (filledTable root)[p.1.toNat]? = some (pathEntry p.2) :=
  getElem?_setEntries_of_mem (path := []) ((map_fst_codeWords root).symm ▸ hnodup) hp List.length_replicate

theorem getElem?_filledTable_of_not_mem {sym : Nat} (hsym : sym < 256) (h : ∀ p ∈ root.codeWords, p.1.toNat ≠ sym) :
    (filledTable root)[sym]? = some LutEntry.empty := by
  rw [filledTable, getElem?_setEntries_of_not_mem h, List.getElem?_replicate_of_lt (show sym < Config.nsym from hsym)]

theorem length_filledTable (root : HuffTree) : (filledTable root).length = 256 := by
  rw [filledTable, length_setEntries, List.length_replicate, Config.nsym]

/-! ## HTABLE -/

theorem exec_htable_ok {s : State} {tree : BuiltTree} {table : List LutEntry} (htree : s.tree = some tree)
    (h : codeTable tree.root = .ok table) :
    exec .htable s = .next (complete { s with mem := s.mem.writeLut tree.bank table }) := by
  simp only [exec, execHtable, htree, h]

theorem exec_htable_error {s : State} {tree : BuiltTree} {e : ErrCode} (htree : s.tree = some tree)
    (h : codeTable tree.root = .error e) : exec .htable s = .next (raise e Op.htable s) := by
  simp only [exec, execHtable, htree, h]

theorem exec_htable_noTree {s : State} (htree : s.tree = none) :
    exec .htable s = .next (raise .noTree Op.htable s) := by
  simp only [exec, execHtable, htree]

/-- Settles O18: the table with every code word in it is written to the tree's bank. -/
theorem htableWritesTheCodeTable : Obligations.HtableWritesTheCodeTable := by
  intro s tree htree hnodup hfits
  refine ⟨_, exec_htable_ok htree (codeTable_of_fits hfits), fun p hp => ?_, fun sym hsym hno => ?_, fun a ha => ?_⟩
  · exact lutEntry_writeLut _ _ _ (getElem?_filledTable_of_mem hnodup hp)
  · exact lutEntry_writeLut _ _ _ (getElem?_filledTable_of_not_mem hsym hno)
  · by_contra hne
    have hin := bounds_of_read_writeLut_ne (length_filledTable _) hne
    simp only [lutBank, Config.lutBase] at hin
    omega

/-- Settles O19: without a tree nothing is walked, and the walk to a leaf too deep fails before any write. -/
theorem htableErrorsWriteNothing : Obligations.HtableErrorsWriteNothing :=
  ⟨fun _ htree => exec_htable_noTree htree, fun _ _ htree hlong => exec_htable_error htree (codeTable_of_long hlong)⟩

/-- Settles O20: HBUILD's code words are short enough for the walk. -/
theorem htableAfterHbuildRaisesNothing : Obligations.HtableAfterHbuildRaisesNothing := by
  intro s t ht hsome
  obtain ⟨root, hroot⟩ := exists_buildTree hsome
  exact ⟨_, _, exec_hbuild_some ht hroot, exec_htable_ok rfl (codeTable_of_fits (length_codeWord_le hroot hsome))⟩

/-! ## Code words that start one another (R163) -/

/-- A code word that starts another is that other: two leaves lie on different sides of some node. -/
theorem eq_of_isPrefix {p q : Byte × List Bool} (hp : p ∈ t.codeWords) (hq : q ∈ t.codeWords) (h : p.2 <+: q.2) :
    p = q := by
  induction t generalizing p q with
  | leaf sym f => rw [List.mem_singleton.1 hp, List.mem_singleton.1 hq]
  | single id f l ih =>
    obtain ⟨p', hp', rfl⟩ := List.mem_map.1 hp
    obtain ⟨q', hq', rfl⟩ := List.mem_map.1 hq
    rw [ih hp' hq' (List.cons_prefix_cons.1 h).2]
  | node id f l r ihl ihr =>
    simp only [HuffTree.codeWords, List.mem_append, List.mem_map] at hp hq
    rcases hp with ⟨p', hp', rfl⟩ | ⟨p', hp', rfl⟩ <;> rcases hq with ⟨q', hq', rfl⟩ | ⟨q', hq', rfl⟩ <;>
      obtain ⟨hbit, hrest⟩ := List.cons_prefix_cons.1 h
    · rw [ihl hp' hq' hrest]
    · cases hbit
    · cases hbit
    · rw [ihr hp' hq' hrest]

/-! ## Codes as numbers (R161) -/

theorem bitsValue_append (a b : List Bool) : bitsValue (a ++ b) = 2 ^ b.length * bitsValue a + bitsValue b := by
  induction b using List.reverseRecOn with
  | nil => simp [bitsValue]
  | append_singleton b x ih =>
    rw [← List.append_assoc, bitsValue_concat, bitsValue_concat, ih, List.length_append, List.length_singleton,
      pow_succ]
    ring

theorem bitsValue_lt (path : List Bool) : bitsValue path < 2 ^ path.length := by
  induction path using List.reverseRecOn with
  | nil => simp [bitsValue]
  | append_singleton path b ih =>
    have hb : b.toNat ≤ 1 := b.toNat_le
    rw [bitsValue_concat, List.length_append, List.length_singleton, pow_succ]
    omega

theorem eq_of_bitsValue_eq {a b : List Bool} (hlen : a.length = b.length) (h : bitsValue a = bitsValue b) : a = b := by
  induction a using List.reverseRecOn generalizing b with
  | nil => exact (List.eq_nil_of_length_eq_zero hlen.symm).symm
  | append_singleton a x ih =>
    rcases List.eq_nil_or_concat b with rfl | ⟨b, y, rfl⟩
    · simp at hlen
    · simp only [List.concat_eq_append, List.length_append, List.length_singleton, Nat.add_right_cancel_iff,
        bitsValue_concat] at hlen h ⊢
      have hx := x.toNat_le
      have hy := y.toNat_le
      have hbit : x.toNat = 1 ↔ y.toNat = 1 := by omega
      rw [Bool.toNat_eq_one, Bool.toNat_eq_one] at hbit
      rw [ih hlen (by omega), Bool.eq_iff_iff.2 hbit]

/-- A path whose value is that of another's first bits starts that other. -/
theorem isPrefix_of_bitsValue_div_eq {a b : List Bool} (hlen : a.length ≤ b.length)
    (h : bitsValue b / 2 ^ (b.length - a.length) = bitsValue a) : a <+: b := by
  have hsplit := bitsValue_append (b.take a.length) (b.drop a.length)
  have hlt := bitsValue_lt (b.drop a.length)
  rw [List.take_append_drop] at hsplit
  rw [List.length_drop] at hsplit hlt
  rw [hsplit, Nat.mul_add_div (Nat.two_pow_pos _), Nat.div_eq_of_lt hlt, Nat.add_zero] at h
  rw [eq_of_bitsValue_eq (by simpa using hlen) h.symm]
  exact List.take_prefix _ _

theorem toNat_pathCode {path : List Bool} (h : path.length ≤ 64) : (pathCode path).toNat = bitsValue path :=
  Nat.mod_eq_of_lt ((bitsValue_lt path).trans_le (Nat.pow_le_pow_right (by decide) h))

theorem toNat_len_pathEntry {path : List Bool} (h : path.length ≤ 64) : (pathEntry path).len.toNat = path.length :=
  Nat.mod_eq_of_lt (show path.length < 2 ^ 7 by omega)

/-- Every code of the table is a code word of the tree. -/
theorem exists_codeWord_of_valid (hnodup : (root.leaves.map Prod.fst).Nodup) {sym : Nat} {e : LutEntry}
    (he : (filledTable root)[sym]? = some e) (hvalid : e.valid = true) :
    ∃ p ∈ root.codeWords, p.1.toNat = sym ∧ e = pathEntry p.2 := by
  have hsym : sym < 256 := length_filledTable root ▸ (List.getElem?_eq_some_iff.1 he).1
  by_cases hword : ∃ p ∈ root.codeWords, p.1.toNat = sym
  · obtain ⟨p, hp, rfl⟩ := hword
    rw [getElem?_filledTable_of_mem hnodup hp] at he
    exact ⟨p, hp, rfl, (Option.some.inj he).symm⟩
  · push Not at hword
    rw [getElem?_filledTable_of_not_mem hsym hword] at he
    cases he
    cases hvalid

/-! ## Kraft's equality (R163) -/

/-- The number of 64-bit words that start with the entry's code. -/
def kraftWeight (e : LutEntry) : Nat := if e.valid then 2 ^ (64 - e.len.toNat) else 0

theorem sum_set_of_zero {ns : List Nat} {i : Nat} (h : ns[i]? = some 0) (a : Nat) : (ns.set i a).sum = a + ns.sum := by
  induction ns generalizing i with
  | nil => simp at h
  | cons n ns ih =>
    cases i with
    | zero =>
      rw [List.getElem?_cons_zero, Option.some.injEq] at h
      rw [h, List.set_cons_zero, List.sum_cons, List.sum_cons, Nat.zero_add]
    | succ i =>
      rw [List.set_cons_succ, List.sum_cons, List.sum_cons, ih h]
      omega

/-- Code words put into a table without their symbols' codes add their weights. -/
theorem sum_kraftWeight_setEntries {words : List (Byte × List Bool)} (hnodup : (words.map Prod.fst).Nodup)
    (hfree : ∀ p ∈ words, table[p.1.toNat]? = some LutEntry.empty) :
    ((setEntries path words table).map kraftWeight).sum =
      (words.map fun p => kraftWeight (pathEntry (path ++ p.2))).sum + (table.map kraftWeight).sum := by
  induction words generalizing table with
  | nil => simp [setEntries]
  | cons p words ih =>
    obtain ⟨hp, hwords⟩ := List.nodup_cons.1 hnodup
    obtain ⟨hfreep, hfreeWords⟩ := List.forall_mem_cons.1 hfree
    have hzero : (table.map kraftWeight)[p.1.toNat]? = some 0 := by
      rw [List.getElem?_map, hfreep]
      rfl
    rw [setEntries_cons, ih hwords fun q hq => ?_, List.map_set, sum_set_of_zero hzero, List.map_cons, List.sum_cons]
    · omega
    · have hne : p.1.toNat ≠ q.1.toNat := fun heq =>
        hp (BitVec.eq_of_toNat_eq heq ▸ List.mem_map_of_mem (f := Prod.fst) hq)
      rw [List.getElem?_set_ne hne, hfreeWords q hq]

theorem codeWords_ne_nil (t : HuffTree) : t.codeWords ≠ [] := by
  induction t with
  | leaf sym f => simp [HuffTree.codeWords]
  | single id f l ih => simpa [HuffTree.codeWords] using ih
  | node id f l r ihl _ => simp [HuffTree.codeWords, ihl]

/-- Below a node with two children each side has half the codes. -/
theorem sum_two_pow_codeWords {n : Nat} (hfull : t.full) (hlen : ∀ p ∈ t.codeWords, p.2.length ≤ n) :
    (t.codeWords.map fun p => 2 ^ (n - p.2.length)).sum = 2 ^ n := by
  induction t generalizing n with
  | leaf sym f => simp [HuffTree.codeWords]
  | single id f l => exact hfull.elim
  | node id f l r ihl ihr =>
    obtain ⟨hl, hr⟩ := hfull
    simp only [HuffTree.codeWords, List.forall_mem_append, List.forall_mem_map, List.length_cons] at hlen
    obtain ⟨hlenl, hlenr⟩ := hlen
    obtain ⟨p, hp⟩ := List.exists_mem_of_ne_nil _ (codeWords_ne_nil l)
    obtain ⟨n, rfl⟩ : ∃ k, n = k + 1 := ⟨n - 1, by have := hlenl p hp; omega⟩
    simp only [HuffTree.codeWords, List.map_append, List.map_map, List.sum_append, Function.comp_def, List.length_cons,
      Nat.add_sub_add_right]
    rw [ihl hl fun p hp => Nat.le_of_succ_le_succ (hlenl p hp), ihr hr fun p hp => Nat.le_of_succ_le_succ (hlenr p hp)]
    omega

theorem sum_kraftWeight_filledTable (hfull : root.full) (hnodup : (root.leaves.map Prod.fst).Nodup)
    (hfits : ∀ p ∈ root.codeWords, p.2.length ≤ 64) : ((filledTable root).map kraftWeight).sum = 2 ^ 64 := by
  have hblank : ((List.replicate Config.nsym LutEntry.empty).map kraftWeight).sum = 0 := by
    rw [List.map_replicate, List.sum_replicate]
    exact Nat.mul_zero _
  rw [filledTable, sum_kraftWeight_setEntries ((map_fst_codeWords root).symm ▸ hnodup) fun p _ =>
    List.getElem?_replicate_of_lt (show p.1.toNat < Config.nsym from p.1.isLt), hblank, Nat.add_zero,
    ← sum_two_pow_codeWords hfull hfits]
  refine congrArg List.sum (List.map_congr_left fun p hp => ?_)
  rw [List.nil_append, kraftWeight, toNat_len_pathEntry (hfits p hp)]
  rfl

theorem HuffTree.built.nodup_leaves {root : HuffTree} (h : root.built) : (root.leaves.map Prod.fst).Nodup := by
  cases root with
  | leaf sym f => exact h.elim
  | single id f l =>
    obtain ⟨-, sym, c, rfl, -⟩ := h
    exact List.nodup_singleton _
  | node id f l r =>
    obtain ⟨-, -, -, -, hnodup, -⟩ := h
    exact hnodup

/-- Settles O21: codes that start one another would be one code word, and a full tree's weights fill the table. -/
theorem codesArePrefixFree : Obligations.CodesArePrefixFree := by
  intro s t root table hroot htable
  have hnodup := (built_of_buildTree hroot).nodup_leaves
  have hfits := fits_of_codeTable_ok htable
  cases htable.symm.trans (codeTable_of_fits hfits)
  refine ⟨fun a b ea eb hab hea heb hva hvb hlen hcode => hab ?_, fun hsyms => ?_⟩
  · obtain ⟨p, hp, rfl, rfl⟩ := exists_codeWord_of_valid hnodup hea hva
    obtain ⟨q, hq, rfl, rfl⟩ := exists_codeWord_of_valid hnodup heb hvb
    rw [toNat_len_pathEntry (hfits p hp), toNat_len_pathEntry (hfits q hq)] at hlen hcode
    rw [pathEntry, pathEntry, toNat_pathCode (hfits p hp), toNat_pathCode (hfits q hq)] at hcode
    rw [eq_of_isPrefix hp hq (isPrefix_of_bitsValue_div_eq hlen hcode)]
  · obtain ⟨z, hz, hinv⟩ := buildTree_of_two_le hsyms
    cases hz.symm.trans hroot
    exact sum_kraftWeight_filledTable (hinv.sound z (by simp)).full hnodup hfits

end Sys2Proof.Machine
end

section
/-! PROOFS. HCLEAR and CATMAG (R150, R170 to R173). -/

namespace Sys2Proof.Machine

/-! ## HCLEAR -/

theorem exec_hclear {s : State} {bank : BitVec 2} (hbank : bank ≠ 3#2) : exec (.hclear bank) s =
    .next (complete { s with mem := (s.mem.clear (freqBank bank) 0x400).clear (lutBank bank) 0x1000 }) := by
  simp only [exec, execHclear, bankOk_of_ne_three hbank, if_true]

/-- HCLEAR makes every byte of its two banks 0 (R150). -/
theorem read_hclear_of_bank {m : Memory} {bank : BitVec 2} {a : Nat} (hbank : bank ≠ 3#2)
    (ha : (freqBank bank ≤ a ∧ a < freqBank bank + 0x400) ∨ (lutBank bank ≤ a ∧ a < lutBank bank + 0x1000)) :
    ((m.clear (freqBank bank) 0x400).clear (lutBank bank) 0x1000).read a = some 0#8 := by
  have hlt : bank.toNat < 3 := of_decide_eq_true (bankOk_of_ne_three hbank)
  have hblank : Memory.blank a = some 0#8 := by
    simp only [freqBank, lutBank, Config.freqBase, Config.lutBase] at ha
    exact Memory.blank_of_cleared (by omega)
  rw [Memory.read_clear, Memory.read_clear, hblank]
  by_cases hlut : lutBank bank ≤ a ∧ a < lutBank bank + 0x1000
  · rw [if_pos hlut]
  · rw [if_neg hlut, if_pos (ha.resolve_right hlut)]

/-- Settles O13: both banks read as 0, and a byte that changed lies in one of them. -/
theorem hclearClearsItsBank : Obligations.HclearClearsItsBank := by
  intro s t ht
  refine ⟨_, exec_hclear ht, fun a ha => read_hclear_of_bank ht ?_,
    fun sym hsym => lutEntry_clear (bankOk_of_ne_three ht) hsym, fun a hfreq hlut => ?_⟩
  · simp only [freqBank, lutBank, Config.freqBase, Config.lutBase]
    omega
  · by_contra hne
    have hin := bounds_of_read_hclear_ne hne
    simp only [freqBank, lutBank, Config.freqBase, Config.lutBase] at hin
    omega

/-! ## CATMAG -/

/-- The category is the least number of bits that hold the magnitude (R171). -/
theorem category_le_iff (v : Int) (c : Nat) : category v ≤ c ↔ v.natAbs < 2 ^ c := by
  rw [category]
  split
  · rename_i hv
    simp [hv]
  · rename_i hv
    rw [Nat.succ_le_iff, Nat.log2_lt (Int.natAbs_ne_zero.2 hv)]

theorem natAbs_lt_two_pow_category (v : Int) : v.natAbs < 2 ^ category v := (category_le_iff v _).1 (Nat.le_refl _)

theorem category_zero : category 0 = 0 := rfl

theorem magnitude_of_pos {v : Int} (hv : 0 < v) : magnitude v = v := by
  rw [magnitude, if_neg hv.ne', if_pos hv]

theorem magnitude_of_neg {v : Int} (hv : v < 0) : magnitude v = v + 2 ^ category v - 1 := by
  rw [magnitude, if_neg hv.ne, if_neg hv.not_gt]

/-- The magnitude bits are `category` many (R172). -/
theorem magnitude_bounds (v : Int) : 0 ≤ magnitude v ∧ magnitude v < 2 ^ category v := by
  have hlt := natAbs_lt_two_pow_category v
  have hcast : ((2 ^ category v : Nat) : Int) = 2 ^ category v := by norm_num
  rcases lt_trichotomy v 0 with hv | rfl | hv
  · rw [magnitude_of_neg hv]
    omega
  · decide
  · rw [magnitude_of_pos hv]
    omega

theorem category_word_le (w : Word) : category w.toInt ≤ 32 := by
  have := w.toInt_lt
  have := w.le_toInt
  rw [category_le_iff]
  omega

theorem toNat_magnitude (v : Int) : ((magnitude v).toNat : Int) = magnitude v :=
  Int.toNat_of_nonneg (magnitude_bounds v).1

theorem toNat_magnitude_lt (v : Int) : (magnitude v).toNat < 2 ^ category v := by
  zify
  rw [toNat_magnitude]
  exact (magnitude_bounds v).2

theorem toNat_magnitude_word_lt (w : Word) : (magnitude w.toInt).toNat < 2 ^ 32 :=
  (toNat_magnitude_lt _).trans_le (Nat.pow_le_pow_right (by decide) (category_word_le w))

/-- The top bit of the magnitude tells the sign (R173). -/
theorem testBit_magnitude {v : Int} (hv : v ≠ 0) : (magnitude v).toNat.testBit (category v - 1) = decide (0 < v) := by
  obtain ⟨c, hc⟩ : ∃ c, category v = c + 1 := ⟨category v - 1, by rw [category, if_neg hv]; rfl⟩
  have hhigh := natAbs_lt_two_pow_category v
  have hlow : 2 ^ c ≤ v.natAbs := Nat.le_of_not_lt fun h => by
    have := (category_le_iff v c).2 h
    omega
  have hlt := toNat_magnitude_lt v
  rw [hc] at hhigh hlt ⊢
  rw [Nat.add_sub_cancel]
  rcases lt_or_gt_of_ne hv with hneg | hpos
  · have hcast : ((2 ^ (c + 1) : Nat) : Int) = 2 ^ (c + 1) := by norm_num
    have hmag := (toNat_magnitude v).trans (magnitude_of_neg hneg)
    rw [hc, ← hcast, pow_succ] at hmag
    rw [Nat.testBit_lt_two_pow (by omega), decide_eq_false hneg.not_gt]
  · have hmag := (toNat_magnitude v).trans (magnitude_of_pos hpos)
    rw [Nat.testBit_of_two_pow_le_and_two_pow_add_one_gt (by omega) hlt, decide_eq_true hpos]

theorem exec_catmag (s : State) : exec .catmag s = .next (complete { s with
    res0 := BitVec.ofNat 32 (category s.opa.toInt), res1 := BitVec.ofNat 32 (magnitude s.opa.toInt).toNat }) := by
  have hofInt : BitVec.ofInt 32 (magnitude s.opa.toInt) = BitVec.ofNat 32 (magnitude s.opa.toInt).toNat := by
    rw [← BitVec.ofInt_natCast, toNat_magnitude]
  rw [← hofInt]
  rfl

/-- Settles O22, by the bounds of the magnitude and its value for each sign. -/
theorem catmagGivesCategoryAndMagnitude : Obligations.CatmagGivesCategoryAndMagnitude := by
  intro s
  refine ⟨category s.opa.toInt, (magnitude s.opa.toInt).toNat, exec_catmag s, category_word_le _,
    toNat_magnitude_word_lt _, toNat_magnitude_lt _,
    ⟨natAbs_lt_two_pow_category _, fun c => (category_le_iff _ c).2⟩, fun hv => ?_, fun hv => ?_, fun hv => ?_⟩
  · rw [hv]
    exact ⟨category_zero, rfl⟩
  · rw [toNat_magnitude, magnitude_of_pos hv]
  · rw [toNat_magnitude, magnitude_of_neg hv]

/-- Settles O23: the top bit tells the sign, and each sign's formula is solved for the value. -/
theorem catmagIsInvertible : Obligations.CatmagIsInvertible := by
  intro s t hexec hopa
  have hne : s.opa.toInt ≠ 0 := fun h => hopa (BitVec.eq_of_toInt_eq h)
  have hcat : (BitVec.ofNat 32 (category s.opa.toInt)).toNat = category s.opa.toInt :=
    Nat.mod_eq_of_lt ((category_word_le _).trans_lt (by decide))
  have hmag : (BitVec.ofNat 32 (magnitude s.opa.toInt).toNat).toNat = (magnitude s.opa.toInt).toNat :=
    Nat.mod_eq_of_lt (toNat_magnitude_word_lt _)
  cases (exec_catmag s).symm.trans hexec
  simp only [complete_res0, complete_res1, hcat, BitVec.getLsbD, hmag, testBit_magnitude hne, toNat_magnitude,
    decide_eq_true_eq, decide_eq_false_iff_not]
  refine ⟨fun hpos => (magnitude_of_pos hpos).symm, fun hnot => ?_⟩
  rw [magnitude_of_neg (lt_of_le_of_ne (not_lt.1 hnot) hne)]
  ring

end Sys2Proof.Machine
end

section
/-! PROOFS. The writer's stream (R190 to R206): each bit pushed, and each zero bit of the flush, is one more bit of the
stream, whether or not it completes a byte of RAW; WFINAL leaves the stuffed RAW in OUT. -/

namespace Sys2Proof.Machine

/-! ## The low bits of a vector -/

/-- The low `n` bits of `x`, most significant first (R14, R190). -/
def lowBits {w : Nat} (x : BitVec w) (n : Nat) : List Bool := (List.range n).map fun k => x.getLsbD (n - 1 - k)

theorem length_lowBits {w : Nat} (x : BitVec w) (n : Nat) : (lowBits x n).length = n := by simp [lowBits]

theorem lowBits_succ {w : Nat} (x : BitVec w) (n : Nat) : lowBits x (n + 1) = x.getLsbD n :: lowBits x n := by
  simp [lowBits, List.range_succ_eq_map, Nat.sub_sub, Nat.add_comm]

theorem lowBits_append_bit {w : Nat} (x : BitVec w) (b : Bool) (n : Nat) :
    lowBits (x ++ bit b) (n + 1) = lowBits x n ++ [b] := by
  induction n with
  | zero =>
    rw [lowBits_succ, BitVec.getLsbD_append]
    simp [lowBits, bit]
  | succ n ih =>
    rw [lowBits_succ, ih, lowBits_succ x, BitVec.getLsbD_append, if_neg (by omega), Nat.add_sub_cancel,
      List.cons_append]

theorem lowBits_setWidth {w v n : Nat} (x : BitVec w) (h : n ≤ v) : lowBits (x.setWidth v) n = lowBits x n := by
  induction n with
  | zero => rfl
  | succ n ih =>
    rw [lowBits_succ, ih (by omega), lowBits_succ x, BitVec.getLsbD_setWidth, decide_eq_true (by omega), Bool.true_and]

/-- Shifting left puts zero bits behind the bits (R197). -/
theorem lowBits_shiftLeft {w m n : Nat} (x : BitVec w) (h : n + m ≤ w) :
    lowBits (x <<< m) (n + m) = lowBits x n ++ List.replicate m false := by
  induction n with
  | zero =>
    refine List.eq_replicate_iff.2 ⟨by rw [length_lowBits, Nat.zero_add], fun b hb => ?_⟩
    obtain ⟨k, hk, rfl⟩ := List.mem_map.1 hb
    have hlt := List.mem_range.1 hk
    rw [BitVec.getLsbD_shiftLeft, decide_eq_true (show 0 + m - 1 - k < m by omega), Bool.not_true, Bool.and_false,
      Bool.false_and]
  | succ n ih =>
    rw [Nat.succ_add, lowBits_succ, ih (by omega), lowBits_succ x, BitVec.getLsbD_shiftLeft, decide_eq_true (by omega),
      decide_eq_false (by omega), Nat.add_sub_cancel]
    rfl

theorem bitsValue_lowBits {w : Nat} (x : BitVec w) (n : Nat) : bitsValue (lowBits x n) = x.toNat % 2 ^ n := by
  induction n with
  | zero => simp [lowBits, bitsValue, Nat.mod_one]
  | succ n ih =>
    rw [lowBits_succ, ← List.singleton_append, bitsValue_append, ih, length_lowBits, Nat.mod_pow_succ, Nat.add_comm,
      ← Nat.toNat_testBit]
    simp [bitsValue, BitVec.getLsbD]

theorem opaBits_eq_lowBits (opa : Word) (n : Nat) : opaBits opa n = lowBits opa n := by
  induction n with
  | zero => rfl
  | succ n ih => rw [opaBits, ih, lowBits_succ]

theorem byteBits_eq_lowBits (b : Byte) : byteBits b = lowBits b 8 := rfl

theorem pendingBits_eq_lowBits (s : State) : s.pendingBits = lowBits s.acc s.nb.toNat := rfl

/-! ## RAW and the stream -/

/-- RAW depends on the bytes below RAWLEN, and on the draw counter where one has no value (log entry 14). -/
theorem rawBytes_congr {s t : State} (hlen : t.rawLen = s.rawLen) (hdraws : t.draws = s.draws)
    (hmem : ∀ k < s.rawLen, t.mem.read (0x8000 + k) = s.mem.read (0x8000 + k)) : t.rawBytes = s.rawBytes := by
  rw [State.rawBytes, State.rawBytes, hlen]
  refine List.map_congr_left fun k hk => ?_
  rw [State.rawByte, State.rawByte, hdraws, Config.rawBase, hmem k (List.mem_range.1 hk)]

theorem rawBytes_appendRaw (b : Byte) (s : State) : (appendRaw b s).rawBytes = s.rawBytes ++ [b] := by
  have hold : ∀ k ∈ List.range s.rawLen, (appendRaw b s).rawByte k = s.rawByte k := fun k hk => by
    have hlt := List.mem_range.1 hk
    simp only [State.rawByte, appendRaw_mem, appendRaw_draws]
    rw [Memory.read_splice_outside _ _ _ _ (by simp only [List.length_singleton]; omega)]
  have hnew : (appendRaw b s).rawByte s.rawLen = b := by simp [State.rawByte, Memory.read_splice]
  rw [State.rawBytes, appendRaw_rawLen, List.range_succ, List.map_append, List.map_congr_left hold, List.map_singleton,
    hnew, State.rawBytes]

/-- A byte appended to RAW takes the pending bits' place in the stream (R194). -/
theorem stream_appendRaw (b : Byte) (s : State) :
    (appendRaw b s).stream = s.rawBytes.flatMap byteBits ++ byteBits b := by
  simp [State.stream, rawBytes_appendRaw, State.pendingBits]

theorem stream_complete (s : State) : (complete s).stream = s.stream := rfl

theorem stream_of_nb_zero {s : State} (h : s.nb = 0#3) : s.stream = s.rawBytes.flatMap byteBits := by
  simp [State.stream, State.pendingBits, h]

theorem stream_pushBit (s : State) (b : Bool) : (pushBit s b).stream = s.stream ++ [b] := by
  have hbits : s.stream ++ [b] = s.rawBytes.flatMap byteBits ++ lowBits (s.acc ++ bit b) (s.nb.toNat + 1) := by
    rw [State.stream, pendingBits_eq_lowBits, List.append_assoc, lowBits_append_bit]
  rw [hbits]
  by_cases h : s.nb = 7#3
  · rw [pushBit_full s b h, stream_appendRaw, byteBits_eq_lowBits, h]
    rfl
  · have hnb := toNat_add_one_of_ne_seven h
    have hlt := (s.nb + 1#3).isLt
    rw [pushBit_partial s b h, State.stream, pendingBits_eq_lowBits]
    simp only [hnb]
    rw [lowBits_setWidth _ (by omega)]
    rfl

theorem stream_pushBits (bs : List Bool) (s : State) : (pushBits s bs).stream = s.stream ++ bs := by
  induction bs generalizing s with
  | nil => simp [pushBits_nil]
  | cons b bs ih => rw [pushBits_cons, ih, stream_pushBit, List.append_assoc, List.singleton_append]

/-- The bytes that pushed bits complete have a value (R190). -/
theorem pushBits_writes_new_bytes (bs : List Bool) (s : State) {k : Nat} (hlow : s.rawLen ≤ k)
    (hhigh : k < (pushBits s bs).rawLen) : ((pushBits s bs).mem.read (0x8000 + k)).isSome = true := by
  induction bs generalizing s with
  | nil => exact absurd hhigh (Nat.not_lt.2 hlow)
  | cons b bs ih =>
    rw [pushBits_cons] at hhigh ⊢
    by_cases hk : (pushBit s b).rawLen ≤ k
    · exact ih _ hk hhigh
    · refine pushBits_keeps_written bs _ ?_
      by_cases hnb : s.nb = 7#3
      · rw [pushBit_full s b hnb, appendRaw_rawLen] at hk
        rw [pushBit_full s b hnb, appendRaw_mem, Config.rawBase, show k = s.rawLen by omega, Memory.read_splice]
        simp
      · rw [pushBit_partial s b hnb] at hk
        exact absurd hlow hk

/-! ## The flush -/

theorem byteBits_paddedByte (s : State) :
    byteBits (paddedByte s) = s.pendingBits ++ List.replicate (8 - s.nb.toNat) false := by
  have hnb := s.nb.isLt
  rw [byteBits_eq_lowBits, pendingBits_eq_lowBits, paddedByte, ← lowBits_setWidth (v := 8) s.acc (by omega),
    ← lowBits_shiftLeft _ (by omega), Nat.add_sub_cancel' (by omega)]

theorem toNat_pos_of_ne_zero {n : BitVec 3} (h : n ≠ 0#3) : 0 < n.toNat :=
  Nat.pos_of_ne_zero fun h0 => h (BitVec.eq_of_toNat_eq h0)

theorem padCount_of_ne_zero {n : BitVec 3} (h : n ≠ 0#3) : padCount n.toNat = 8 - n.toNat := by
  have hlt := n.isLt
  have hpos := toNat_pos_of_ne_zero h
  rw [padCount]
  omega

/-- The flush pads the stream with zero bits (R196, R197). -/
theorem stream_flush (s : State) : (flush s).stream = s.stream ++ List.replicate (padCount s.nb.toNat) false := by
  by_cases h : s.nb = 0#3
  · rw [flush_empty s h, h]
    simp [padCount]
  · rw [flush_partial s h, stream_appendRaw, byteBits_paddedByte, padCount_of_ne_zero h, ← List.append_assoc,
      State.stream]

theorem nb_flush (s : State) : (flush s).nb = 0#3 := by
  by_cases h : s.nb = 0#3
  · rw [flush_empty s h, h]
  · rw [flush_partial s h, appendRaw_nb]

/-- The flush leaves no partial byte and one byte of RAW more where there was one (R196). -/
theorem flush_eq (s : State) : ∃ m, flush s = { s with
    acc := if s.nb = 0#3 then s.acc else 0#7
    nb := 0#3, rawLen := s.rawLen + (if s.nb = 0#3 then 0 else 1), mem := m } := by
  by_cases h : s.nb = 0#3
  · rw [flush_empty s h, if_pos h, if_pos h, ← h]
    exact ⟨_, rfl⟩
  · rw [flush_partial s h, if_neg h, if_neg h]
    exact ⟨_, rfl⟩

theorem flushBlocked_eq_false {s : State} (h : s.nb ≠ 0#3 → s.rawLen < 4096) : flushBlocked s = false := by
  by_cases hnb : s.nb = 0#3
  · simp [flushBlocked, hnb]
  · exact Bool.and_eq_false_iff.2 (.inr (decide_eq_false (Nat.not_lt.2 (h hnb))))

theorem flushBlocked_eq_true {s : State} (hnb : s.nb ≠ 0#3) (h : 4096 < s.rawLen + 1) : flushBlocked s = true := by
  simp [flushBlocked, hnb, Config.rawCap, h]

/-! ## Stuffing (R202) -/

theorem stuffOut_keeps_raw {s : State} (h : s.rawLen ≤ 4096) : (stuffOut s).rawBytes = s.rawBytes :=
  rawBytes_congr rfl rfl fun k hk => by
    rw [stuffOut_mem, Memory.read_splice_outside _ _ _ _ (by rw [Config.outBase]; omega)]

theorem stream_stuffOut {s : State} (h : s.rawLen ≤ 4096) : (stuffOut s).stream = s.stream := by
  rw [State.stream, stuffOut_keeps_raw h]
  rfl

/-- OUTLEN and OUT[0..OUTLEN-1] are those of the stuffed RAW (R200, R202). -/
theorem out_stuffOut {s : State} (h : s.rawLen ≤ 4096) :
    (stuffOut s).outLen = (stuff (stuffOut s).rawBytes).length ∧
      ∀ j < (stuffOut s).outLen, (stuffOut s).mem.read (0xA000 + j) = (stuff (stuffOut s).rawBytes)[j]? := by
  rw [stuffOut_keeps_raw h, stuffOut_outLen]
  refine ⟨rfl, fun j hj => ?_⟩
  rw [stuffOut_mem, Config.outBase, Memory.read_splice, if_pos (by omega), Nat.add_sub_cancel_left]

/-- Stuffing at most doubles RAW (R203). -/
theorem outLen_stuffOut_le {s : State} (h : s.rawLen ≤ 4096) : (stuffOut s).outLen ≤ 8192 := by
  have hstuff := length_stuff_le s.rawBytes
  rw [length_rawBytes] at hstuff
  rw [stuffOut_outLen]
  omega

/-- WFINAL changes the flushed byte of RAW and the stuffed bytes of OUT (R200). -/
theorem bounds_of_read_stuffOut_flush_ne {s : State} {a : Nat}
    (h : (stuffOut (flush s)).mem.read a ≠ s.mem.read a) :
    (Config.rawBase + s.rawLen ≤ a ∧ a < Config.rawBase + (flush s).rawLen) ∨
      (Config.outBase ≤ a ∧ a < Config.outBase + (stuffOut (flush s)).outLen) :=
  (read_ne_or_read_ne h).imp bounds_of_read_flush_ne Memory.bounds_of_read_splice_ne

theorem length_stuff (bytes : List Byte) : (stuff bytes).length = bytes.length + bytes.count 0xFF#8 := by
  induction bytes with
  | nil => rfl
  | cons b bytes ih =>
    by_cases hb : b = 0xFF#8
    · subst hb
      rw [stuff_ff, List.count_cons_self]
      simp only [List.length_cons]
      omega
    · rw [stuff_other b bytes hb, List.count_cons_of_ne hb]
      simp only [List.length_cons]
      omega

/-- A byte other than 0xFF is data and leaves what follows it as it is (R212). -/
theorem destuff_cons_other {b : Byte} (bytes : List Byte) (h : b ≠ 0xFF#8) :
    destuff (b :: bytes) = b :: destuff bytes := by
  cases bytes with
  | nil => rfl
  | cons c rest => exact destuff_pair_other rest fun hp => h hp.1

theorem destuff_stuff (bytes : List Byte) : destuff (stuff bytes) = bytes := by
  induction bytes with
  | nil => rfl
  | cons b bytes ih =>
    by_cases hb : b = 0xFF#8
    · subst hb
      rw [stuff_ff, destuff, if_pos ⟨rfl, rfl⟩, ih]
    · rw [stuff_other b bytes hb, destuff_cons_other _ hb, ih]

/-- Settles O29. -/
theorem destuffingUndoesStuffing : Obligations.DestuffingUndoesStuffing := fun bytes =>
  ⟨destuff_stuff bytes, length_stuff bytes, length_stuff_le bytes⟩

/-! ## The writer's commands -/

theorem countOk_eq_true {n : BitVec 6} (hlow : 1 ≤ n.toNat) (hhigh : n.toNat ≤ 32) : countOk n = true := by
  simp [countOk, Config.maxBits, hlow, hhigh]

theorem exec_wrbits {s : State} {n : BitVec 6} (hlow : 1 ≤ n.toNat) (hhigh : n.toNat ≤ 32)
    (hroom : s.rawLen + (s.nb.toNat + n.toNat) / 8 ≤ 4096) :
    exec (.wrbits n) s = .next (complete (pushBits s (lowBits s.opa n.toNat))) := by
  have hfits : ¬ Config.rawCap < s.rawLen + (s.nb.toNat + n.toNat) / 8 := Nat.not_lt.2 hroom
  simp [exec, execWrbits, countOk_eq_true hlow hhigh, hfits, opaBits_eq_lowBits]

theorem exec_wflush {s : State} (h : s.nb ≠ 0#3 → s.rawLen < 4096) : exec .wflush s = .next (complete (flush s)) := by
  simp [exec, execWflush, flushBlocked_eq_false h]

theorem exec_wfinal {s : State} (h : s.nb ≠ 0#3 → s.rawLen < 4096) :
    exec .wfinal s = .next (complete (stuffOut (flush s))) := by
  simp [exec, execWfinal, flushBlocked_eq_false h]

theorem exec_wreset (s : State) :
    exec .wreset s = .next (complete { s with acc := 0#7, nb := 0#3, rawLen := 0, outLen := 0 }) := rfl

/-- Settles O24: the stream and the count of its bits grow with every pushed bit. -/
theorem wrbitsAppendsToTheStream : Obligations.WrbitsAppendsToTheStream := by
  intro s n hlow hhigh hroom
  have hexec := exec_wrbits hlow hhigh hroom
  have hstream := stream_pushBits (lowBits s.opa n.toNat) s
  have hcount := bitCount_pushBits (lowBits s.opa n.toNat) s
  have hnew := fun k => pushBits_writes_new_bytes (lowBits s.opa n.toNat) s (k := k)
  have hold := fun a => bounds_of_read_pushBits_ne (bs := lowBits s.opa n.toNat) (s := s) (a := a)
  obtain ⟨acc, nb, rawLen, m, hpush⟩ := pushBits_changes_writer_only (lowBits s.opa n.toNat) s
  rw [hpush] at hexec hstream hcount hnew hold
  rw [length_lowBits, State.bitCount, State.bitCount] at hcount
  have hnb := nb.isLt
  refine ⟨acc, nb, rawLen, m, hexec, hstream, ?_, ?_, fun k hk hk' => Option.isSome_iff_ne_none.1 (hnew k hk hk'),
    fun a ha => by_contra fun hne => ha (hold a hne)⟩
  all_goals
    simp only at hcount
    omega

/-- Settles O26, by the room check of each command. -/
theorem fullWriterRaisesBufferFull : Obligations.FullWriterRaisesBufferFull := by
  refine ⟨fun s n hlow hhigh hfull => ?_, fun s hnb hfull => ?_⟩
  · have hover : Config.rawCap < s.rawLen + (s.nb.toNat + n.toNat) / 8 := hfull
    simp [exec, execWrbits, countOk_eq_true hlow hhigh, hover, raise, complete, Op.wrbits]
  · have hblocked := flushBlocked_eq_true hnb hfull
    exact ⟨by simp [exec, execWflush, hblocked, raise, complete, Op.wflush],
      by simp [exec, execWfinal, hblocked, raise, complete, Op.wfinal]⟩

/-- Settles O27: with a partial byte the flush appends one byte. -/
theorem wflushPadsWithZeros : Obligations.WflushPadsWithZeros := by
  refine ⟨fun s hnb => ?_, fun s hnb hroom => ?_⟩
  · rw [exec_wflush fun h => absurd hnb h, flush_empty s hnb]
    rfl
  · have hexec := exec_wflush fun _ => hroom
    have hstream := stream_flush s
    rw [flush_partial s hnb] at hexec hstream
    rw [padCount_of_ne_zero hnb] at hstream
    refine ⟨_, hexec, hstream, by simp [Memory.read_splice, Config.rawBase], fun a ha => ?_⟩
    exact Memory.read_splice_outside _ _ _ _ (by rw [Config.rawBase, List.length_singleton]; omega)

/-- Settles O28: the flush and the stuffing, one after the other. -/
theorem wfinalStuffsRawIntoOut : Obligations.WfinalStuffsRawIntoOut := by
  intro s hlen hroom
  have hlen' : (flush s).rawLen ≤ 4096 := flush_rawLen_le hlen (flushBlocked_eq_false hroom)
  have hexec := exec_wfinal hroom
  have hstream := (stream_stuffOut hlen').trans (stream_flush s)
  obtain ⟨houtLen, hread⟩ := out_stuffOut hlen'
  have hcap := outLen_stuffOut_le hlen'
  have hold := fun a => bounds_of_read_stuffOut_flush_ne (s := s) (a := a)
  obtain ⟨m, hflush⟩ := flush_eq s
  rw [hflush] at hexec hstream houtLen hread hcap hold
  exact ⟨_, _, _, hexec, hstream, rfl, houtLen, hcap, hread,
    fun a hraw hout => by_contra fun hne => (hold a hne).elim hraw hout⟩

/-- Settles O30. -/
theorem wresetEmptiesTheWriter : Obligations.WresetEmptiesTheWriter := exec_wreset

end Sys2Proof.Machine
end

section
/-! PROOFS. The reader's bits (R210 to R217): where the readable bytes of the source hold data bits after de-stuffing,
one round of the loop of R211 takes the first of them; RDBITS takes as many as it is asked for. -/

namespace Sys2Proof.Machine

/-! ## The readable bytes of the source -/

/-- From byte `p` on the source holds `bytes`, all of them within RLEN (R211). -/
structure SourceHolds (s : State) (p : Nat) (bytes : List Byte) : Prop where
  within : p + bytes.length ≤ s.rlen
  holds : ∀ j < bytes.length, s.srcByte (p + j) = bytes[j]?

theorem SourceHolds.head {s : State} {p : Nat} {b : Byte} {bytes : List Byte} (h : SourceHolds s p (b :: bytes)) :
    s.srcByte p = some b := by
  simpa using h.holds 0 (by simp)

theorem SourceHolds.drop {s : State} {p k : Nat} {bytes : List Byte} (h : SourceHolds s p bytes)
    (hk : k ≤ bytes.length) : SourceHolds s (p + k) (bytes.drop k) where
  within := by
    have := h.within
    rw [List.length_drop]
    omega
  holds j hj := by
    rw [List.length_drop] at hj
    rw [Nat.add_assoc, h.holds (k + j) (by omega), List.getElem?_drop]

/-- The reader need not look past `bytes` after the last of their bits: they end the source, or their last byte is not
0xFF (R211). -/
def EndSeen (s : State) (p : Nat) (bytes : List Byte) : Prop :=
  p + bytes.length = s.rlen ∨ bytes.getLast? ≠ some 0xFF#8

theorem EndSeen.drop {s : State} {p k : Nat} {bytes : List Byte} (h : EndSeen s p bytes) (hk : k ≤ bytes.length) :
    EndSeen s (p + k) (bytes.drop k) := by
  refine h.imp (fun hend => ?_) fun hlast => ?_
  · rw [List.length_drop]
    omega
  · rw [List.getLast?_drop]
    split
    · simp
    · exact hlast

/-- After the last bit of a byte the reader moves to where de-stuffing goes on, within the readable bytes where it need
not look past them (R211, R212). -/
theorem nextPos_of_sourceHolds {s : State} {p : Nat} {b : Byte} {bytes : List Byte} (h : SourceHolds s p (b :: bytes))
    (hend : bytes = [] → EndSeen s p [b]) :
    ∃ k, k ≤ (b :: bytes).length ∧ nextPos s b p = .ok (p + k) ∧
      destuff (b :: bytes) = b :: destuff ((b :: bytes).drop k) := by
  by_cases hff : b = 0xFF#8
  · subst hff
    cases bytes with
    | nil =>
      have hlen : p + 1 = s.rlen := (hend rfl).resolve_right (by simp)
      exact ⟨1, by simp, nextPos_data s _ p (by omega), rfl⟩
    | cons c rest =>
      have hnext : SourceHolds s (p + 1) (c :: rest) := h.drop (k := 1) (by simp)
      have hin : p + 1 < s.rlen := by
        have := h.within
        simp only [List.length_cons] at this
        omega
      by_cases hc : c = 0x00#8
      · subst hc
        exact ⟨2, by simp, by simp [nextPos, hin, hnext.head], by simp [destuff]⟩
      · exact ⟨1, by simp, by simp [nextPos, hin, hnext.head, hc], destuff_pair_other rest fun hp => hc hp.2⟩
  · exact ⟨1, by simp, nextPos_data s b p fun hp => hff hp.1, destuff_cons_other bytes hff⟩

/-! ## Data bits -/

theorem dataBits_succ (bytes : List Byte) (used : Nat) : dataBits bytes (used + 1) = (dataBits bytes used).tail := by
  rw [dataBits, dataBits, List.tail_drop]

/-- The first data bit is the byte's next one (R211). -/
theorem head?_dataBits_cons (b : Byte) (bytes : List Byte) {used : Nat} (h : used < 8) :
    (dataBits (b :: bytes) used).head? = some (b.getLsbD (7 - used)) := by
  obtain ⟨rest, hrest⟩ : ∃ rest, destuff (b :: bytes) = b :: rest := by
    cases bytes with
    | nil => exact ⟨[], rfl⟩
    | cons c rest =>
      rw [destuff]
      split
      · exact ⟨_, rfl⟩
      · exact ⟨_, rfl⟩
  rw [dataBits, hrest, List.flatMap_cons, List.head?_drop, List.getElem?_append_left (by simpa [byteBits] using h)]
  simp [byteBits, h]

/-- Where a byte is finished the data bits go on with what de-stuffing leaves (R212). -/
theorem dataBits_eight {b : Byte} {bytes rest : List Byte} (h : destuff (b :: bytes) = b :: destuff rest) :
    dataBits (b :: bytes) 8 = dataBits rest 0 := by
  rw [dataBits, h, List.flatMap_cons, List.drop_left' (by simp [byteBits])]
  rfl

/-! ## The loop -/

/-- A round of the loop takes the first data bit, and looks past the readable bytes only after the last bit (R211). -/
theorem readLoop_succ {s : State} {p : Nat} {b : BitVec 3} {bytes : List Byte} {x : Bool} {xs : List Bool}
    (h : SourceHolds s p bytes) (hbits : dataBits bytes b.toNat = x :: xs) (hend : xs = [] → EndSeen s p bytes) :
    ∃ k b', k ≤ bytes.length ∧ dataBits (bytes.drop k) b'.toNat = xs ∧ ∀ n val,
      readLoop s (n + 1) p b val = readLoop s n (p + k) b' (val <<< 1 ||| (bit x).setWidth 32) := by
  cases bytes with
  | nil => simp [dataBits, destuff] at hbits
  | cons c rest =>
    have hin : ¬ s.rlen ≤ p := by
      have := h.within
      rw [List.length_cons] at this
      omega
    have hx : c.getLsbD (7 - b.toNat) = x := by
      have := head?_dataBits_cons c rest b.isLt
      rw [hbits] at this
      exact (Option.some.inj this).symm
    have htail : dataBits (c :: rest) (b.toNat + 1) = xs := by rw [dataBits_succ, hbits, List.tail_cons]
    by_cases hlast : b = 7#3
    · have hend' : rest = [] → EndSeen s p [c] := by
        rintro rfl
        refine hend ?_
        rw [← htail, hlast]
        rfl
      obtain ⟨k, hk, hnext, hdestuff⟩ := nextPos_of_sourceHolds h hend'
      rw [hlast] at htail
      refine ⟨k, 0#3, hk, (dataBits_eight hdestuff).symm.trans htail, fun n val => ?_⟩
      rw [readLoop, if_neg hin, h.head]
      simp only [if_pos hlast, hnext, hx]
    · refine ⟨0, b + 1#3, Nat.zero_le _, ?_, fun n val => ?_⟩
      · rw [toNat_add_one_of_ne_seven hlast, List.drop_zero, htail]
      · rw [readLoop, if_neg hin, h.head]
        simp only [if_neg hlast, hx, Nat.add_zero]

/-- The working copy of RES0 after bits are shifted in (R211). -/
def shiftIn (val : Word) (bits : List Bool) : Word := bits.foldl (fun v x => v <<< 1 ||| (bit x).setWidth 32) val

theorem ofNat_shiftLeft_or_bit (v : Nat) (x : Bool) :
    BitVec.ofNat 32 v <<< 1 ||| (bit x).setWidth 32 = BitVec.ofNat 32 (2 * v + x.toNat) := by
  have hx := x.toNat_lt
  have hshift : (BitVec.ofNat 32 v <<< 1).toNat = (v % 2 ^ 31) <<< 1 := by
    simp only [BitVec.toNat_shiftLeft, BitVec.toNat_ofNat, Nat.shiftLeft_eq]
    omega
  apply BitVec.eq_of_toNat_eq
  rw [BitVec.toNat_or, hshift, BitVec.toNat_setWidth, toNat_bit, Nat.mod_eq_of_lt (show x.toNat < 2 ^ 32 by omega),
    ← Nat.shiftLeft_add_eq_or_of_lt (by omega), Nat.shiftLeft_eq, BitVec.toNat_ofNat]
  omega

/-- Bits shifted in are a number, first bit most significant (R211). -/
theorem shiftIn_zero (bits : List Bool) : shiftIn 0#32 bits = BitVec.ofNat 32 (bitsValue bits) := by
  induction bits using List.reverseRecOn with
  | nil => rfl
  | append_singleton bits x ih =>
    rw [bitsValue_concat, ← ofNat_shiftLeft_or_bit, ← ih]
    simp [shiftIn]

/-- The loop takes the first data bits and stands before the rest (R211, R212). -/
theorem readLoop_of_dataBits {s : State} {p : Nat} {b : BitVec 3} {bytes : List Byte} {bits rest : List Bool}
    (val : Word) (h : SourceHolds s p bytes) (hbits : dataBits bytes b.toNat = bits ++ rest)
    (hend : rest = [] → EndSeen s p bytes) :
    ∃ k b', k ≤ bytes.length ∧ dataBits (bytes.drop k) b'.toNat = rest ∧
      readLoop s bits.length p b val = .ok (p + k, b', shiftIn val bits) := by
  induction bits generalizing p b bytes val with
  | nil => exact ⟨0, b, Nat.zero_le _, hbits, rfl⟩
  | cons x bits ih =>
    obtain ⟨k, b', hk, hrest, hstep⟩ :=
      readLoop_succ h hbits fun hnil => hend (List.append_eq_nil_iff.1 hnil).2
    obtain ⟨k', b'', hk', hrest', hloop⟩ :=
      ih (val <<< 1 ||| (bit x).setWidth 32) (h.drop hk) hrest fun hnil => (hend hnil).drop hk
    rw [List.length_drop] at hk'
    rw [List.drop_drop] at hrest'
    refine ⟨k + k', b'', by omega, hrest', ?_⟩
    rw [List.length_cons, hstep, hloop, Nat.add_assoc]
    rfl

/-- The loop stops at the end of the source where it needs more bits than there are (R213). -/
theorem readLoop_endOfStream {s : State} {n p : Nat} {b : BitVec 3} {bytes : List Byte} {bits : List Bool} {val : Word}
    (h : SourceHolds s p bytes) (hall : p + bytes.length = s.rlen) (hbits : dataBits bytes b.toNat = bits)
    (hn : bits.length < n) : readLoop s n p b val = .error .endOfStream := by
  obtain ⟨n, rfl⟩ := Nat.exists_eq_add_one_of_ne_zero (Nat.ne_zero_of_lt hn)
  induction bits generalizing n p b bytes val with
  | nil =>
    cases bytes with
    | nil => rw [readLoop, if_pos (show s.rlen ≤ p from hall.ge)]
    | cons c rest =>
      have hhead := head?_dataBits_cons c rest b.isLt
      rw [hbits] at hhead
      cases hhead
  | cons x bits ih =>
    obtain ⟨k, b', hk, hrest, hstep⟩ := readLoop_succ h hbits fun _ => .inl hall
    rw [List.length_cons] at hn
    obtain ⟨n, rfl⟩ := Nat.exists_eq_add_one_of_ne_zero (Nat.ne_zero_of_lt (Nat.lt_of_succ_lt_succ hn))
    rw [hstep]
    exact ih (h.drop hk) (by rw [List.length_drop]; omega) hrest n (Nat.lt_of_succ_lt_succ hn)

/-! ## The reader's commands -/

/-- RDBITS takes as many data bits as it is asked for, the first one most significant (R211, R212, R214). -/
theorem exec_rdbits {s : State} {n : BitVec 6} {bytes : List Byte} {bits rest : List Bool} (hlow : 1 ≤ n.toNat)
    (hhigh : n.toNat ≤ 32) (h : SourceHolds s s.rp bytes) (hbits : dataBits bytes s.rb.toNat = bits ++ rest)
    (hlen : bits.length = n.toNat) (hend : rest = [] → EndSeen s s.rp bytes) :
    ∃ k b, k ≤ bytes.length ∧ dataBits (bytes.drop k) b.toNat = rest ∧ (s.rp + k = s.rlen → b = 0#3) ∧
      exec (.rdbits n) s =
        .next (complete { s with rp := s.rp + k, rb := b, res0 := BitVec.ofNat 32 (bitsValue bits) }) := by
  have hstart : s.rp < s.rlen := by
    have hwithin := h.within
    cases bytes with
    | nil =>
      have hnil := congrArg List.length hbits
      simp [dataBits, destuff] at hnil
      omega
    | cons c bytes =>
      rw [List.length_cons] at hwithin
      omega
  obtain ⟨k, b, hk, hrest, hloop⟩ := readLoop_of_dataBits 0#32 h hbits hend
  rw [hlen, shiftIn_zero] at hloop
  refine ⟨k, b, hk, hrest,
    (readLoop_position s _ _ _ _ _ _ _ hstart.le (fun hc => absurd hc hstart.ne) hloop).2, ?_⟩
  simp [exec, execRdbits, countOk_eq_true hlow hhigh, hloop]

theorem exec_rdbits_endOfStream {s : State} {n : BitVec 6} {bytes : List Byte} (hlow : 1 ≤ n.toNat)
    (hhigh : n.toNat ≤ 32) (h : SourceHolds s s.rp bytes) (hall : s.sourceEnds bytes)
    (hn : (dataBits bytes s.rb.toNat).length < n.toNat) :
    exec (.rdbits n) s = .next { s with error := some ⟨.endOfStream, 0x31#8⟩, done := true, pending := none } := by
  have hloop := readLoop_endOfStream (val := 0#32) h hall rfl hn
  simp [exec, execRdbits, countOk_eq_true hlow hhigh, hloop, raise, complete, Op.rdbits]

/-- Settles O32: the data bits are cut after the `n`-th. -/
theorem rdbitsReadsDestuffedBits : Obligations.RdbitsReadsDestuffedBits := by
  intro s n bytes hlow hhigh hstarts bits
  have hholds : SourceHolds s s.rp bytes := ⟨hstarts.1, hstarts.2⟩
  refine ⟨fun henough => ?_, fun hfew hall => exec_rdbits_endOfStream hlow hhigh hholds hall hfew⟩
  have hlen : (bits.take n.toNat).length = n.toNat := List.length_take_of_le (by omega)
  have hend : bits.drop n.toNat = [] → EndSeen s s.rp bytes := fun hnil =>
    (henough.resolve_left (List.drop_eq_nil_iff.1 hnil).not_gt).2
  obtain ⟨k, b, hk, hrest, hrb, hexec⟩ :=
    exec_rdbits hlow hhigh hholds (List.take_append_drop n.toNat bits).symm hlen hend
  refine ⟨s.rp + k, b, hexec, Nat.le_add_right _ _, (Nat.add_le_add_left hk _).trans hstarts.1, hrb, ?_⟩
  rw [Nat.add_sub_cancel_left, hrest]

/-- Settles O31. -/
theorem rresetSelectsAndRewinds : Obligations.RresetSelectsAndRewinds := fun _ => ⟨rfl, rfl⟩

/-- Settles O38: the frame of every effect keeps the reader, and the effects of the reader's commands are updates of the
reader and RES0. -/
theorem writerAndReaderAreIndependent : Obligations.WriterAndReaderAreIndependent := by
  refine ⟨fun i s t hi h => ?_, fun i s t hi h => ?_⟩
  · refine (effect_of_exec h).frame.reader.resolve_right ?_
    rcases hi with ⟨n, rfl⟩ | rfl | rfl | rfl <;> simp
  · have heff := effect_of_exec h
    rcases hi with ⟨src, rfl⟩ | ⟨n, rfl⟩
    · cases heff <;> simp
    · cases heff <;> simp

end Sys2Proof.Machine
end

section
/-! PROOFS. The byte-stuffing round trip (R215). PUTs add their bits to the writer's stream, WFINAL and RRESET.OUT make
that stream, padded to a byte, the bits that the reader has left, and every RDBITS takes its value off their front. -/

namespace Sys2Proof.Machine

theorem after_of_exec {i : Instr} {s t : State} (h : exec i s = .next t) : after i s = some t := by
  rw [after, h]

/-! ## Writing -/

/-- The bits that the items put into the stream, item by item (R100, R190). -/
def itemBits (items : List (BitVec 6 × Word)) : List Bool := items.flatMap fun x => lowBits x.2 x.1.toNat

/-- Every PUT of the items completes where RAW has room for all their bits (R192, R194). -/
theorem putAll_of_room {items : List (BitVec 6 × Word)} {s : State}
    (hcount : ∀ x ∈ items, 1 ≤ x.1.toNat ∧ x.1.toNat ≤ 32)
    (hroom : s.bitCount + (items.map fun x => x.1.toNat).sum ≤ 8 * 4096) :
    ∃ t, putAll items s = some t ∧ t.stream = s.stream ++ itemBits items ∧
      t.bitCount = s.bitCount + (items.map fun x => x.1.toNat).sum := by
  induction items generalizing s with
  | nil => exact ⟨s, rfl, (List.append_nil _).symm, rfl⟩
  | cons x items ih =>
    obtain ⟨⟨hlow, hhigh⟩, hcount'⟩ := List.forall_mem_cons.1 hcount
    rw [List.map_cons, List.sum_cons] at hroom ⊢
    have hfits : s.rawLen + (s.nb.toNat + x.1.toNat) / 8 ≤ 4096 := by
      rw [State.bitCount] at hroom
      omega
    have hput := after_of_exec (exec_wrbits (s := { s with opa := x.2 }) hlow hhigh hfits)
    have hbits := stream_pushBits (lowBits x.2 x.1.toNat) { s with opa := x.2 }
    have hgrow : (complete (pushBits { s with opa := x.2 } (lowBits x.2 x.1.toNat))).bitCount =
        s.bitCount + x.1.toNat := by
      have hpush := bitCount_pushBits (lowBits x.2 x.1.toNat) { s with opa := x.2 }
      rwa [length_lowBits] at hpush
    obtain ⟨t, ht, hstream, htotal⟩ := ih hcount' (by rw [hgrow]; omega)
    refine ⟨t, by rw [putAll, hput, Option.bind_some, ht], ?_, by rw [htotal, hgrow, Nat.add_assoc]⟩
    rw [hstream, stream_complete, hbits, List.append_assoc]
    rfl

/-! ## From the writer to the reader -/

/-- The source has a value for every byte that is left, and `bits` are the data bits in them (R211). -/
def State.bitsLeft (s : State) (bits : List Bool) : Prop :=
  ∃ bytes, SourceHolds s s.rp bytes ∧ s.sourceEnds bytes ∧ dataBits bytes s.rb.toNat = bits

/-- WFINAL and RRESET.OUT leave the reader the writer's stream, padded to a byte (R200, R210, R212). -/
theorem bitsLeft_of_wfinal {s d : State} (hlen : s.rawLen ≤ 4096) (hroom : s.nb ≠ 0#3 → s.rawLen < 4096)
    (hd : exec (.rreset .out) (complete (stuffOut (flush s))) = .next d) :
    d.bitsLeft (s.stream ++ List.replicate (padCount s.nb.toNat) false) := by
  have hlen' : (flush s).rawLen ≤ 4096 := flush_rawLen_le hlen (flushBlocked_eq_false hroom)
  obtain ⟨houtLen, hread⟩ := out_stuffOut hlen'
  have hcap := outLen_stuffOut_le hlen'
  cases hd
  refine ⟨stuff (stuffOut (flush s)).rawBytes, ⟨(Nat.zero_add _).trans_le houtLen.ge, fun j hj => ?_⟩,
    (Nat.zero_add _).trans houtLen.symm, ?_⟩
  · rw [← houtLen] at hj
    have hin : j < (stuffOut (flush s)).outLen ∧ j < Config.outCap := ⟨hj, hj.trans_le hcap⟩
    rw [← hread j hj, complete_rp, Nat.zero_add]
    exact if_pos hin
  · rw [← stream_flush, stream_of_nb_zero (nb_flush s), ← stuffOut_keeps_raw hlen', dataBits, destuff_stuff]
    rfl

/-! ## Reading -/

/-- RDBITS takes the first bits that are left (R211). -/
theorem exec_rdbits_of_bitsLeft {s : State} {n : BitVec 6} {bits rest : List Bool} (hlow : 1 ≤ n.toNat)
    (hhigh : n.toNat ≤ 32) (hlen : bits.length = n.toNat) (h : s.bitsLeft (bits ++ rest)) :
    ∃ p b, let t : State := { s with
        rp := p, rb := b, res0 := BitVec.ofNat 32 (bitsValue bits), done := true, pending := none }
      exec (.rdbits n) s = .next t ∧ t.bitsLeft rest := by
  obtain ⟨bytes, hholds, hall, hbits⟩ := h
  obtain ⟨k, b, hk, hrest, -, hexec⟩ := exec_rdbits hlow hhigh hholds hbits hlen fun _ => .inl hall
  obtain ⟨hwithin, hbytes⟩ := hholds.drop hk
  refine ⟨s.rp + k, b, hexec, bytes.drop k, ⟨hwithin, hbytes⟩, ?_, hrest⟩
  rw [State.sourceEnds] at hall ⊢
  rw [List.length_drop]
  simp only
  omega

/-- Reading with the counts of the items gives their values back (R215). -/
theorem getAll_of_bitsLeft {items : List (BitVec 6 × Word)} {s : State} {rest : List Bool}
    (hcount : ∀ x ∈ items, 1 ≤ x.1.toNat ∧ x.1.toNat ≤ 32) (h : s.bitsLeft (itemBits items ++ rest)) :
    ∃ e, getAll (items.map Prod.fst) s =
        some (items.map fun x => BitVec.ofNat 32 (x.2.toNat % 2 ^ x.1.toNat), e) ∧ e.bitsLeft rest := by
  induction items generalizing s with
  | nil => exact ⟨s, rfl, h⟩
  | cons x items ih =>
    obtain ⟨⟨hlow, hhigh⟩, hcount'⟩ := List.forall_mem_cons.1 hcount
    rw [itemBits, List.flatMap_cons, List.append_assoc] at h
    obtain ⟨p, b, hexec, hleft⟩ := exec_rdbits_of_bitsLeft hlow hhigh (length_lowBits _ _) h
    obtain ⟨e, hget, hrest⟩ := ih hcount' hleft
    refine ⟨e, ?_, hrest⟩
    rw [bitsValue_lowBits] at hexec hget
    rw [List.map_cons, getAll, after_of_exec hexec, Option.bind_some, hget]
    rfl

theorem bitsValue_zeros (n : Nat) : bitsValue (List.replicate n false) = 0 := by
  induction n with
  | zero => rfl
  | succ n ih => rw [List.replicate_succ', bitsValue_concat, ih]; rfl

/-- What follows where only zero bits are left: zeros, and then EndOfStream (R213, R215). -/
theorem exec_rdbits_of_zeros_left {s : State} {m : Nat} (h : s.bitsLeft (List.replicate m false)) {n : BitVec 6}
    (hlow : 1 ≤ n.toNat) (hhigh : n.toNat ≤ 32) :
    (n.toNat ≤ m → ∃ p q, exec (.rdbits n) s =
      .next { s with rp := p, rb := q, res0 := 0#32, done := true, pending := none }) ∧
    (m < n.toNat → exec (.rdbits n) s =
      .next { s with error := some ⟨.endOfStream, 0x31#8⟩, done := true, pending := none }) := by
  refine ⟨fun hle => ?_, fun hlt => ?_⟩
  · rw [← Nat.add_sub_cancel' hle, List.replicate_add] at h
    obtain ⟨p, q, hexec, -⟩ := exec_rdbits_of_bitsLeft hlow hhigh List.length_replicate h
    rw [bitsValue_zeros] at hexec
    exact ⟨p, q, hexec⟩
  · obtain ⟨bytes, hholds, hall, hbits⟩ := h
    exact exec_rdbits_endOfStream hlow hhigh hholds hall (by rwa [hbits, List.length_replicate])

/-- Settles O33: the items' bits are written, made the reader's, and read. -/
theorem writtenBitsReadBack : Obligations.WrittenBitsReadBack := by
  intro s items hcount htotal
  obtain ⟨b, hput, hstream, hbits⟩ := putAll_of_room
    (s := complete { s with acc := 0#7, nb := 0#3, rawLen := 0, outLen := 0 }) hcount ((Nat.zero_add _).trans_le htotal)
  have hwritten : 8 * b.rawLen + b.nb.toNat = (items.map fun x => x.1.toNat).sum := hbits.trans (Nat.zero_add _)
  have hroom : b.nb ≠ 0#3 → b.rawLen < 4096 := fun hnb => by
    have := toNat_pos_of_ne_zero hnb
    omega
  have hleft := bitsLeft_of_wfinal (by omega) hroom rfl
  have hpad : padCount b.nb.toNat = padCount (items.map fun x => x.1.toNat).sum := by
    rw [← hwritten, padCount, padCount, Nat.mul_add_mod]
  rw [hstream, hpad] at hleft
  obtain ⟨e, hget, hrest⟩ := getAll_of_bitsLeft hcount hleft
  exact ⟨_, b, _, _, e, after_of_exec (exec_wreset s), hput, after_of_exec (exec_wfinal hroom), after_of_exec rfl, hget,
    fun n hlow hhigh => exec_rdbits_of_zeros_left hrest hlow hhigh⟩

end Sys2Proof.Machine
end

section
/-! PROOFS. The engine's step and the bound on BUSY (R231, R235, R238, R254, R301). A command completes or meets a
fault in one engine step. Before that step the host can move only by events that do not wait, and each of these uses up
one event of its list and either keeps the pending word or resets the JBTE. -/

namespace Sys2Proof.Machine

/-! ## The engine's step -/

theorem perform_of_decode {w : Word} {i : Instr} (h : decode w = .ok i) (s : State) : perform w s = exec i s := by
  rw [perform, h]

/-- Settles O5, by the two step lemmas of the engine. -/
theorem stepRunsTheDecodedCommand : Obligations.StepRunsTheDecodedCommand := by
  intro s w i hpending hdecode
  have hperform := perform_of_decode hdecode
  exact ⟨fun hfirst => (step_engine s w hpending hfirst).trans (hperform s),
    fun e rest turns hhost hheld hturns =>
      (step_engine_turn s w e rest turns hpending hhost hheld hturns).trans (hperform _)⟩

theorem exec_nop (s : State) : exec .nop s = .next (complete s) := rfl

/-- Settles O9: NOP is completion alone. -/
theorem nopOnlyCompletes : Obligations.NopOnlyCompletes := exec_nop

/-- Every command has a meaning in every state. -/
theorem exec_ne_refused (i : Instr) (s : State) (r : Refusal) : exec i s ≠ .refused r := by
  intro h
  cases i with
  | nop | catmag | wreset | rreset => cases h
  | fdct | idct | hclear | wflush | wfinal =>
    simp only [exec, execFdct, execIdct, execHclear, execWflush, execWfinal] at h
    split at h <;> cases h
  | hbuild =>
    simp only [exec, execHbuild] at h
    split at h
    · split at h <;> cases h
    · cases h
  | htable | wrbits | rdbits =>
    simp only [exec, execHtable, execWrbits, execRdbits] at h
    split at h
    · cases h
    · split at h <;> cases h

/-- One engine step ends the pending command: BUSY falls, or the model stops at a fault (R231). -/
theorem perform_completes_or_faults (w : Word) (s : State) :
    (∃ t, perform w s = .next t ∧ t.pending = none) ∨ ∃ f, perform w s = .fault f := by
  cases h : perform w s with
  | next t =>
    obtain ⟨i, heffect⟩ := effect_of_perform h
    exact .inl ⟨t, rfl, heffect.frame.pending⟩
  | fault f => exact .inr ⟨f, rfl⟩
  | refused r =>
    cases hdecode : decode w with
    | ok i => exact absurd ((perform_of_decode hdecode s).symm.trans h) (exec_ne_refused i s r)
    | error reason => cases (perform_of_reject hdecode s).symm.trans h

/-! ## The host's moves while BUSY = 1 -/

theorem hostEvent_next_or_fault (e : HostEvent) (s : State) :
    (∃ t, hostEvent e s = .next t) ∨ ∃ f, hostEvent e s = .fault f := by
  cases e with
  | read width off =>
    rw [hostEvent]
    split
    · exact .inl ⟨_, rfl⟩
    · exact .inr ⟨_, rfl⟩
  | write width off v =>
    rw [hostEvent]
    split
    · exact .inl ⟨_, rfl⟩
    · exact .inr ⟨_, rfl⟩
  | hardReset => exact .inl ⟨_, rfl⟩

/-- A write that does not wait is to CTRL or to STATUS (R65, R231). -/
theorem busWrite_of_not_held {s : State} {off : Nat} {v : Word} (h : (targetOf off).held true = false) :
    (targetOf off = .ctrl ∧ s.busWrite off v = writeCtrl v s) ∨ s.busWrite off v = writeStatus v s := by
  obtain htarget | htarget | ⟨hwrite, -⟩ := (Target.held_eq_false_iff true (targetOf off)).1 h
  · exact .inl ⟨htarget, by rw [State.busWrite, htarget]⟩
  · exact .inr (by rw [State.busWrite, htarget])
  · cases hwrite

/-- An event that does not wait leaves the rest of the host's list, and keeps the pending word or resets the JBTE (R65,
R280, R282). -/
theorem hostEvent_of_not_held {e : HostEvent} {s t : State} (hheld : e.held = false) (h : hostEvent e s = .next t) :
    t.host = s.host ∧ (t.pending = s.pending ∨ t.pending = none ∧ e.resets) := by
  cases e with
  | read width off =>
    simp only [hostEvent] at h
    split at h <;> cases h
    exact ⟨rfl, .inl rfl⟩
  | write width off v =>
    simp only [hostEvent] at h
    split at h <;> cases h
    rename_i hlegal
    obtain ⟨hctrl, hwrite⟩ | hwrite := busWrite_of_not_held (s := s) (v := v) hheld
    · rw [hwrite]
      cases hsrst : v.getLsbD 0 with
      | true =>
        rw [writeCtrl_reset v s hsrst]
        simp only [legalAccess, Bool.and_eq_true, decide_eq_true_eq] at hlegal
        have hrange := targetOf_eq_ctrl_iff.1 hctrl
        have hoff : off.toNat = 0x008 := by omega
        exact ⟨rfl, .inr ⟨rfl, hlegal.1, BitVec.eq_of_toNat_eq hoff, hsrst⟩⟩
      | false =>
        rw [writeCtrl_enables v s hsrst]
        exact ⟨rfl, .inl rfl⟩
    · rw [hwrite]
      exact ⟨rfl, .inl rfl⟩
  | hardReset => cases h; exact ⟨rfl, .inr ⟨rfl, trivial⟩⟩

/-- Before the host's next event, a busy JBTE's step is the engine's, or that event where it does not wait (R65,
R254). -/
theorem step_of_busy {s : State} {w : Word} {e : HostEvent} {rest : List HostEvent} (hpending : s.pending = some w)
    (hhost : s.host = e :: rest) : (∃ turns, step s = perform w { s with turns := turns }) ∨
      (e.held = false ∧ ∃ turns, step s = hostEvent e { s with host := rest, turns := turns }) := by
  cases hheld : e.held with
  | true => exact .inl ⟨s.turns, step_engine s w hpending (.inr (.inl ⟨e, rest, hhost, hheld⟩))⟩
  | false =>
    match hturns : s.turns with
    | [] => exact .inl ⟨s.turns, step_engine s w hpending (.inr (.inr hturns))⟩
    | .engine :: turns => exact .inl ⟨turns, step_engine_turn s w e rest turns hpending hhost hheld hturns⟩
    | .host :: turns => exact .inr ⟨rfl, turns, step_host_turn s w e rest turns hpending hhost hheld hturns⟩

/-! ## Runs -/

theorem run_succ_of_next {M : Host.Core} {s t : M.State} (h : M.step s = .next t) (k : Nat) :
    M.run (k + 1) s = M.run k t := by
  rw [Host.Core.run, h]

theorem run_succ_of_fault {M : Host.Core} {s : M.State} {f : M.Fault} (h : M.step s = .fault f) (k : Nat) :
    M.run (k + 1) s = .fault f := by
  rw [Host.Core.run, h]

theorem run_one (M : Host.Core) (s : M.State) : M.run 1 s = M.step s := by
  rw [Host.Core.run]
  cases M.step s <;> rfl

/-- A run can be continued at its end. -/
theorem run_succ_of_run {M : Host.Core} {s t : M.State} {k : Nat} (h : M.run k s = .next t) :
    M.run (k + 1) s = M.step t := by
  induction k generalizing s with
  | zero => cases h; exact run_one M _
  | succ k ih =>
    cases hstep : M.step s with
    | next u =>
      rw [run_succ_of_next hstep] at h ⊢
      exact ih h
    | fault f => rw [Host.Core.run, hstep] at h; cases h
    | refused r => rw [Host.Core.run, hstep] at h; cases h

/-- After `k` steps the engine's next step performs the word. -/
def EnginePerforms (w : Word) (k : Nat) (s : State) : Prop :=
  ∃ u turns, Sys2Proof.core.run k s = .next u ∧ u.pending = some w ∧ step u = perform w { u with turns := turns }

/-- Within as many steps as the host has events left, the wait of a pending word ends: in a fault, in a reset by one of
these events, or with the engine's step on it. -/
theorem wait_ends {s : State} {w : Word} (hpending : s.pending = some w) :
    ∃ k ≤ s.host.length, (∃ f, Sys2Proof.core.run k s = .fault f) ∨
      ((∃ e ∈ s.host, e.resets) ∧ ∃ u, Sys2Proof.core.run k s = .next u ∧ u.pending = none) ∨
      EnginePerforms w k s := by
  induction hhost : s.host generalizing s with
  | nil => exact ⟨0, Nat.le_refl _, .inr (.inr ⟨s, s.turns, rfl, hpending, step_engine s w hpending (.inl hhost)⟩)⟩
  | cons e rest ih =>
    obtain ⟨turns, hstep⟩ | ⟨hheld, turns, hstep⟩ := step_of_busy hpending hhost
    · exact ⟨0, Nat.zero_le _, .inr (.inr ⟨s, turns, rfl, hpending, hstep⟩)⟩
    obtain ⟨t, hevent⟩ | ⟨f, hevent⟩ := hostEvent_next_or_fault e { s with host := rest, turns := turns }
    · have hrun := run_succ_of_next (M := Sys2Proof.core) (hstep.trans hevent)
      obtain ⟨hrest, hkept | ⟨hnone, hresets⟩⟩ := hostEvent_of_not_held hheld hevent
      · obtain ⟨k, hk, hend⟩ := ih (hkept.trans hpending) hrest
        refine ⟨k + 1, Nat.succ_le_succ hk, ?_⟩
        rw [EnginePerforms, hrun k]
        exact hend.imp_right (.imp_left (.imp_left fun ⟨e', hmem, h⟩ => ⟨e', List.mem_cons_of_mem e hmem, h⟩))
      · exact ⟨1, by simp, .inr (.inl ⟨⟨e, List.mem_cons_self, hresets⟩, t, hrun 0, hnone⟩)⟩
    · exact ⟨1, by simp, .inl ⟨f, run_succ_of_fault (M := Sys2Proof.core) (hstep.trans hevent) 0⟩⟩

/-- Settles O8: a wait that ends with the engine's step takes one step more until BUSY is 0, and where no event resets
the JBTE it ends with that step or in a fault. -/
theorem acceptedCommandsComplete : Obligations.AcceptedCommandsComplete := by
  refine ⟨fun s hbusy => ?_, fun s w hpending hno => ?_⟩
  · obtain ⟨w, hpending⟩ := Option.ne_none_iff_exists'.1 hbusy
    obtain ⟨k, hk, hfault | ⟨-, hidle⟩ | ⟨u, turns, hrun, -, hstep⟩⟩ := wait_ends hpending
    · exact ⟨k, Nat.le_succ_of_le hk, .inr hfault⟩
    · exact ⟨k, Nat.le_succ_of_le hk, .inl hidle⟩
    · refine ⟨k + 1, Nat.succ_le_succ hk, ?_⟩
      have hlast := (run_succ_of_run hrun).trans hstep
      rw [hlast]
      exact perform_completes_or_faults w _
  · obtain ⟨k, hk, hfault | ⟨⟨e, hmem, hresets⟩, -⟩ | hengine⟩ := wait_ends hpending
    · exact ⟨k, hk, .inl hfault⟩
    · exact absurd hresets (hno e hmem)
    · exact ⟨k, hk, .inr hengine⟩

end Sys2Proof.Machine
end

section
/-! PROOFS. Errors (R242, R243, R245). A command either raises an error under its own OP or leaves the error record as
it was; `Effect` does not keep the OP, so each command's meaning is looked at once more for it. While ERR = 1 command
acceptance drops every word, and the engine's invariant leaves none pending. -/

namespace Sys2Proof.Machine

/-! ## Raising (R242, R243) -/

@[simp] theorem pushBits_error (bs : List Bool) (s : State) : (pushBits s bs).error = s.error := by
  obtain ⟨_, _, _, _, hpush⟩ := pushBits_changes_writer_only bs s
  rw [hpush]

@[simp] theorem flush_error (s : State) : (flush s).error = s.error := by
  obtain ⟨_, _, _, _, hflush⟩ := flush_changes_writer_only s
  rw [hflush]

/-- A command that leaves a next state raised an error under its own OP, or did not touch ERR, ERRCODE and ERROP. -/
theorem raise_or_error_eq_of_exec {i : Instr} {s t : State} (h : exec i s = .next t) :
    (∃ e, t = raise e i.op s) ∨ t.error = s.error := by
  cases i with
  | nop | catmag | wreset | rreset => cases h; exact .inr rfl
  | fdct | idct =>
    simp only [exec, execFdct, execIdct] at h
    split at h <;> cases h
    exact .inr rfl
  | hclear =>
    simp only [exec, execHclear] at h
    split at h <;> cases h
    · exact .inr rfl
    · exact .inl ⟨_, rfl⟩
  | hbuild =>
    simp only [exec, execHbuild] at h
    split at h
    · split at h <;> cases h
      · exact .inl ⟨_, rfl⟩
      · exact .inr rfl
    · cases h; exact .inl ⟨_, rfl⟩
  | wflush | wfinal =>
    simp only [exec, execWflush, execWfinal] at h
    split at h <;> cases h
    · exact .inl ⟨_, rfl⟩
    · exact .inr (by simp)
  | htable | wrbits | rdbits =>
    simp only [exec, execHtable, execWrbits, execRdbits] at h
    split at h
    · cases h; exact .inl ⟨_, rfl⟩
    · split at h <;> cases h
      · exact .inl ⟨_, rfl⟩
      · exact .inr (by simp)

/-- Settles O34: where no error stood before, an error after a command is the one it raised. -/
theorem errorsChangeStatusOnly : Obligations.ErrorsChangeStatusOnly := by
  intro i s t h hbefore hafter
  obtain ⟨e, rfl⟩ | hkept := raise_or_error_eq_of_exec h
  · exact ⟨e, rfl⟩
  · exact absurd (hkept.trans hbefore) hafter

/-! ## Fail-stop (R245) -/

/-- While ERR = 1 the engine's invariant leaves no command pending. -/
theorem EngineInv.idle_of_error {s : State} (h : EngineInv s) (herr : s.error ≠ none) : s.pending = none :=
  Option.eq_none_iff_forall_ne_some.2 fun w hpending => herr (h w hpending).2

/-- Settles O47, by the rule of acceptance for ERR = 1 and the engine's invariant. -/
theorem failStopDropsCommands : Obligations.FailStopDropsCommands := by
  intro s w r herr
  have hflag : s.errFlag = true := by rw [State.errFlag, herr]; rfl
  exact ⟨hostEvent_write_of_busWrite (by decide) (acceptCommand_dropped w s hflag),
    fun hinv => hinv.idle_of_error (by simp [herr])⟩

end Sys2Proof.Machine
end
